-- ==== Sys2Proof/Word.lean ====
section
/-! DEFINITION. The two widths of the machine: 32-bit words (instruction fields, registers, R35, R36, R110)
and bytes (data memory, event payloads, device vectors, R37, R127). -/

namespace Sys2Proof

/-- A u32 (00_scope.md R10). -/
abbrev Word := BitVec 32

/-- A u8 (00_scope.md R10). -/
abbrev Byte := BitVec 8

end Sys2Proof
end

