-- ==== Sys2Proof/Syntax.lean ====
section
/-! DEFINITION. Instruction records, the twelve classes and the instructions of spec/opcode_table.json. -/

namespace Sys2Proof

/-- The one instruction format, seven u32 fields in the order of the record's words (30_encoding.md R110). -/
structure Record where
  opcode : Word
  rd : Word
  rs1 : Word
  rs2 : Word
  imm : Word
  funct3 : Word
  funct7 : Word
deriving DecidableEq, Repr

/-- The twelve instruction classes (30_encoding.md R113). -/
inductive InstrClass where
  | copy | load | fload | opimm | store | fstore | op | fop | lui | branch | ret | custom
deriving DecidableEq, Repr

/-- The instructions, one constructor per row of spec/opcode_table.json. Each carries the record fields its row
does not call ignored, whole (u32), in the record's order: a register field is a raw u32 (whether it names one of
the 32 registers is `Instr.wf`), `imm` is the raw immediate. The copies carry `rd` (the event's dst), `rs1`, `imm`
(the byte count) and `funct7` (the event's imm); the device commands carry `rd` (the event's dst). -/
inductive Instr where
  | lbu (rd rs1 imm : Word)
  | lw (rd rs1 imm : Word)
  | lwg (rd rs1 rs2 imm : Word)
  | flw (rd rs1 imm : Word)
  | sb (rs1 rs2 imm : Word)
  | sw (rs1 rs2 imm : Word)
  | fsw (rs1 rs2 imm : Word)
  | addi (rd rs1 imm : Word)
  | slli (rd rs1 imm : Word)
  | muli (rd rs1 imm : Word)
  | add (rd rs1 rs2 : Word)
  | sll (rd rs1 rs2 : Word)
  | mul (rd rs1 rs2 : Word)
  | fadd (rd rs1 rs2 : Word)
  | fsub (rd rs1 rs2 : Word)
  | fmac8 (rd rs1 rs2 : Word)
  | lui (rd imm : Word)
  | beq (rs1 rs2 imm : Word)
  | bne (rs1 rs2 imm : Word)
  | ret
  | cpyCam (rd rs1 imm funct7 : Word)
  | cpyMpe (rd rs1 imm funct7 : Word)
  | cpyMmr (rd rs1 imm funct7 : Word)
  | cpyUp (rd rs1 imm funct7 : Word)
  | camPre (rd : Word)
  | camSrch (rd : Word)
  | mpeRst (rd : Word)
  | mpeLdt (rd : Word)
  | mpeLdb (rd : Word)
  | mpeUpd (rd : Word)
  | mpePack (rd : Word)
  | mpeDec (rd : Word)
  | mmrExt (rd : Word)
deriving DecidableEq, Repr

end Sys2Proof
end

