-- ==== Sys2Proof/Config.lean ====
section
/-! DEFINITION. What an implementation fixes: the modes, the configuration record of each component and the topology
(00_scope.md R8, 70_reset_and_hazards.md R484), all plain data, and the free values the spec leaves open. -/

namespace Sys2Proof

/-! ## Modes with alternatives (R8, 93_implementation_defined.md I2) -/

/-- Treatment of an opcode that OPCODE_MAP does not map (30_encoding.md R115). -/
inductive UnmappedOpcode where
  | asOpimm | fault
deriving DecidableEq, Repr

/-- What a taken branch's offset is added to (42_integer.md R256). -/
inductive BranchBase where
  | fetchPc | instrPc
deriving DecidableEq, Repr

/-- Which pipeline registers a taken branch clears (41_pipeline.md R202). -/
inductive FlushScope where
  | all | younger
deriving DecidableEq, Repr

/-- How the router groups a scan list (48_router.md R413, R414). -/
inductive RouterGrouping where
  | adjacent | byTag
deriving DecidableEq, Repr

/-- The modes of 00_scope.md R8. `opcodeMap` is OPCODE_MAP: the class of an opcode is that of its first entry. -/
structure Modes where
  opcodeMap : List (Word × InstrClass)
  unmappedOpcode : UnmappedOpcode
  strict : Bool
  branchBase : BranchBase
  flushScope : FlushScope
  luiShift : Nat
  routerGrouping : RouterGrouping
deriving DecidableEq, Repr

/-- The default numeric opcodes (30_encoding.md R114). -/
def defaultOpcodeMap : List (Word × InstrClass) :=
  [(3, .load), (7, .fload), (11, .custom), (19, .opimm), (35, .store), (39, .fstore),
   (43, .copy), (51, .op), (55, .lui), (83, .fop), (99, .branch), (103, .ret)]

/-- The default modes (00_scope.md R8). -/
def Modes.default : Modes where
  opcodeMap := defaultOpcodeMap
  unmappedOpcode := .asOpimm
  strict := true
  branchBase := .fetchPc
  flushScope := .all
  luiShift := 12
  routerGrouping := .adjacent

/-! ## Configuration record of each component -/

/-- RX_REGION(p) of one inbound core port (44_device_ops.md R318). -/
structure RxRegion where
  flagAddr : Nat
  selAddr : Nat
  buf0 : Nat
  buf1 : Nat
  bufSize : Nat
deriving DecidableEq, Repr

/-- A core's configuration: the two images, CORE_ID, CORE_RX_LATENCY and the regions of its NRX inbound ports. -/
structure CoreConfig where
  imemImage : List Word
  dmemImage : List Byte
  coreId : Word
  rxLatency : Nat
  rxRegions : List RxRegion
deriving DecidableEq, Repr

/-- One CAM cell: a threshold pair and its don't-care pair (10_state.md R47). -/
structure CamCell where
  low : Byte
  high : Byte
  lowX : Bool
  highX : Bool
deriving DecidableEq, Repr

/-- A CAM's configuration: counts, latency, CAM_ROW_IMAGE, the energy increments K_*, NIBBLE_ENERGY as its sixteen
values, P_STATIC_REG and F_CLK (00_scope.md R8; rationals by 45_cam.md R341). -/
structure CamConfig where
  nRows : Nat
  nCols : Nat
  latency : Nat
  rowImage : List (List CamCell)
  kCd : Rat
  kSa : Rat
  kPc : Rat
  kCell : Rat
  kReg : Rat
  nibbleEnergy : Vector Rat 16
  pStaticReg : Rat
  fClk : Rat
deriving DecidableEq, Repr

/-- MPE_ROWS and MPE_LATENCY. -/
structure MpeConfig where
  nRows : Nat
  latency : Nat
deriving DecidableEq, Repr

/-- MMR_ROWS and MMR_LATENCY. -/
structure MmrConfig where
  nRows : Nat
  latency : Nat
deriving DecidableEq, Repr

/-- ROUTER_CHILDREN and the router's latencies. -/
structure RouterConfig where
  nChildren : Nat
  latencyUp : Nat
  latencyDown : Nat
deriving DecidableEq, Repr

/-! ## Ports and topology (40_delay_queue.md R159) -/

/-- A core's output ports. -/
inductive CorePort where
  | camReq | mpeReq | mmrReq | camData | mpeData | mmrData | up
deriving DecidableEq, Repr

/-- Every output port of the system, by component number. -/
inductive OutPort where
  | core (k : Nat) (p : CorePort)
  | camOut (j : Nat)
  | mpeResp (j : Nat)
  | mpeOut (j : Nat)
  | mmrOut (j : Nat)
  | childDown (r k : Nat)
  | parentUp (r : Nat)
deriving DecidableEq, Repr

/-- Every input port of the system, by component number. -/
inductive InPort where
  | rx (k p : Nat)
  | camReq (j : Nat)
  | camData (j : Nat)
  | mpeReq (j : Nat)
  | mpeData (j : Nat)
  | mmrReq (j : Nat)
  | mmrData (j : Nat)
  | childUp (r k : Nat)
  | parentDown (r : Nat)
deriving DecidableEq, Repr

/-- One link of TOPOLOGY and its LINK_LATENCY (40_delay_queue.md R160). -/
structure LinkConfig where
  src : OutPort
  dst : InPort
  latency : Nat
deriving DecidableEq, Repr

/-- The configuration of a whole system (00_scope.md R8). -/
structure Config where
  modes : Modes
  topology : List LinkConfig
  cores : List CoreConfig
  cams : List CamConfig
  mpes : List MpeConfig
  mmrs : List MmrConfig
  routers : List RouterConfig
deriving DecidableEq, Repr

/-- One core, one CAM, one MPE, one MMR and one router of one child, joined so that every result returns to the
core, with the default modes, no program and 256 zero bytes of data memory. DESIGN CHOICE, unsafe: the spec leaves
each of these parameters OPEN (notes/assumptions/3.md); no statement rests on them. -/
def Config.default : Config where
  modes := .default
  topology :=
    [⟨.core 0 .camReq, .camReq 0, 1⟩, ⟨.core 0 .camData, .camData 0, 1⟩, ⟨.camOut 0, .rx 0 0, 1⟩,
     ⟨.core 0 .mpeReq, .mpeReq 0, 1⟩, ⟨.core 0 .mpeData, .mpeData 0, 1⟩, ⟨.mpeResp 0, .rx 0 1, 1⟩,
     ⟨.mpeOut 0, .mmrData 0, 1⟩, ⟨.core 0 .mmrReq, .mmrReq 0, 1⟩, ⟨.mmrOut 0, .rx 0 2, 1⟩,
     ⟨.core 0 .up, .childUp 0 0, 1⟩, ⟨.parentUp 0, .rx 0 3, 1⟩]
  cores :=
    [{ imemImage := [], dmemImage := List.replicate 256 0, coreId := 0, rxLatency := 1
       rxRegions := [⟨128, 129, 130, 131, 1⟩, ⟨132, 133, 134, 135, 1⟩, ⟨136, 137, 144, 160, 16⟩,
                     ⟨176, 177, 180, 184, 4⟩] }]
  cams :=
    [{ nRows := 1, nCols := 1, latency := 1, rowImage := [[⟨0, 0, true, true⟩]]
       kCd := 0, kSa := 0, kPc := 0, kCell := 0, kReg := 0, nibbleEnergy := .replicate 16 0
       pStaticReg := 1, fClk := 1 }]
  mpes := [⟨1, 1⟩]
  mmrs := [⟨1, 1⟩]
  routers := [⟨1, 1, 1⟩]

/-! ## Free values: nothing in Lean evaluates them, so a statement about them holds for every value -/

/-- Which unit draws a NaN pattern: a core or a router, by number. -/
inductive NanDrawer where
  | core (k : Nat) | router (r : Nat)
deriving DecidableEq, Repr

/-- The raw 32 bits behind a unit's n-th NAN_DRAW (43_float.md R273): a free value, notes/assumptions/7.md. -/
opaque Config.nanDraw : NanDrawer → Nat → Word

/-- The host's choice, in a given cycle, among faults that several links or components raise in it
(60_exceptions.md R448): a free value, notes/assumptions/8.md. -/
opaque Config.hostPick : Nat → Nat

/-- The host's choices, in a given cycle, of the order in which it hands over the events of different links
(40_delay_queue.md R161): a free value, notes/assumptions/18.md. -/
opaque Config.linkPick : Nat → Nat → Nat

/-- Which of several parameters out of range a refusal names: a free value, notes/assumptions/21.md. -/
opaque Config.problemPick : Config → Nat

/-- Which of several out-of-range register fields (given the record's rd, rs1 and rs2) a REG_INDEX fault reports: a
free value, notes/assumptions/10.md. -/
opaque Config.fieldPick : Word → Word → Word → Nat

end Sys2Proof
end

