-- ==== Sys2Proof/WellFormed.lean ====
section
/-! DEFINITION. When an instruction is well formed: every register field its class uses names one of the 32
registers (30_encoding.md R112, R119). Decode checks it when the instruction runs and raises REG_INDEX otherwise. -/

namespace Sys2Proof

/-- The register fields the instruction uses, in the order rd, rs1, rs2 (30_encoding.md R119). The copies' and
device commands' `rd` is an event field, not a register. -/
def Instr.registerFields : Instr → List Word
  | .lbu rd rs1 _ => [rd, rs1]
  | .lw rd rs1 _ => [rd, rs1]
  | .lwg rd rs1 rs2 _ => [rd, rs1, rs2]
  | .flw rd rs1 _ => [rd, rs1]
  | .sb rs1 rs2 _ => [rs1, rs2]
  | .sw rs1 rs2 _ => [rs1, rs2]
  | .fsw rs1 rs2 _ => [rs1, rs2]
  | .addi rd rs1 _ => [rd, rs1]
  | .slli rd rs1 _ => [rd, rs1]
  | .muli rd rs1 _ => [rd, rs1]
  | .add rd rs1 rs2 => [rd, rs1, rs2]
  | .sll rd rs1 rs2 => [rd, rs1, rs2]
  | .mul rd rs1 rs2 => [rd, rs1, rs2]
  | .fadd rd rs1 rs2 => [rd, rs1, rs2]
  | .fsub rd rs1 rs2 => [rd, rs1, rs2]
  | .fmac8 rd rs1 rs2 => [rd, rs1, rs2]
  | .lui rd _ => [rd]
  | .beq rs1 rs2 _ => [rs1, rs2]
  | .bne rs1 rs2 _ => [rs1, rs2]
  | .ret => []
  | .cpyCam _ rs1 _ _ => [rs1]
  | .cpyMpe _ rs1 _ _ => [rs1]
  | .cpyMmr _ rs1 _ _ => [rs1]
  | .cpyUp _ rs1 _ _ => [rs1]
  | .camPre _ => []
  | .camSrch _ => []
  | .mpeRst _ => []
  | .mpeLdt _ => []
  | .mpeLdb _ => []
  | .mpeUpd _ => []
  | .mpePack _ => []
  | .mpeDec _ => []
  | .mmrExt _ => []

/-- A register field names a register (30_encoding.md R112). -/
def isRegister (w : Word) : Bool := decide (w.toNat < 32)

/-- Every register field the instruction uses names a register (30_encoding.md R112). -/
def Instr.wf (i : Instr) : Bool := i.registerFields.all isRegister

end Sys2Proof
end

