-- ==== Sys2Proof/Decode.lean ====
section
/-! DEFINITION. The decoder (records to instructions, rejecting by name), then the encoder, both written from the
encoding tables of 30_encoding.md. -/

namespace Sys2Proof

/-! ## Classes (R113 to R116) -/

/-- The class OPCODE_MAP gives an opcode (30_encoding.md R114). -/
def classOf : List (Word × InstrClass) → Word → Option InstrClass
  | [], _ => none
  | (k, c) :: rest, op => if k = op then some c else classOf rest op

/-- The class of an opcode, an unmapped one being OPIMM or none as UNMAPPED_OPCODE says (30_encoding.md R115). -/
def Modes.classify (m : Modes) (op : Word) : Option InstrClass :=
  match classOf m.opcodeMap op with
  | some c => some c
  | none =>
    match m.unmappedOpcode with
    | .asOpimm => some .opimm
    | .fault => none

/-! ## Decoding (R117) -/

/-- The three devices a CUSTOM instruction commands (30_encoding.md R123). -/
inductive Device where
  | cam | mpe | mmr
deriving DecidableEq, Repr

/-- Why a record of a known or unknown class is no instruction of the table; what the machine does with it is
`Machine.execUnlisted`. -/
inductive Unlisted where
  /-- The opcode is in no entry of OPCODE_MAP and UNMAPPED_OPCODE is FAULT (R115). -/
  | opcode
  /-- The class has no operation with this funct3 (R117). -/
  | funct3 (cls : InstrClass)
  /-- A device command with a sub-opcode the table does not list (R124). -/
  | subop (dev : Device)
deriving DecidableEq, Repr

/-- The instruction a record of class `cls` stands for, by `funct3` and, in class CUSTOM, `imm`
(30_encoding.md R117, R123, R124). -/
def decodeAs : InstrClass → Record → Except Unlisted Instr
  | .copy, r =>
    match r.funct3.toNat with
    | 0 => .ok (.cpyCam r.rd r.rs1 r.imm r.funct7)
    | 1 => .ok (.cpyMpe r.rd r.rs1 r.imm r.funct7)
    | 2 => .ok (.cpyMmr r.rd r.rs1 r.imm r.funct7)
    | 3 => .ok (.cpyUp r.rd r.rs1 r.imm r.funct7)
    | _ => .error (.funct3 .copy)
  | .load, r =>
    match r.funct3.toNat with
    | 0 => .ok (.lbu r.rd r.rs1 r.imm)
    | 2 => .ok (.lw r.rd r.rs1 r.imm)
    | 4 => .ok (.lwg r.rd r.rs1 r.rs2 r.imm)
    | _ => .error (.funct3 .load)
  | .fload, r => .ok (.flw r.rd r.rs1 r.imm)
  | .opimm, r =>
    match r.funct3.toNat with
    | 0 => .ok (.addi r.rd r.rs1 r.imm)
    | 1 => .ok (.slli r.rd r.rs1 r.imm)
    | 2 => .ok (.muli r.rd r.rs1 r.imm)
    | _ => .error (.funct3 .opimm)
  | .store, r =>
    match r.funct3.toNat with
    | 0 => .ok (.sb r.rs1 r.rs2 r.imm)
    | 2 => .ok (.sw r.rs1 r.rs2 r.imm)
    | _ => .error (.funct3 .store)
  | .fstore, r => .ok (.fsw r.rs1 r.rs2 r.imm)
  | .op, r =>
    match r.funct3.toNat with
    | 0 => .ok (.add r.rd r.rs1 r.rs2)
    | 1 => .ok (.sll r.rd r.rs1 r.rs2)
    | 2 => .ok (.mul r.rd r.rs1 r.rs2)
    | _ => .error (.funct3 .op)
  | .fop, r =>
    match r.funct3.toNat with
    | 0 => .ok (.fadd r.rd r.rs1 r.rs2)
    | 1 => .ok (.fsub r.rd r.rs1 r.rs2)
    | 2 => .ok (.fmac8 r.rd r.rs1 r.rs2)
    | _ => .error (.funct3 .fop)
  | .lui, r => .ok (.lui r.rd r.imm)
  | .branch, r =>
    match r.funct3.toNat with
    | 0 => .ok (.beq r.rs1 r.rs2 r.imm)
    | 1 => .ok (.bne r.rs1 r.rs2 r.imm)
    | _ => .error (.funct3 .branch)
  | .ret, _ => .ok .ret
  | .custom, r =>
    match r.funct3.toNat, r.imm.toNat with
    | 0, 0 => .ok (.camPre r.rd)
    | 0, 1 => .ok (.camSrch r.rd)
    | 0, _ => .error (.subop .cam)
    | 1, 0 => .ok (.mpeRst r.rd)
    | 1, 1 => .ok (.mpeLdt r.rd)
    | 1, 2 => .ok (.mpeLdb r.rd)
    | 1, 3 => .ok (.mpeUpd r.rd)
    | 1, 4 => .ok (.mpePack r.rd)
    | 1, 5 => .ok (.mpeDec r.rd)
    | 1, _ => .error (.subop .mpe)
    | 2, 0 => .ok (.mmrExt r.rd)
    | 2, _ => .error (.subop .mmr)
    | _, _ => .error (.funct3 .custom)

/-- The instruction a record stands for under the given modes. -/
def decodeRecord (m : Modes) (r : Record) : Except Unlisted Instr :=
  match m.classify r.opcode with
  | some cls => decodeAs cls r
  | none => .error .opcode

/-- The records of a flattened instruction memory image, seven words each in the order of R110; words that do not
fill a record are no record (such an image is refused, R9). -/
def recordsOf : List Word → List Record
  | op :: rd :: rs1 :: rs2 :: imm :: f3 :: f7 :: rest => ⟨op, rd, rs1, rs2, imm, f3, f7⟩ :: recordsOf rest
  | _ => []

/-- Why a list of words is no instruction. -/
inductive DecodeError where
  | wrongLength
  | unlisted (u : Unlisted)
deriving DecidableEq, Repr

/-- Decode the words of one instruction: total on any words (30_encoding.md R110, R111). -/
def decode (m : Modes) : List Word → Except DecodeError Instr
  | [op, rd, rs1, rs2, imm, f3, f7] =>
    match decodeRecord m ⟨op, rd, rs1, rs2, imm, f3, f7⟩ with
    | .ok i => .ok i
    | .error u => .error (.unlisted u)
  | _ => .error .wrongLength

/-- Word k of an instruction's bits: bits 32k+31 down to 32k. -/
def wordAt (w k : Nat) : Word := BitVec.ofNat 32 (w >>> (32 * k))

/-- The seven words of an instruction whose bits below `nbits` are `w`, the bits above being 0. -/
def tableWords (nbits w : Nat) : List Word :=
  (List.range 7).map (wordAt (w % 2 ^ nbits))

/-- What the decoder, with the default modes, reads from an instruction whose bits are `w`. -/
def decodeTableWord (nbits w : Nat) : Option Instr :=
  match decode .default (tableWords nbits w) with
  | .ok i => some i
  | .error _ => none

/-! ## Encoding -/

/-- The class of an instruction (30_encoding.md R117). -/
def Instr.cls : Instr → InstrClass
  | .lbu .. | .lw .. | .lwg .. => .load
  | .flw .. => .fload
  | .sb .. | .sw .. => .store
  | .fsw .. => .fstore
  | .addi .. | .slli .. | .muli .. => .opimm
  | .add .. | .sll .. | .mul .. => .op
  | .fadd .. | .fsub .. | .fmac8 .. => .fop
  | .lui .. => .lui
  | .beq .. | .bne .. => .branch
  | .ret => .ret
  | .cpyCam .. | .cpyMpe .. | .cpyMmr .. | .cpyUp .. => .copy
  | .camPre .. | .camSrch .. | .mpeRst .. | .mpeLdt .. | .mpeLdb .. | .mpeUpd .. | .mpePack .. | .mpeDec ..
  | .mmrExt .. => .custom

/-- The record of an instruction with the given opcode; ignored fields are 0 (30_encoding.md R117, R124, R133). -/
def Instr.record (op : Word) : Instr → Record
  | .lbu rd rs1 imm => ⟨op, rd, rs1, 0, imm, 0, 0⟩
  | .lw rd rs1 imm => ⟨op, rd, rs1, 0, imm, 2, 0⟩
  | .lwg rd rs1 rs2 imm => ⟨op, rd, rs1, rs2, imm, 4, 0⟩
  | .flw rd rs1 imm => ⟨op, rd, rs1, 0, imm, 0, 0⟩
  | .sb rs1 rs2 imm => ⟨op, 0, rs1, rs2, imm, 0, 0⟩
  | .sw rs1 rs2 imm => ⟨op, 0, rs1, rs2, imm, 2, 0⟩
  | .fsw rs1 rs2 imm => ⟨op, 0, rs1, rs2, imm, 0, 0⟩
  | .addi rd rs1 imm => ⟨op, rd, rs1, 0, imm, 0, 0⟩
  | .slli rd rs1 imm => ⟨op, rd, rs1, 0, imm, 1, 0⟩
  | .muli rd rs1 imm => ⟨op, rd, rs1, 0, imm, 2, 0⟩
  | .add rd rs1 rs2 => ⟨op, rd, rs1, rs2, 0, 0, 0⟩
  | .sll rd rs1 rs2 => ⟨op, rd, rs1, rs2, 0, 1, 0⟩
  | .mul rd rs1 rs2 => ⟨op, rd, rs1, rs2, 0, 2, 0⟩
  | .fadd rd rs1 rs2 => ⟨op, rd, rs1, rs2, 0, 0, 0⟩
  | .fsub rd rs1 rs2 => ⟨op, rd, rs1, rs2, 0, 1, 0⟩
  | .fmac8 rd rs1 rs2 => ⟨op, rd, rs1, rs2, 0, 2, 0⟩
  | .lui rd imm => ⟨op, rd, 0, 0, imm, 0, 0⟩
  | .beq rs1 rs2 imm => ⟨op, 0, rs1, rs2, imm, 0, 0⟩
  | .bne rs1 rs2 imm => ⟨op, 0, rs1, rs2, imm, 1, 0⟩
  | .ret => ⟨op, 0, 0, 0, 0, 0, 0⟩
  | .cpyCam rd rs1 imm f7 => ⟨op, rd, rs1, 0, imm, 0, f7⟩
  | .cpyMpe rd rs1 imm f7 => ⟨op, rd, rs1, 0, imm, 1, f7⟩
  | .cpyMmr rd rs1 imm f7 => ⟨op, rd, rs1, 0, imm, 2, f7⟩
  | .cpyUp rd rs1 imm f7 => ⟨op, rd, rs1, 0, imm, 3, f7⟩
  | .camPre rd => ⟨op, rd, 0, 0, 0, 0, 0⟩
  | .camSrch rd => ⟨op, rd, 0, 0, 1, 0, 0⟩
  | .mpeRst rd => ⟨op, rd, 0, 0, 0, 1, 0⟩
  | .mpeLdt rd => ⟨op, rd, 0, 0, 1, 1, 0⟩
  | .mpeLdb rd => ⟨op, rd, 0, 0, 2, 1, 0⟩
  | .mpeUpd rd => ⟨op, rd, 0, 0, 3, 1, 0⟩
  | .mpePack rd => ⟨op, rd, 0, 0, 4, 1, 0⟩
  | .mpeDec rd => ⟨op, rd, 0, 0, 5, 1, 0⟩
  | .mmrExt rd => ⟨op, rd, 0, 0, 0, 2, 0⟩

/-- The default opcode of each class (30_encoding.md R114). -/
def defaultOpcode : InstrClass → Word
  | .load => 3
  | .fload => 7
  | .custom => 11
  | .opimm => 19
  | .store => 35
  | .fstore => 39
  | .copy => 43
  | .op => 51
  | .lui => 55
  | .fop => 83
  | .branch => 99
  | .ret => 103

/-- The seven words of a record, in the order of R110. -/
def Record.words (r : Record) : List Word :=
  [r.opcode, r.rd, r.rs1, r.rs2, r.imm, r.funct3, r.funct7]

/-- The words of an instruction with the default opcode numbers. -/
def encode (i : Instr) : List Word := (i.record (defaultOpcode i.cls)).words

/-- The bits of a list of words as one number, the first word lowest. -/
def wordsToNat : List Word → Nat
  | [] => 0
  | w :: ws => w.toNat + 2 ^ 32 * wordsToNat ws

end Sys2Proof
end

