-- ==== Sys2Proof/Machine/State.lean ====
section
/-! DEFINITION. The state of the system as plain data (10_state.md), the fault record, the reasons a step can stop,
and the reset state (70_reset_and_hazards.md R480). -/

namespace Sys2Proof.Machine

/-! ## Events and queues -/

/-- The two event shapes (30_encoding.md R126): A on device links, B (network) on router links. -/
inductive Event where
  | a (opcode dst imm : Word) (payload : List Byte)
  | b (opcode dst src1 src2 imm : Word) (payload : List Byte)
deriving DecidableEq, Repr

/-- A delay queue: (ready cycle, item) pairs, head first, and the cursor of the throttled policy (R58, R150). -/
structure DelayQueue (α : Type) where
  items : List (Nat × α)
  nextAvail : Nat
deriving DecidableEq, Repr

/-- The empty queue of reset (R58). -/
def DelayQueue.empty {α : Type} : DelayQueue α := ⟨[], 0⟩

/-- The self-scheduling busy discipline: the busy flag, the waiting requests and the one outstanding completion
(R50, R163). The core's `busy`, `rxq` and `rxdone` (R40, R43) and each router direction (R57) are this too. -/
structure Discipline (α : Type) where
  busy : Bool
  inq : DelayQueue α
  doneq : DelayQueue α
deriving DecidableEq, Repr

/-- The idle discipline of reset. -/
def Discipline.idle {α : Type} : Discipline α := ⟨false, .empty, .empty⟩

/-! ## The fault record (R31, R441) -/

/-- The fault codes of 60_exceptions.md R441, in the order of their numbers 1 to 16. -/
inductive FaultCode where
  | pcRange | unmappedDecode | unmappedExecute | unmappedMemory | unmappedWriteback | dmemRange | regIndex
  | shiftRange | hazardRaw | hazardFlush | x0Write | deviceSubop | deviceData | rxOverflow | routerPayload | config
deriving DecidableEq, Repr

/-- A register field of a record. -/
inductive RegField where
  | rd | rs1 | rs2
deriving DecidableEq, Repr

/-- The two register files (R35, R36). -/
inductive RegFile where
  | x | f
deriving DecidableEq, Repr

/-- The value recorded with a fault (the info column of R441). -/
inductive FaultInfo where
  | pc (pc : Int)
  | form (ipc : Int) (cls : InstrClass) (funct3 : Word)
  | opcode (op : Word)
  | address (a : Nat)
  | regIndex (ipc : Int) (field : RegField)
  | shift (ipc : Int) (amount : Word)
  | register (ipc : Int) (file : RegFile) (index : Word)
  | ipc (ipc : Int)
  | subop (dev : Device) (imm : Word)
  | data (dev : Device) (length : Option Nat)
  | rx (port length : Nat)
  | router (tag : Word) (length : Nat)
deriving DecidableEq, Repr

/-- A fault record (R31). -/
structure FaultRecord where
  code : FaultCode
  info : FaultInfo
deriving DecidableEq, Repr

/-! ## The core (R33 to R44) -/

/-- Bytes of data memory that differ from DMEM_IMAGE, addresses strictly rising. -/
abbrev Memory := List Host.Cell

/-- The pipeline register between fetch and decode (R38). -/
structure FetchLatch where
  update : Bool
  record : Record
  ipc : Int
deriving DecidableEq, Repr

/-- A pipeline register after decode (R38). `rs1` and `rs2` are the model's own: the record's source fields, carried
so that the instruction the latch holds can be named, and read by no effect (notes/assumptions/6.md). -/
structure Latch where
  update : Bool
  cls : InstrClass
  opcode : Word
  rd : Word
  rs1 : Word
  rs2 : Word
  a : Word
  b : Word
  fa : Word
  fb : Word
  imm : Word
  funct3 : Word
  funct7 : Word
  ipc : Int
deriving DecidableEq, Repr

/-- One core, with its configuration. -/
structure Core where
  cfg : CoreConfig
  pc : Int
  imem : List Record
  x : Vector Word 32
  f : Vector Word 32
  dmem : Memory
  dr : FetchLatch
  er : Latch
  mr : Latch
  wr : Latch
  rx : Discipline (Nat × Event)
  fetchHalted : Bool
  ended : Bool
  actF : Nat
  actD : Nat
  actE : Nat
  actM : Nat
  actW : Nat
  nanDraws : Nat
deriving DecidableEq, Repr

/-! ## The devices and the router (R47 to R57) -/

/-- One CAM array (R47 to R50). -/
structure Cam where
  cfg : CamConfig
  rows : List (List CamCell)
  query : Option (List Byte × List Bool)
  eLeak : Rat
  eCd : Rat
  eSa : Rat
  ePc : Rat
  eCell : Rat
  eReg : Rat
  eStatic : Rat
  disc : Discipline Event
deriving DecidableEq, Repr

/-- One row of the MPE's seven vectors (R51). -/
structure MpeRow where
  t : Byte
  b : Byte
  n : Byte
  s : Byte
  p : Byte
  up : Byte
  down : Byte
deriving DecidableEq, Repr

/-- One match-processing element (R51 to R53). -/
structure Mpe where
  cfg : MpeConfig
  rows : List MpeRow
  data : Option (List Byte)
  disc : Discipline Event
deriving DecidableEq, Repr

/-- One match register (R54, R55). -/
structure Mmr where
  cfg : MmrConfig
  pos : Option (List Byte)
  neg : Option (List Byte)
  disc : Discipline Event
deriving DecidableEq, Repr

/-- An aggregation request of the router's upward direction (R57, R413). -/
structure AggRequest where
  opcode : Word
  dst : Word
  src1 : Word
  src2 : Word
  tag : Word
  buf : List Byte
deriving DecidableEq, Repr

/-- One router (R56, R57). -/
structure Router where
  cfg : RouterConfig
  childIn : List (List Event)
  up : Discipline AggRequest
  down : Discipline Event
  nanDraws : Nat
deriving DecidableEq, Repr

/-! ## The system -/

/-- One link and the events travelling on it (R32). -/
structure Link where
  cfg : LinkConfig
  queue : List (Nat × Event)
deriving DecidableEq, Repr

/-- The four stages an instruction acts in (R190). -/
inductive Stage where
  | decode | execute | memory | writeback
deriving DecidableEq, Repr

/-- The model's own: where `exec` acts, and whether a taken branch has ended the tick of that core (R204).
At rest between steps (notes/assumptions/4.md). -/
structure Focus where
  core : Nat
  stage : Stage
  tickEnded : Bool
deriving DecidableEq, Repr

/-- The resting focus. -/
def Focus.rest : Focus := ⟨0, .decode, false⟩

/-- The whole system (10_state.md): plain data. -/
structure State where
  modes : Modes
  cycle : Nat
  fault : Option FaultRecord
  links : List Link
  cores : List Core
  cams : List Cam
  mpes : List Mpe
  mmrs : List Mmr
  routers : List Router
  focus : Focus
deriving DecidableEq, Repr

/-! ## Why a step stops -/

/-- Reasons a step faults. -/
inductive Fault where
  /-- Raised by `step` on a system whose fault record is set: no component ticks again and no further step runs
  (R31, R168, R442). Safe: it is what the spec says. -/
  | halted (record : FaultRecord)
deriving DecidableEq, Repr

/-- The parameter of R8 a refused configuration breaks, with the component that has it (R9, R441 code 16). -/
inductive ConfigProblem where
  | imemImage (core : Nat)
  | rxLatency (core : Nat)
  | rxRegion (core port : Nat)
  | camRows (cam : Nat)
  | camCols (cam : Nat)
  | camLatency (cam : Nat)
  | camRowImage (cam : Nat)
  | kCd (cam : Nat)
  | kSa (cam : Nat)
  | kPc (cam : Nat)
  | kCell (cam : Nat)
  | kReg (cam : Nat)
  | nibbleEnergy (cam : Nat)
  | pStaticReg (cam : Nat)
  | fClk (cam : Nat)
  | mpeRows (mpe : Nat)
  | mpeLatency (mpe : Nat)
  | mmrRows (mmr : Nat)
  | mmrLatency (mmr : Nat)
  | routerChildren (router : Nat)
  | routerLatencyUp (router : Nat)
  | routerLatencyDown (router : Nat)
  | linkLatency (link : Nat)
  | topology
deriving DecidableEq, Repr

/-- Reasons a step is refused. -/
inductive Refusal where
  /-- Raised by `exec` on an instruction that has no meaning yet. Safe. No instruction is left without one. -/
  | notModelled (mnemonic : String)
  /-- CONFIG: raised by `step` and `State.boot?` on a configuration outside the ranges of R8; the spec has no run for
  it (R9, R445). Safe. -/
  | config (problem : ConfigProblem)
  /-- Raised by `exec` when the focus names no core of the system; `step` never focuses on such a core. Safe. -/
  | noSuchCore
deriving DecidableEq, Repr

/-! ## Reset (R480) -/

/-- A latch holding nothing; every field but `update` is unspecified and never read (R481): DESIGN CHOICE 0
(notes/assumptions/5.md). -/
def Latch.blank : Latch := ⟨false, .copy, 0, 0, 0, 0, 0, 0, 0, 0, 0, 0, 0, 0⟩

/-- The fetch latch holding nothing (R481, notes/assumptions/5.md). -/
def FetchLatch.blank : FetchLatch := ⟨false, ⟨0, 0, 0, 0, 0, 0, 0⟩, 0⟩

/-- A core's reset state (R33 to R44). -/
def Core.boot (cfg : CoreConfig) : Core where
  cfg := cfg
  pc := 0
  imem := recordsOf cfg.imemImage
  x := .replicate 32 0
  f := .replicate 32 0
  dmem := []
  dr := .blank
  er := .blank
  mr := .blank
  wr := .blank
  rx := .idle
  fetchHalted := false
  ended := false
  actF := 0
  actD := 0
  actE := 0
  actM := 0
  actW := 0
  nanDraws := 0

/-- A CAM's reset state (R47 to R50). -/
def Cam.boot (cfg : CamConfig) : Cam :=
  ⟨cfg, cfg.rowImage, none, 0, 0, 0, 0, 0, 0, 0, .idle⟩

/-- An MPE's reset state (R51 to R53). -/
def Mpe.boot (cfg : MpeConfig) : Mpe :=
  ⟨cfg, List.replicate cfg.nRows ⟨0, 0, 0, 0, 1, 1, 1⟩, none, .idle⟩

/-- An MMR's reset state (R54, R55). -/
def Mmr.boot (cfg : MmrConfig) : Mmr := ⟨cfg, none, none, .idle⟩

/-- A router's reset state (R56, R57). -/
def Router.boot (cfg : RouterConfig) : Router :=
  ⟨cfg, List.replicate cfg.nChildren [], .idle, .idle, 0⟩

/-- The reset state of a configured system: what the initialization hooks leave (R170, R480). -/
def State.boot (cfg : Config) : State where
  modes := cfg.modes
  cycle := 0
  fault := none
  links := cfg.topology.map fun l => ⟨l, []⟩
  cores := cfg.cores.map Core.boot
  cams := cfg.cams.map Cam.boot
  mpes := cfg.mpes.map Mpe.boot
  mmrs := cfg.mmrs.map Mmr.boot
  routers := cfg.routers.map Router.boot
  focus := .rest

/-- The machine right after reset, in the configuration `Config.default` (notes/assumptions/3.md). -/
def State.reset : State := State.boot .default

end Sys2Proof.Machine
end

