-- ==== Sys2Proof/Machine/ConfigCheck.lean ====
section
/-! DEFINITION. The refusal of a configuration outside the ranges of 00_scope.md R8 (R9, 60_exceptions.md R445,
92_eei_decisions.md D59), and the boot that makes it (70_reset_and_hazards.md R485). -/

namespace Sys2Proof.Machine

/-- The configuration a system runs with. -/
def State.config (s : State) : Config where
  modes := s.modes
  topology := s.links.map Link.cfg
  cores := s.cores.map Core.cfg
  cams := s.cams.map Cam.cfg
  mpes := s.mpes.map Mpe.cfg
  mmrs := s.mmrs.map Mmr.cfg
  routers := s.routers.map Router.cfg

/-! ## RX regions (20_memory.md R90) -/

/-- The byte ranges of a region, as start and length. -/
def rxRanges (g : RxRegion) : List (Nat × Nat) :=
  [(g.flagAddr, 1), (g.selAddr, 1), (g.buf0, g.bufSize), (g.buf1, g.bufSize)]

/-- Two byte ranges share a byte. -/
def rangesMeet (a b : Nat × Nat) : Bool :=
  decide (0 < a.2) && decide (0 < b.2) && decide (a.1 < b.1 + b.2) && decide (b.1 < a.1 + a.2)

/-- Two regions share a byte. -/
def regionsMeet (g h : RxRegion) : Bool :=
  (rxRanges g).any fun a => (rxRanges h).any fun b => rangesMeet a b

/-- Every byte of a region lies in the data memory. -/
def regionFits (size : Nat) (g : RxRegion) : Bool :=
  (rxRanges g).all fun a => decide (a.1 + a.2 ≤ size)

/-- A region shares a byte with another region of its core. -/
def meetsAnother (regions : List RxRegion) (g : RxRegion) (p : Nat) : Bool :=
  regions.zipIdx.any fun h => decide (h.2 ≠ p) && regionsMeet g h.1

/-! ## Topology (40_delay_queue.md R159) -/

/-- The output port exists. -/
def outPortExists (cfg : Config) : OutPort → Bool
  | .core k _ => decide (k < cfg.cores.length)
  | .camOut j => decide (j < cfg.cams.length)
  | .mpeResp j => decide (j < cfg.mpes.length)
  | .mpeOut j => decide (j < cfg.mpes.length)
  | .mmrOut j => decide (j < cfg.mmrs.length)
  | .childDown r k => match cfg.routers[r]? with
    | some rc => decide (k < rc.nChildren)
    | none => false
  | .parentUp r => decide (r < cfg.routers.length)

/-- The input port exists. -/
def inPortExists (cfg : Config) : InPort → Bool
  | .rx k p => match cfg.cores[k]? with
    | some cc => decide (p < cc.rxRegions.length)
    | none => false
  | .camReq j => decide (j < cfg.cams.length)
  | .camData j => decide (j < cfg.cams.length)
  | .mpeReq j => decide (j < cfg.mpes.length)
  | .mpeData j => decide (j < cfg.mpes.length)
  | .mmrReq j => decide (j < cfg.mmrs.length)
  | .mmrData j => decide (j < cfg.mmrs.length)
  | .childUp r k => match cfg.routers[r]? with
    | some rc => decide (k < rc.nChildren)
    | none => false
  | .parentDown r => decide (r < cfg.routers.length)

/-- The output port sends Event B (R126, R159). -/
def sendsNetwork : OutPort → Bool
  | .core _ .up => true
  | .childDown _ _ => true
  | .parentUp _ => true
  | .core _ .camReq => false
  | .core _ .mpeReq => false
  | .core _ .mmrReq => false
  | .core _ .camData => false
  | .core _ .mpeData => false
  | .core _ .mmrData => false
  | .camOut _ => false
  | .mpeResp _ => false
  | .mpeOut _ => false
  | .mmrOut _ => false

/-- The input port takes an event of the given shape: a core's rx both, a router's ports B, a device's A (R159). -/
def takesShape (network : Bool) : InPort → Bool
  | .rx _ _ => true
  | .childUp _ _ => network
  | .parentDown _ => network
  | .camReq _ => !network
  | .camData _ => !network
  | .mpeReq _ => !network
  | .mpeData _ => !network
  | .mmrReq _ => !network
  | .mmrData _ => !network

/-- Every link joins two existing ports of one event shape, and no port is in two links (R159, R162,
notes/assumptions/11.md). -/
def topologyOk (cfg : Config) : List LinkConfig → Bool
  | [] => true
  | l :: ls =>
    outPortExists cfg l.src && inPortExists cfg l.dst && takesShape (sendsNetwork l.src) l.dst &&
      ls.all (fun m => decide (m.src ≠ l.src) && decide (m.dst ≠ l.dst)) && topologyOk cfg ls

/-! ## The refusal -/

/-- A parameter, named when its check fails. -/
def failing (ok : Bool) (p : ConfigProblem) : List ConfigProblem := if ok then [] else [p]

/-- What is out of range in a core's configuration: the image not a multiple of 7 words, CORE_RX_LATENCY 0, an RX region
that does not fit or meets another (R8, R9, R90). -/
def coreProblems (k : Nat) (c : CoreConfig) : List ConfigProblem :=
  failing (decide (c.imemImage.length % 7 = 0)) (.imemImage k) ++ failing (decide (0 < c.rxLatency)) (.rxLatency k) ++
    c.rxRegions.zipIdx.flatMap fun g =>
      failing (regionFits c.dmemImage.length g.1 && !meetsAnother c.rxRegions g.1 g.2) (.rxRegion k g.2)

/-- What is out of range in a CAM's configuration: a count or the latency 0, a CAM_ROW_IMAGE that is not R rows of C
cells, an energy increment below 0, P_STATIC_REG or F_CLK not above 0 (R8, R9). -/
def camProblems (j : Nat) (c : CamConfig) : List ConfigProblem :=
  failing (decide (0 < c.nRows)) (.camRows j) ++ failing (decide (0 < c.nCols)) (.camCols j) ++
    failing (decide (0 < c.latency)) (.camLatency j) ++
    failing (decide (c.rowImage.length = c.nRows) && c.rowImage.all fun row => row.length == c.nCols) (.camRowImage j) ++
    failing (decide (0 ≤ c.kCd)) (.kCd j) ++ failing (decide (0 ≤ c.kSa)) (.kSa j) ++
    failing (decide (0 ≤ c.kPc)) (.kPc j) ++ failing (decide (0 ≤ c.kCell)) (.kCell j) ++
    failing (decide (0 ≤ c.kReg)) (.kReg j) ++
    failing (c.nibbleEnergy.toList.all fun e => decide (0 ≤ e)) (.nibbleEnergy j) ++
    failing (decide (0 < c.pStaticReg)) (.pStaticReg j) ++ failing (decide (0 < c.fClk)) (.fClk j)

/-- What is out of range in an MPE's configuration (R8, R9). -/
def mpeProblems (j : Nat) (c : MpeConfig) : List ConfigProblem :=
  failing (decide (0 < c.nRows)) (.mpeRows j) ++ failing (decide (0 < c.latency)) (.mpeLatency j)

/-- What is out of range in an MMR's configuration: MMR_ROWS outside 1..255, a latency of 0 (R8, R9). -/
def mmrProblems (j : Nat) (c : MmrConfig) : List ConfigProblem :=
  failing (decide (0 < c.nRows) && decide (c.nRows ≤ 255)) (.mmrRows j) ++
    failing (decide (0 < c.latency)) (.mmrLatency j)

/-- What is out of range in a router's configuration (R8, R9). -/
def routerProblems (j : Nat) (c : RouterConfig) : List ConfigProblem :=
  failing (decide (0 < c.nChildren)) (.routerChildren j) ++
    failing (decide (0 < c.latencyUp)) (.routerLatencyUp j) ++
    failing (decide (0 < c.latencyDown)) (.routerLatencyDown j)

/-- A link's LINK_LATENCY is at least 1 (R8, R160). -/
def linkProblems (j : Nat) (l : LinkConfig) : List ConfigProblem :=
  failing (decide (0 < l.latency)) (.linkLatency j)

/-- What a check names in a list of components, numbered from 0. -/
def problemsOf {α : Type} (check : Nat → α → List ConfigProblem) (components : List α) : List ConfigProblem :=
  components.zipIdx.flatMap fun e => check e.2 e.1

/-- Every parameter of a configuration that is out of range (R8, R9). -/
def configProblems (cfg : Config) : List ConfigProblem :=
  problemsOf coreProblems cfg.cores ++ problemsOf camProblems cfg.cams ++ problemsOf mpeProblems cfg.mpes ++
    problemsOf mmrProblems cfg.mmrs ++ problemsOf routerProblems cfg.routers ++ problemsOf linkProblems cfg.topology ++
    failing (topologyOk cfg cfg.topology) .topology

/-- The parameter for which a configuration is refused, if any (R9, R441 code 16, R445). Of several that are out of
range the spec names none first; which one the refusal names is a free value (notes/assumptions/21.md). -/
def configProblem (cfg : Config) : Option ConfigProblem :=
  match configProblems cfg with
  | [] => none
  | [p] => some p
  | p :: ps => some ((p :: ps).getD (Config.problemPick cfg % (ps.length + 1)) p)

/-- The refusal check of a running system's configuration. -/
def State.problem (s : State) : Option ConfigProblem := configProblem s.config

/-- Boot: the configuration is checked and refused, or the initialization hooks set the reset state (R485). -/
def State.boot? (cfg : Config) : Except Refusal State :=
  match configProblem cfg with
  | some p => .error (.config p)
  | none => .ok (State.boot cfg)

end Sys2Proof.Machine
end

