-- ==== Sys2Proof/Machine/Bytes.lean ====
section
/-! DEFINITION. Little-endian byte order (20_memory.md R82, 00_scope.md R13, R16). -/

namespace Sys2Proof.Machine

/-- The number a little-endian byte list spells, in 32 bits (`MemRead`, `f32_le`). -/
def leWord : List Byte → Word
  | [] => 0
  | b :: bs => b.setWidth 32 ||| (leWord bs <<< 8)

/-- The n low bytes of a word, least significant first (`MemWrite`, `le32`, `le_f32`). -/
def leBytes : Nat → Word → List Byte
  | 0, _ => []
  | n + 1, w => w.setWidth 8 :: leBytes n (w >>> 8)

end Sys2Proof.Machine
end

