-- ==== Sys2Proof/Machine/DelayQueue.lean ====
section
/-! DEFINITION. The delay queue and the busy discipline built on it (40_delay_queue.md R150 to R158, R163 to R167). -/

namespace Sys2Proof.Machine

/-- The ready cycle of the last item, if any. -/
def DelayQueue.lastReady {α : Type} (q : DelayQueue α) : Option Nat :=
  q.items.getLast?.map Prod.fst

/-- The chained policy (R151). -/
def DelayQueue.pushChained {α : Type} (q : DelayQueue α) (c d : Nat) (item : α) : DelayQueue α :=
  match q.lastReady with
  | none => { q with items := q.items ++ [(c + d, item)] }
  | some r => { q with items := q.items ++ [(r + d, item)] }

/-- The throughput-limited policy, read literally (R152): no component uses it (R154). -/
def DelayQueue.pushThrottled {α : Type} (q : DelayQueue α) (c d : Nat) (item : α) : DelayQueue α :=
  match q.lastReady with
  | none => ⟨q.items ++ [(max c q.nextAvail, item)], q.nextAvail + d⟩
  | some r => { q with items := q.items ++ [(r + d, item)] }

/-- Remove and return the head when it is ready (R153). -/
def DelayQueue.pop {α : Type} (q : DelayQueue α) (c : Nat) : Option α × DelayQueue α :=
  match q.items with
  | [] => (none, q)
  | (ready, item) :: rest => if ready ≤ c then (some item, { q with items := rest }) else (none, q)

/-- The completion half of a discipline's tick (R166): the request whose completion is due, and the discipline no
longer busy. -/
def Discipline.complete {α : Type} (d : Discipline α) (c : Nat) : Option (α × Discipline α) :=
  if d.busy then
    match d.doneq.pop c with
    | (some req, doneq) => some (req, { d with busy := false, doneq := doneq })
    | (none, _) => none
  else none

/-- The acceptance half of a discipline's tick, with latency L (R166). -/
def Discipline.accept {α : Type} (d : Discipline α) (c latency : Nat) : Discipline α :=
  if d.busy then d
  else
    match d.inq.pop c with
    | (some req, inq) => { busy := true, inq := inq, doneq := d.doneq.pushChained c latency req }
    | (none, _) => d

/-- Delivery of a request: plain FIFO by the chained policy with delay 0 (R162). -/
def Discipline.enqueue {α : Type} (d : Discipline α) (c : Nat) (req : α) : Discipline α :=
  { d with inq := d.inq.pushChained c 0 req }

end Sys2Proof.Machine
end

