-- ==== Sys2Proof/Machine/Ops.lean ====
section
/-! DEFINITION. The named operations over memory, registers, events and the fault record, and the shape of an
instruction's meaning: what it does in each of the four stages. -/

namespace Sys2Proof.Machine

/-! ## Events (R126) -/

def Event.opcode : Event → Word
  | .a op _ _ _ => op
  | .b op _ _ _ _ _ => op

def Event.dst : Event → Word
  | .a _ dst _ _ => dst
  | .b _ dst _ _ _ _ => dst

/-- An Event A has no src1; no router ever receives one (R126), and 0 stands for it. -/
def Event.src1 : Event → Word
  | .a _ _ _ _ => 0
  | .b _ _ s _ _ _ => s

/-- An Event A has no src2; no router ever receives one (R126), and 0 stands for it. -/
def Event.src2 : Event → Word
  | .a _ _ _ _ => 0
  | .b _ _ _ s _ _ => s

def Event.imm : Event → Word
  | .a _ _ imm _ => imm
  | .b _ _ _ _ imm _ => imm

def Event.payload : Event → List Byte
  | .a _ _ _ payload => payload
  | .b _ _ _ _ _ payload => payload

/-! ## Faults (R14, R442) -/

/-- `raise Fault(code, info)`: the ONE operation that takes a fault. It records the fault and changes nothing else;
`step` then discards the rest of the cycle and keeps the state the cycle began in (R442). There is no handler, no
saved pc, no mode change and no return from a fault (R443, R450), so no operation undoes it. -/
def State.raise (s : State) (f : FaultRecord) : State := { s with fault := some f }

/-! ## Data memory (R81 to R91) -/

/-- The byte listed at an address, if any. -/
def Memory.find : Memory → Nat → Option Byte
  | [], _ => none
  | (k, v) :: rest, a => if k = a then some v else Memory.find rest a

/-- What an address with nothing listed reads as: the byte of DMEM_IMAGE (R37, R480). -/
def imageByte (image : List Byte) (a : Nat) : Byte := image.getD a 0

/-- The byte at an address. -/
def Memory.read (image : List Byte) (m : Memory) (a : Nat) : Byte :=
  (Memory.find m a).getD (imageByte image a)

/-- The list without an address. -/
def Memory.erase (m : Memory) (a : Nat) : Memory := m.filter fun cell => cell.1 != a

/-- Put a cell where addresses keep rising. -/
def Memory.insert : Memory → Nat → Byte → Memory
  | [], a, v => [(a, v)]
  | (k, w) :: rest, a, v => if a < k then (a, v) :: (k, w) :: rest else (k, w) :: Memory.insert rest a v

/-- Write a byte, keeping the canonical form: a byte equal to the image's is not listed. -/
def Memory.write (image : List Byte) (m : Memory) (a : Nat) (v : Byte) : Memory :=
  if v = imageByte image a then Memory.erase m a else Memory.insert (Memory.erase m a) a v

/-- Write consecutive bytes, the first at the lowest address. -/
def Memory.writeList (image : List Byte) : Memory → Nat → List Byte → Memory
  | m, _, [] => m
  | m, a, v :: vs => Memory.writeList image (Memory.write image m a v) (a + 1) vs

/-- Read consecutive bytes. -/
def Memory.readList (image : List Byte) (m : Memory) (a : Nat) : Nat → List Byte
  | 0 => []
  | n + 1 => Memory.read image m a :: Memory.readList image m (a + 1) n

/-- The addresses of the list strictly rise. -/
def Memory.rising : Memory → Bool
  | [] => true
  | [_] => true
  | c :: d :: rest => decide (c.1 < d.1) && Memory.rising (d :: rest)

/-- The canonical form: addresses strictly rising, each inside the memory, no entry equal to what an unlisted address
reads as. -/
def Memory.wf (image : List Byte) (m : Memory) : Bool :=
  Memory.rising m && m.all fun cell => decide (cell.1 < image.length) && cell.2 != imageByte image cell.1

/-- DMEM_SIZE (R8). -/
def Core.dmemSize (c : Core) : Nat := c.cfg.dmemImage.length

/-- The byte of a core's data memory at an address. -/
def Core.byteAt (c : Core) (a : Nat) : Byte := Memory.read c.cfg.dmemImage c.dmem a

/-- The range check of an access of n bytes, the sum in Nat (R84). -/
def Core.inRange (c : Core) (a n : Nat) : Bool := decide (a + n ≤ c.dmemSize)

/-- `MemReadBytes` (R13, R84). -/
def Core.memRead (c : Core) (a n : Nat) : Except FaultRecord (List Byte) :=
  if c.inRange a n then .ok (Memory.readList c.cfg.dmemImage c.dmem a n)
  else .error ⟨.dmemRange, .address a⟩

/-- `MemWriteBytes` (R13, R84): the memory after the write. -/
def Core.memWrite (c : Core) (a : Nat) (bytes : List Byte) : Except FaultRecord Memory :=
  if c.inRange a bytes.length then .ok (Memory.writeList c.cfg.dmemImage c.dmem a bytes)
  else .error ⟨.dmemRange, .address a⟩

/-- `MemRead` for n in 1 and 4 (R13): little-endian, widened with zeros. -/
def Core.memReadWord (c : Core) (a n : Nat) : Except FaultRecord Word :=
  match c.memRead a n with
  | .ok bytes => .ok (leWord bytes)
  | .error f => .error f

/-! ## Registers (R12, R35, R36) -/

/-- Read register r of a file; decode has checked that r is below 32 (R112). -/
def Core.readReg (c : Core) : RegFile → Word → Word
  | .x, r => c.x[r.toNat]?.getD 0
  | .f, r => c.f[r.toNat]?.getD 0

/-- Write register r of a file; no register is hard-wired (R35, R36). -/
def Core.writeReg (c : Core) : RegFile → Word → Word → Core
  | .x, r, v => { c with x := c.x.setIfInBounds r.toNat v }
  | .f, r, v => { c with f := c.f.setIfInBounds r.toNat v }

/-! ## The shape of a meaning -/

/-- What a stage sees beside its core: the modes and the core's number. -/
structure StageEnv where
  modes : Modes
  index : Nat
deriving DecidableEq, Repr

/-- What a stage leaves: the core, the events it sends, and whether it ends the tick (R204). -/
structure StageOut where
  core : Core
  sends : List (CorePort × Event) := []
  tickEnded : Bool := false
deriving DecidableEq, Repr

/-- What an instruction does in one stage. -/
abbrev StageFn := StageEnv → Core → Except FaultRecord StageOut

/-- A stage hands its instruction on to the memory stage's register (R192). -/
def Core.toMemory (c : Core) (out : Latch) : Core :=
  { c with mr := { out with update := true }, er := { c.er with update := false }, actE := c.actE + 1 }

/-- A stage hands its instruction on to the writeback stage's register (R192). -/
def Core.toWriteback (c : Core) (out : Latch) : Core :=
  { c with wr := { out with update := true }, mr := { c.mr with update := false }, actM := c.actM + 1 }

/-- Writeback empties its register (R190). -/
def Core.retire (c : Core) : Core :=
  { c with wr := { c.wr with update := false }, actW := c.actW + 1 }

/-- An execute stage that computes result fields of the latch (R197). -/
def executeStage (compute : StageEnv → Latch → Except FaultRecord Latch) : StageFn := fun env c =>
  match compute env c.er with
  | .ok out => .ok { core := c.toMemory out }
  | .error f => .error f

/-- An execute stage that passes the latch through (R197). -/
def executePass : StageFn := executeStage fun _ er => .ok er

/-- A memory stage that computes result fields of the latch from data memory (R200). -/
def loadStage (compute : Core → Latch → Except FaultRecord Latch) : StageFn := fun _ c =>
  match compute c c.mr with
  | .ok out => .ok { core := c.toWriteback out }
  | .error f => .error f

/-- A memory stage that passes the latch through (R200). -/
def memoryPass : StageFn := loadStage fun _ mr => .ok mr

/-- A memory stage that writes bytes at the address the latch gives (R200). -/
def storeStage (address : Latch → Word) (bytes : Latch → List Byte) : StageFn := fun _ c =>
  match c.memWrite (address c.mr).toNat (bytes c.mr) with
  | .ok m => .ok { core := { c with dmem := m }.toWriteback c.mr }
  | .error f => .error f

/-- A writeback stage with the given action (R198). -/
def writebackStage (action : Core → Core) : StageFn := fun _ c =>
  .ok { core := (action c).retire }

/-- A writeback stage that does nothing (R198). -/
def writebackNothing : StageFn := writebackStage id

/-- An instruction's meaning: what it does in each stage. A stage not named passes the instruction through. -/
structure Stages where
  decode : StageFn
  execute : StageFn := executePass
  memory : StageFn := memoryPass
  writeback : StageFn := writebackNothing

/-- The stage's function. -/
def Stages.fn (m : Stages) : Stage → StageFn
  | .decode => m.decode
  | .execute => m.execute
  | .memory => m.memory
  | .writeback => m.writeback

/-! ## Sending (R160) -/

/-- Put an event on the link that leaves an output port, due LINK_LATENCY cycles on; with no such link it is
discarded (R160). -/
def sendOn (c : Nat) (port : OutPort) (ev : Event) : List Link → List Link
  | [] => []
  | l :: ls =>
    if l.cfg.src = port then { l with queue := l.queue ++ [(c + l.cfg.latency, ev)] } :: ls
    else l :: sendOn c port ev ls

/-- Send one event in the current cycle. -/
def State.send (s : State) (port : OutPort) (ev : Event) : State :=
  { s with links := sendOn s.cycle port ev s.links }

/-- Send events in order. -/
def State.sendAll (s : State) : List (OutPort × Event) → State
  | [] => s
  | (port, ev) :: rest => (s.send port ev).sendAll rest

/-! ## Running a stage of the core in focus -/

/-- The system with the focus on a stage of a core. -/
def State.focusOn (s : State) (k : Nat) (st : Stage) : State :=
  { s with focus := { s.focus with core := k, stage := st } }

/-- Replace a core. -/
def State.putCore (s : State) (k : Nat) (c : Core) : State := { s with cores := s.cores.set k c }

/-- Mark that a taken branch has ended the tick (R204). -/
def State.endTick (s : State) (ended : Bool) : State :=
  { s with focus := { s.focus with tickEnded := s.focus.tickEnded || ended } }

/-- The events a core sends, each with its output port. -/
def coreSends (k : Nat) (evs : List (CorePort × Event)) : List (OutPort × Event) :=
  evs.map fun (e : CorePort × Event) => (OutPort.core k e.1, e.2)

/-- Put a stage's result into the system: the core, the end of the tick, the events. -/
def State.commit (s : State) (o : StageOut) : State :=
  ((s.putCore s.focus.core o.core).endTick o.tickEnded).sendAll (coreSends s.focus.core o.sends)

/-- Run what a meaning does in the stage in focus, on the core in focus. A fault is recorded (R442). -/
def runStages (m : Stages) (s : State) : Host.Outcome State Fault Refusal :=
  match s.cores[s.focus.core]? with
  | none => .refused .noSuchCore
  | some c =>
    match m.fn s.focus.stage ⟨s.modes, s.focus.core⟩ c with
    | .ok o => .next (s.commit o)
    | .error f => .next (s.raise f)

end Sys2Proof.Machine
end

