-- ==== Sys2Proof/Machine/Cam.lean ====
section
/-! DEFINITION. The CAM array: query latch, match, energy, commands and tick (45_cam.md). -/

namespace Sys2Proof.Machine

/-- The output of a device copies the command's header (R334, R362, R392). -/
def replyTo (req : Event) (payload : List Byte) : Event := .a req.opcode req.dst req.imm payload

/-- The query latch: 2C bytes, the data then one mask byte per column, non-zero marking it active (R331). -/
def Cam.latchQuery (cam : Cam) (q : List Byte) : Except FaultRecord Cam :=
  if q.length = 2 * cam.cfg.nCols then
    .ok { cam with query := some (q.take cam.cfg.nCols, (q.drop cam.cfg.nCols).map fun b => b != 0) }
  else .error ⟨.deviceData, .data .cam (some q.length)⟩

/-- The column test (R332): low < d ≤ high, a don't-care bound being no bound. -/
def cellPasses (cell : CamCell) (d : Byte) : Bool :=
  (cell.lowX || decide (cell.low < d)) && (cell.highX || decide (d ≤ cell.high))

/-- The row test: every active column passes (R333). -/
def rowMatches : List CamCell → List Byte → List Bool → Bool
  | cell :: cells, d :: ds, active :: mask => (!active || cellPasses cell d) && rowMatches cells ds mask
  | _, _, _ => true

/-- The match vector, row 0 first (R334). -/
def Cam.matchVector (cam : Cam) (data : List Byte) (mask : List Bool) : List Byte :=
  cam.rows.map fun row => if rowMatches row data mask then 1 else 0

/-- NIBBLE_ENERGY of a threshold byte's two nibbles (R340). -/
def Cam.byteLeak (cam : Cam) (b : Byte) : Rat :=
  cam.cfg.nibbleEnergy[b.toNat / 16]?.getD 0 + cam.cfg.nibbleEnergy[b.toNat % 16]?.getD 0

/-- The leakage of one cell's two thresholds (R340). -/
def Cam.cellLeak (cam : Cam) (cell : CamCell) : Rat := cam.byteLeak cell.low + cam.byteLeak cell.high

/-- The leakage of every cell, inactive columns and don't-care thresholds included (R340). -/
def Cam.totalLeak (cam : Cam) : Rat := (cam.rows.map fun row => (row.map cam.cellLeak).sum).sum

/-- `search_energy(mask)` (R340). -/
def Cam.searchEnergy (cam : Cam) (mask : List Bool) : Cam :=
  let r : Rat := cam.cfg.nRows
  let a : Rat := mask.count true
  { cam with
    eLeak := cam.eLeak + cam.totalLeak
    eCd := cam.eCd + cam.cfg.kCd * a
    eSa := cam.eSa + cam.cfg.kSa * r
    ePc := cam.ePc + cam.cfg.kPc * r
    eCell := cam.eCell + cam.cfg.kCell * r * a
    eReg := cam.eReg + cam.cfg.kReg * r }

/-- The precharge command (R335). -/
def Cam.precharge (cam : Cam) : Cam := { cam with ePc := cam.ePc + cam.cfg.kPc * cam.cfg.nRows }

/-- A CAM command at its completion (R330, R334, R335): the CAM and the event for its `out` port, if any. -/
def Cam.perform (cam : Cam) (req : Event) : Except FaultRecord (Cam × Option Event) :=
  match req.imm.toNat with
  | 0 => .ok (cam.precharge, none)
  | 1 =>
    match cam.query with
    | none => .error ⟨.deviceData, .data .cam none⟩
    | some (data, mask) => .ok (cam.searchEnergy mask, some (replyTo req (cam.matchVector data mask)))
  | _ => .error ⟨.deviceSubop, .subop .cam req.imm⟩

/-- Accept the next request (R166). -/
def Cam.accept (cam : Cam) (c : Nat) : Cam := { cam with disc := cam.disc.accept c cam.cfg.latency }

/-- The CAM's tick (R166). -/
def Cam.tick (cam : Cam) (c : Nat) : Except FaultRecord (Cam × Option Event) :=
  match cam.disc.complete c with
  | none => .ok (cam.accept c, none)
  | some (req, d) =>
    match Cam.perform { cam with disc := d } req with
    | .ok (cam', out) => .ok (cam'.accept c, out)
    | .error f => .error f

/-- The teardown hook after T cycles: the static energy term (R345). -/
def Cam.teardown (cam : Cam) (cycles : Nat) : Cam :=
  { cam with eStatic :=
      cam.eStatic + cam.cfg.pStaticReg * (cycles / cam.cfg.fClk) * cam.cfg.nRows * cam.cfg.nCols }

end Sys2Proof.Machine
end

