-- ==== Sys2Proof/Machine/Mmr.lean ====
section
/-! DEFINITION. The match register: data latch, extraction and tick (47_mmr.md). -/

namespace Sys2Proof.Machine

/-- MMR_K, the index slots per half (R8, R393). -/
def mmrSlots : Nat := 8

/-- The data latch: 2R bytes, the positive half first (R391, 90_conflicts.md C10). -/
def Mmr.latchHalves (mmr : Mmr) (v : List Byte) : Except FaultRecord Mmr :=
  if v.length = 2 * mmr.cfg.nRows then
    .ok { mmr with pos := some (v.take mmr.cfg.nRows), neg := some (v.drop mmr.cfg.nRows) }
  else .error ⟨.deviceData, .data .mmr (some v.length)⟩

/-- The destructive scan with a number of slots left: each records and clears the first set entry; with none left
the remaining slots hold the sentinel 255 (R393). -/
def scanSlots : Nat → List Byte → List Byte × List Byte
  | 0, v => ([], v)
  | k + 1, v =>
    match v.findIdx? fun b => b != 0 with
    | none => (List.replicate (k + 1) 255, v)
    | some i =>
      let rest := scanSlots k (v.set i 0)
      (BitVec.ofNat 8 i :: rest.1, rest.2)

/-- `scan(V)` (R393). -/
def scan (v : List Byte) : List Byte × List Byte := scanSlots mmrSlots v

/-- An MMR command at its completion (R390, R392). -/
def Mmr.perform (mmr : Mmr) (req : Event) : Except FaultRecord (Mmr × Option Event) :=
  match req.imm.toNat with
  | 0 =>
    match mmr.pos, mmr.neg with
    | some p, some n =>
      .ok ({ mmr with pos := some (scan p).2, neg := some (scan n).2 },
           some (replyTo req ((scan p).1 ++ (scan n).1)))
    | _, _ => .error ⟨.deviceData, .data .mmr none⟩
  | _ => .error ⟨.deviceSubop, .subop .mmr req.imm⟩

/-- Accept the next request (R166). -/
def Mmr.accept (mmr : Mmr) (c : Nat) : Mmr := { mmr with disc := mmr.disc.accept c mmr.cfg.latency }

/-- The MMR's tick (R166). -/
def Mmr.tick (mmr : Mmr) (c : Nat) : Except FaultRecord (Mmr × Option Event) :=
  match mmr.disc.complete c with
  | none => .ok (mmr.accept c, none)
  | some (req, d) =>
    match Mmr.perform { mmr with disc := d } req with
    | .ok (mmr', out) => .ok (mmr'.accept c, out)
    | .error f => .error f

end Sys2Proof.Machine
end

