-- ==== Sys2Proof/Machine/Mpe.lean ====
section
/-! DEFINITION. The match-processing element: data latch, the six commands and tick (46_mpe.md). -/

namespace Sys2Proof.Machine

/-- The MPE's two output ports (40_delay_queue.md R159). -/
inductive MpePort where
  | resp | out
deriving DecidableEq, Repr

/-- Command 0 on one row (R363): t and b are unchanged. -/
def MpeRow.reset (r : MpeRow) : MpeRow := { r with n := 0, s := 0, p := 1, up := 1, down := 1 }

/-- Command 3 on one row, bytes modulo 256 (R366). -/
def MpeRow.update (r : MpeRow) : MpeRow :=
  { r with
    n := r.n + ((r.t ^^^ r.b) &&& 1)
    s := r.s + ((r.t &&& ~~~r.b) &&& 1)
    p := r.p * ((r.t ||| r.b) &&& 1) }

/-- Command 4's byte of one row (R367). -/
def MpeRow.packed (r : MpeRow) : Byte := ((r.n &&& 7) <<< 3) ||| (r.s &&& 7)

/-- Command 5 on a row that is not the last (R368). -/
def MpeRow.decide (r : MpeRow) : MpeRow :=
  { r with up := r.t &&& ~~~r.b &&& r.p, down := ~~~r.t &&& r.b &&& r.p }

/-- Command 5 on the last row, the sentinel (R368). -/
def MpeRow.sentinel (r : MpeRow) : MpeRow := { r with up := 1, down := 1 }

/-- Command 5 on all rows (R368). -/
def decideRows : List MpeRow → List MpeRow
  | [] => []
  | [r] => [r.sentinel]
  | r :: r' :: rs => r.decide :: decideRows (r' :: rs)

/-- The payload commands 1 and 2 load: MPE_ROWS bytes, or a fault (R364, R365). -/
def Mpe.loadData (mpe : Mpe) : Except FaultRecord (List Byte) :=
  match mpe.data with
  | none => .error ⟨.deviceData, .data .mpe none⟩
  | some d =>
    if d.length = mpe.cfg.nRows then .ok d else .error ⟨.deviceData, .data .mpe (some d.length)⟩

/-- The MPE with its rows replaced. -/
def Mpe.withRows (mpe : Mpe) (rows : List MpeRow) : Mpe := { mpe with rows := rows }

/-- An MPE command at its completion (R360, R363 to R368): the MPE and what it sends, if anything. -/
def Mpe.perform (mpe : Mpe) (req : Event) : Except FaultRecord (Mpe × Option (MpePort × Event)) :=
  match req.imm.toNat with
  | 0 => .ok (mpe.withRows (mpe.rows.map MpeRow.reset), none)
  | 1 =>
    match mpe.loadData with
    | .ok d => .ok (mpe.withRows (mpe.rows.zipWith (fun (r : MpeRow) v => { r with t := v }) d), none)
    | .error f => .error f
  | 2 =>
    match mpe.loadData with
    | .ok d => .ok (mpe.withRows (mpe.rows.zipWith (fun (r : MpeRow) v => { r with b := v }) d), none)
    | .error f => .error f
  | 3 => .ok (mpe.withRows (mpe.rows.map MpeRow.update), none)
  | 4 => .ok (mpe, some (.resp, replyTo req (mpe.rows.map MpeRow.packed)))
  | 5 =>
    let rows := decideRows mpe.rows
    .ok (mpe.withRows rows, some (.out, replyTo req (rows.map MpeRow.up ++ rows.map MpeRow.down)))
  | _ => .error ⟨.deviceSubop, .subop .mpe req.imm⟩

/-- Accept the next request (R166). -/
def Mpe.accept (mpe : Mpe) (c : Nat) : Mpe := { mpe with disc := mpe.disc.accept c mpe.cfg.latency }

/-- The MPE's tick (R166). -/
def Mpe.tick (mpe : Mpe) (c : Nat) : Except FaultRecord (Mpe × Option (MpePort × Event)) :=
  match mpe.disc.complete c with
  | none => .ok (mpe.accept c, none)
  | some (req, d) =>
    match Mpe.perform { mpe with disc := d } req with
    | .ok (mpe', out) => .ok (mpe'.accept c, out)
    | .error f => .error f

end Sys2Proof.Machine
end

