-- ==== Sys2Proof/Machine/Receive.lean ====
section
/-! DEFINITION. The core's inbound receive (44_device_ops.md R316 to R319). -/

namespace Sys2Proof.Machine

/-- The buffer the selector byte chooses (R318). -/
def Core.rxBuffer (c : Core) (g : RxRegion) : Nat :=
  if (c.byteAt g.selAddr).getLsbD 0 then g.buf1 else g.buf0

/-- `rx_store(p, ev)`: the payload into the selected buffer, then the flag byte set to 1 (R318). A port the core does
not have stores nothing; no link leads to one (R159, notes/assumptions/11.md). -/
def Core.rxStore (c : Core) (p : Nat) (ev : Event) : Except FaultRecord Core :=
  match c.cfg.rxRegions[p]? with
  | none => .ok c
  | some g =>
    if ev.payload.length ≤ g.bufSize then
      match c.memWrite (c.rxBuffer g) ev.payload with
      | .error f => .error f
      | .ok m =>
        match Core.memWrite { c with dmem := m } g.flagAddr [1] with
        | .error f => .error f
        | .ok m' => .ok { c with dmem := m' }
    else .error ⟨.rxOverflow, .rx p ev.payload.length⟩

/-- Accept the next inbound event (R317). -/
def Core.rxAccept (c : Core) (cycle : Nat) : Core := { c with rx := c.rx.accept cycle c.cfg.rxLatency }

/-- The receive step, first of every core tick (R317). -/
def Core.rxStep (c : Core) (cycle : Nat) : Except FaultRecord Core :=
  match c.rx.complete cycle with
  | none => .ok (c.rxAccept cycle)
  | some ((p, ev), d) =>
    match Core.rxStore { c with rx := d } p ev with
    | .error f => .error f
    | .ok c' => .ok (c'.rxAccept cycle)

end Sys2Proof.Machine
end

