-- ==== Sys2Proof/Machine/Binary32.lean ====
section
/-! DEFINITION. IEEE-754 binary32 arithmetic, round to nearest ties to even, subnormals kept, no flags
(43_float.md R270 to R273), and the FP8 micro-format (30_encoding.md R130 to R132). A finite number is a sign and a
magnitude counted in units of 2^-149; a result that is a NaN is `none` (the caller draws its pattern). -/

namespace Sys2Proof.Machine

/-- The sign bit (R129). -/
def f32Sign (w : Word) : Bool := w.getLsbD 31

/-- The biased exponent field (R129). -/
def f32Exp (w : Word) : Nat := w.toNat / 2 ^ 23 % 256

/-- The fraction field (R129). -/
def f32Frac (w : Word) : Nat := w.toNat % 2 ^ 23

/-- The pattern is a NaN: exponent 255, fraction non-zero (R273). -/
def isNaN (w : Word) : Bool := f32Exp w == 255 && f32Frac w != 0

/-- The pattern is an infinity. -/
def isInf (w : Word) : Bool := f32Exp w == 255 && f32Frac w == 0

/-- The magnitude of a finite pattern in units of 2^-149. -/
def f32Mag (w : Word) : Nat :=
  if f32Exp w = 0 then f32Frac w else (2 ^ 23 + f32Frac w) * 2 ^ (f32Exp w - 1)

/-- The value of a finite pattern in units of 2^-149. -/
def f32Value (w : Word) : Int :=
  if f32Sign w then -(f32Mag w : Int) else (f32Mag w : Int)

/-- m / 2^k to the nearest integer, ties to even (R270). -/
def roundShift (m k : Nat) : Nat :=
  let q := m / 2 ^ k
  let r := m % 2 ^ k
  if 2 * r < 2 ^ k then q
  else if 2 ^ k < 2 * r then q + 1
  else if k = 0 then q
  else q + q % 2

/-- The pattern of infinity without its sign. -/
def infBits : Nat := 0x7F800000

/-- The magnitude bits nearest to m / 2^s units of 2^-149: the number of low bits to round away is s, or as many
more as leave 24 significant bits; a magnitude past the largest finite number is infinity (R270). -/
def roundMag (m s : Nat) : Nat :=
  let extra := (m / 2 ^ s).log2 - 23
  let bits := roundShift m (s + extra) + extra * 2 ^ 23
  if bits < infBits then bits else infBits

/-- A pattern from a sign and magnitude bits. -/
def f32Pack (neg : Bool) (bits : Nat) : Word :=
  BitVec.ofNat 32 (if neg then 2 ^ 31 + bits else bits)

/-- The pattern with its sign flipped. -/
def f32Neg (w : Word) : Word := w ^^^ 0x80000000

/-- `f32_add` (R270); `none` when the result is a NaN. -/
def f32Add (a b : Word) : Option Word :=
  if isNaN a || isNaN b then none
  else if isInf a then if isInf b && f32Sign a != f32Sign b then none else some a
  else if isInf b then some b
  else
    let v := f32Value a + f32Value b
    let neg := if v = 0 then f32Sign a && f32Sign b else decide (v < 0)
    some (f32Pack neg (roundMag v.natAbs 0))

/-- `f32_sub` (R270): a + (-b), which is the same real number, zero and infinity for every b that is no NaN. -/
def f32Sub (a b : Word) : Option Word :=
  if isNaN a || isNaN b then none else f32Add a (f32Neg b)

/-- `f32_mul` (R270); `none` when the result is a NaN. -/
def f32Mul (a b : Word) : Option Word :=
  let neg := f32Sign a != f32Sign b
  if isNaN a || isNaN b then none
  else if isInf a || isInf b then
    if (isInf a && f32Mag b == 0) || (isInf b && f32Mag a == 0) then none
    else some (f32Pack neg infBits)
  else some (f32Pack neg (roundMag (f32Mag a * f32Mag b) 149))

/-- The NaN pattern a raw draw stands for: exponent 255 and a fraction that is not zero; every NaN pattern stands for
itself (R273). -/
def nanPattern (raw : Word) : Word :=
  let w := raw ||| 0x7F800000
  if w &&& 0x007FFFFF = 0 then w ||| 1 else w

/-! ## FP8 -/

/-- The magnitude of an FP8 byte in units of 2^-9 (R132). -/
def fp8Mag (v : Byte) : Nat :=
  let e := v.toNat / 8 % 16
  let m := v.toNat % 8
  if e = 0 then m else (8 + m) * 2 ^ (e - 1)

/-- `fp8_to_f32` (R132): exact, byte 0x80 being -0.0. -/
def fp8ToF32 (v : Byte) : Word :=
  f32Pack (v.getLsbD 7) (roundMag (fp8Mag v * 2 ^ 140) 0)

/-- Lane i of a packed value: bits 8i+7 down to 8i (R280). -/
def fp8Lane (w : Word) (i : Nat) : Byte := (w >>> (8 * i)).setWidth 8

/-- The product of lane i of two packed values (R280). -/
def fp8Product (a b : Word) (i : Nat) : Option Word :=
  f32Mul (fp8ToF32 (fp8Lane a i)) (fp8ToF32 (fp8Lane b i))

/-- The packed FP8 multiply-accumulate: the four lane products summed left to right (R280). -/
def fmac8 (a b : Word) : Option Word :=
  match fp8Product a b 0, fp8Product a b 1, fp8Product a b 2, fp8Product a b 3 with
  | some p0, some p1, some p2, some p3 =>
    match f32Add p0 p1 with
    | none => none
    | some s01 =>
      match f32Add s01 p2 with
      | none => none
      | some s012 => f32Add s012 p3
  | _, _, _, _ => none

end Sys2Proof.Machine
end

