-- ==== Sys2Proof/Machine/Router.lean ====
section
/-! DEFINITION. The tree router: scan, grouping, aggregation, broadcast and tick (48_router.md). -/

namespace Sys2Proof.Machine

/-- A router's output ports. -/
inductive RouterPort where
  | childDown (k : Nat) | parentUp
deriving DecidableEq, Repr

/-! ## The upward scan -/

/-- The scan list: the head of each child's FIFO, in child order (R412). -/
def Router.scanList (r : Router) : List Event := r.childIn.filterMap List.head?

/-- A group opened by an event: its header, its tag, its payload (R413). -/
def groupOf (e : Event) : AggRequest := ⟨e.opcode, e.dst, e.src1, e.src2, e.imm, e.payload⟩

/-- A group grown by an event's payload (R413). -/
def AggRequest.grow (g : AggRequest) (e : Event) : AggRequest := { g with buf := g.buf ++ e.payload }

/-- Put an event into the last group when the tags agree, else open one (R413). -/
def addAdjacent (e : Event) : List AggRequest → List AggRequest
  | [] => [groupOf e]
  | [g] => if g.tag = e.imm then [g.grow e] else [g, groupOf e]
  | g :: g' :: gs => g :: addAdjacent e (g' :: gs)

/-- Put an event into the group of its tag, else open one at the end (R414). -/
def addByTag (e : Event) : List AggRequest → List AggRequest
  | [] => [groupOf e]
  | g :: gs => if g.tag = e.imm then g.grow e :: gs else g :: addByTag e gs

/-- The groups of a scan list (R413, R414, 90_conflicts.md C3). -/
def groupScan (mode : RouterGrouping) (events : List Event) : List AggRequest :=
  match mode with
  | .adjacent => events.foldl (fun groups e => addAdjacent e groups) []
  | .byTag => events.foldl (fun groups e => addByTag e groups) []

/-- The scan of one tick: heads taken, groups pushed on `upq` with delay 0 (R412, R413). -/
def Router.scanTick (mode : RouterGrouping) (r : Router) (c : Nat) : Router :=
  { r with
    childIn := r.childIn.map List.tail
    up := (groupScan mode r.scanList).foldl (fun d g => d.enqueue c g) r.up }

/-! ## Aggregation and broadcast -/

/-- The 4-byte words of a buffer (R416). -/
def wordsOf : List Byte → List Word
  | b0 :: b1 :: b2 :: b3 :: rest => leWord [b0, b1, b2, b3] :: wordsOf rest
  | _ => []

/-- The left-to-right binary32 sum from an accumulator, drawing a pattern for each NaN result; with it the number of
patterns drawn so far (R416, 43_float.md R273). -/
def sumWords (drawer : NanDrawer) : Word → Nat → List Word → Word × Nat
  | acc, draws, [] => (acc, draws)
  | acc, draws, w :: ws =>
    match f32Add acc w with
    | some v => sumWords drawer v draws ws
    | none => sumWords drawer (nanPattern (Config.nanDraw drawer draws)) (draws + 1) ws

/-- `aggregate(g)` (R416). -/
def Router.aggregate (j : Nat) (r : Router) (g : AggRequest) :
    Except FaultRecord (Router × List (RouterPort × Event)) :=
  if g.buf.length % 4 = 0 then
    let total := sumWords (.router j) 0 r.nanDraws (wordsOf g.buf)
    .ok ({ r with nanDraws := total.2 },
         [(.parentUp, .b g.opcode g.dst g.src1 g.src2 g.tag (leBytes 4 total.1))])
  else .error ⟨.routerPayload, .router g.tag g.buf.length⟩

/-- `broadcast(ev)`: the event unchanged on every child port (R421). -/
def Router.broadcast (r : Router) (ev : Event) : List (RouterPort × Event) :=
  (List.range r.cfg.nChildren).map fun k => (.childDown k, ev)

/-! ## The tick (R422) -/

/-- Upward completion (R415, R422 step 1). -/
def Router.upComplete (j : Nat) (r : Router) (c : Nat) :
    Except FaultRecord (Router × List (RouterPort × Event)) :=
  match r.up.complete c with
  | none => .ok (r, [])
  | some (g, d) => Router.aggregate j { r with up := d } g

/-- Downward completion (R421, R422 step 4). -/
def Router.downComplete (r : Router) (c : Nat) : Router × List (RouterPort × Event) :=
  match r.down.complete c with
  | none => (r, [])
  | some (ev, d) => ({ r with down := d }, r.broadcast ev)

/-- Upward acceptance (R422 step 3). -/
def Router.upAccept (r : Router) (c : Nat) : Router := { r with up := r.up.accept c r.cfg.latencyUp }

/-- Downward acceptance (R422 step 5). -/
def Router.downAccept (r : Router) (c : Nat) : Router := { r with down := r.down.accept c r.cfg.latencyDown }

/-- The router's tick: upward completion, scan, upward acceptance, downward completion, downward acceptance (R422). -/
def Router.tick (mode : RouterGrouping) (j : Nat) (r : Router) (c : Nat) :
    Except FaultRecord (Router × List (RouterPort × Event)) :=
  match Router.upComplete j r c with
  | .error f => .error f
  | .ok (r1, upSends) =>
    let r2 := Router.downComplete ((Router.scanTick mode r1 c).upAccept c) c
    .ok (r2.1.downAccept c, upSends ++ r2.2)

end Sys2Proof.Machine
end

