-- ==== Sys2Proof/Machine/Deliver.lean ====
section
/-! DEFINITION. Delivery of due events to the handlers of their input ports (40_delay_queue.md R161, R162). -/

namespace Sys2Proof.Machine

def State.putCam (s : State) (j : Nat) (cam : Cam) : State := { s with cams := s.cams.set j cam }

def State.putMpe (s : State) (j : Nat) (mpe : Mpe) : State := { s with mpes := s.mpes.set j mpe }

def State.putMmr (s : State) (j : Nat) (mmr : Mmr) : State := { s with mmrs := s.mmrs.set j mmr }

def State.putRouter (s : State) (j : Nat) (r : Router) : State := { s with routers := s.routers.set j r }

/-- The CAM's data handler (R331). -/
def deliverCamData (j : Nat) (ev : Event) (s : State) : Except FaultRecord State :=
  match s.cams[j]? with
  | none => .ok s
  | some cam =>
    match cam.latchQuery ev.payload with
    | .ok cam' => .ok (s.putCam j cam')
    | .error f => .error f

/-- The MMR's data handler (R391). -/
def deliverMmrData (j : Nat) (ev : Event) (s : State) : Except FaultRecord State :=
  match s.mmrs[j]? with
  | none => .ok s
  | some mmr =>
    match mmr.latchHalves ev.payload with
    | .ok mmr' => .ok (s.putMmr j mmr')
    | .error f => .error f

/-- The MPE's data handler (R361). -/
def Mpe.latchData (mpe : Mpe) (payload : List Byte) : Mpe := { mpe with data := some payload }

/-- The router's handler of a child's event (R411). -/
def Router.receiveUp (r : Router) (k : Nat) (ev : Event) : Router :=
  { r with childIn := r.childIn.modify k fun q => q ++ [ev] }

/-- The handler of an input port, in the current cycle (R162). A port no component has takes nothing; no link leads
to one (notes/assumptions/11.md). -/
def deliverOne (dst : InPort) (ev : Event) (s : State) : Except FaultRecord State :=
  match dst with
  | .rx k p => match s.cores[k]? with
    | none => .ok s
    | some c => .ok (s.putCore k { c with rx := c.rx.enqueue s.cycle (p, ev) })
  | .camReq j => match s.cams[j]? with
    | none => .ok s
    | some cam => .ok (s.putCam j { cam with disc := cam.disc.enqueue s.cycle ev })
  | .camData j => deliverCamData j ev s
  | .mpeReq j => match s.mpes[j]? with
    | none => .ok s
    | some mpe => .ok (s.putMpe j { mpe with disc := mpe.disc.enqueue s.cycle ev })
  | .mpeData j => match s.mpes[j]? with
    | none => .ok s
    | some mpe => .ok (s.putMpe j (mpe.latchData ev.payload))
  | .mmrReq j => match s.mmrs[j]? with
    | none => .ok s
    | some mmr => .ok (s.putMmr j { mmr with disc := mmr.disc.enqueue s.cycle ev })
  | .mmrData j => deliverMmrData j ev s
  | .childUp r k => match s.routers[r]? with
    | none => .ok s
    | some router => .ok (s.putRouter r (router.receiveUp k ev))
  | .parentDown r => match s.routers[r]? with
    | none => .ok s
    | some router => .ok (s.putRouter r { router with down := router.down.enqueue s.cycle ev })

/-- The events of a link due in a cycle, in FIFO order (R161). -/
def Link.due (l : Link) (c : Nat) : List Event :=
  (l.queue.filter fun e => decide (e.1 ≤ c)).map Prod.snd

/-- The link without the events due in a cycle (R161). -/
def Link.keep (l : Link) (c : Nat) : Link :=
  { l with queue := l.queue.filter fun e => !decide (e.1 ≤ c) }

/-- Hand a link's due events to their handler, in order. -/
def deliverEvents (dst : InPort) : List Event → State → Except FaultRecord State
  | [], s => .ok s
  | ev :: evs, s =>
    match deliverOne dst ev s with
    | .ok s' => deliverEvents dst evs s'
    | .error f => .error f

/-- The elements of a list in the order a run of choices takes them out. -/
def pickOrder {α : Type} (pick : Nat → Nat) : Nat → List α → List α
  | n + 1, x :: xs =>
    let i := pick n % (xs.length + 1)
    (x :: xs).getD i x :: pickOrder pick n ((x :: xs).eraseIdx i)
  | _, _ => []

/-- The order in which the host hands over the links that have events due: of several, the host's choice, a free
value (R161). It shows only where two links lead to ports of one core (notes/assumptions/18.md). -/
def hostOrder (cycle : Nat) : List Link → List Link
  | [] => []
  | [l] => [l]
  | l :: l' :: ls => pickOrder (Config.linkPick cycle) (ls.length + 2) (l :: l' :: ls)

/-- The links with events due. -/
def State.dueLinks (s : State) : List Link := s.links.filter fun l => !(l.due s.cycle).isEmpty

/-- Deliver the due events of each link. Whether a link faults does not depend on the others, so a link that faults is
left out and the others go on: the faults are those any order of the links could record first (R448). -/
def deliverLinks : List Link → State → List FaultRecord × State
  | [], s => ([], s)
  | l :: ls, s =>
    match deliverEvents l.cfg.dst (l.due s.cycle) s with
    | .ok s' => deliverLinks ls s'
    | .error f =>
      let rest := deliverLinks ls s
      (f :: rest.1, rest.2)

/-- Step (1) of the host step (R161, R168): the faults raised, and the system with every due event delivered. -/
def State.deliver (s : State) : List FaultRecord × State :=
  deliverLinks (hostOrder s.cycle s.dueLinks) { s with links := s.links.map fun l => l.keep s.cycle }

end Sys2Proof.Machine
end

