-- ==== Sys2Proof/Machine/Flags.lean ====
section
/-! DEFINITION. The core has no condition codes (10_state.md R45). What stands here is the control state a class
writes or waits for: which file it writes, pending writes (41_pipeline.md R211), and the pipeline reset of a taken
branch (R202). -/

namespace Sys2Proof

/-- The register file a class writes at `rd` (41_pipeline.md R198, R211). -/
def InstrClass.dest : InstrClass → Option Machine.RegFile
  | .load => some .x
  | .opimm => some .x
  | .op => some .x
  | .lui => some .x
  | .fload => some .f
  | .fop => some .f
  | .copy => none
  | .store => none
  | .fstore => none
  | .branch => none
  | .ret => none
  | .custom => none

namespace Machine

/-- The latch holds an instruction that will write register r of a file (R211). -/
def Latch.writes (l : Latch) (file : RegFile) (r : Word) : Bool :=
  l.update && decide (l.cls.dest = some file) && decide (l.rd = r)

/-- An older instruction in ER, MR or WR will write register r of a file (R211). -/
def Core.pendingWrite (c : Core) (file : RegFile) (r : Word) : Bool :=
  c.er.writes file r || c.mr.writes file r || c.wr.writes file r

/-- WR holds a register write or a return, which a flush of all registers would discard (R202). -/
def Core.flushLoses (c : Core) : Bool :=
  c.wr.update && (c.wr.cls.dest.isSome || decide (c.wr.cls = .ret))

/-- `resetPipeline(target)` (R202). -/
def Core.resetPipeline (m : Modes) (target : Int) (c : Core) : Except FaultRecord Core :=
  if m.strict && decide (m.flushScope = .all) && c.flushLoses then .error ⟨.hazardFlush, .ipc c.wr.ipc⟩
  else
    .ok { c with
      dr := { c.dr with update := false }
      er := { c.er with update := false }
      mr := { c.mr with update := false }
      wr := if m.flushScope = .all then { c.wr with update := false } else c.wr
      pc := target
      fetchHalted := false }

end Machine

end Sys2Proof
end

