-- ==== Sys2Proof/Machine/Operands.lean ====
section
/-! DEFINITION. Operand decoding (30_encoding.md R119), the checks decode makes (41_pipeline.md R215), and the
operand forms of the later stages: effective addresses (42_integer.md R231), gather addresses (R236) and the
sign-magnitude branch offset (30_encoding.md R121). -/

namespace Sys2Proof.Machine

/-- The register fields a class uses, each with its file: a row of the table of R119. -/
structure Uses where
  dest : Option (RegFile × Word) := none
  rs1 : Option (RegFile × Word) := none
  rs2 : Option (RegFile × Word) := none
deriving DecidableEq, Repr

/-- A used field is out of range (R112). -/
def badRegister : Option (RegFile × Word) → Bool
  | some (_, r) => !isRegister r
  | none => false

/-- The used register fields out of range. -/
def Uses.badFields (u : Uses) : List RegField :=
  (if badRegister u.dest then [.rd] else []) ++ (if badRegister u.rs1 then [.rs1] else []) ++
    (if badRegister u.rs2 then [.rs2] else [])

/-- The field a REG_INDEX fault reports: the one out of range; of several, R112 names no order, and which is a free
value (notes/assumptions/10.md). -/
def Uses.badField (u : Uses) (r : Record) : Option RegField :=
  match u.badFields with
  | [] => none
  | [f] => some f
  | f :: fs => some ((f :: fs).getD (Config.fieldPick r.rd r.rs1 r.rs2 % (fs.length + 1)) f)

/-- A source register with a pending write (R211). -/
def Core.rawOn (c : Core) : Option (RegFile × Word) → Option (RegFile × Word)
  | some (file, r) => if c.pendingWrite file r then some (file, r) else none
  | none => none

/-- The destination is x[0] (R214). -/
def Uses.writesX0 (u : Uses) : Bool := decide (u.dest = some (.x, 0))

/-- The fault decode raises for the registers an instruction uses, in the order of R215: REG_INDEX, then with STRICT
X0_WRITE, then HAZARD_RAW on rs1, then on rs2. -/
def decodeFault (m : Modes) (c : Core) (u : Uses) : Option FaultRecord :=
  match u.badField c.dr.record with
  | some field => some ⟨.regIndex, .regIndex c.dr.ipc field⟩
  | none =>
    if m.strict then
      if u.writesX0 then some ⟨.x0Write, .ipc c.dr.ipc⟩
      else
        match c.rawOn u.rs1 with
        | some (file, r) => some ⟨.hazardRaw, .register c.dr.ipc file r⟩
        | none =>
          match c.rawOn u.rs2 with
          | some (file, r) => some ⟨.hazardRaw, .register c.dr.ipc file r⟩
          | none => none
    else none

/-- The first operand: `a` from the integer file, `fa` from the float file (R119). -/
def Core.loadRs1 (c : Core) (l : Latch) : Option (RegFile × Word) → Latch
  | some (.x, r) => { l with a := c.readReg .x r }
  | some (.f, r) => { l with fa := c.readReg .f r }
  | none => l

/-- The second operand: `b` from the integer file, `fb` from the float file (R119). -/
def Core.loadRs2 (c : Core) (l : Latch) : Option (RegFile × Word) → Latch
  | some (.x, r) => { l with b := c.readReg .x r }
  | some (.f, r) => { l with fb := c.readReg .f r }
  | none => l

/-- `operands(DR, cls)` (R119, R194): the record's fields copied unchanged, the operands the class reads, every
other field left as it was. -/
def Core.operands (c : Core) (cls : InstrClass) (u : Uses) : Latch :=
  let r := c.dr.record
  let l := { c.er with
    update := true, cls := cls, opcode := r.opcode, rd := r.rd, rs1 := r.rs1, rs2 := r.rs2
    imm := r.imm, funct3 := r.funct3, funct7 := r.funct7, ipc := c.dr.ipc }
  c.loadRs2 (c.loadRs1 l u.rs1) u.rs2

/-- The decode stage of every class but CUSTOM (R194). -/
def decodeStage (cls : InstrClass) (u : Uses) : StageFn := fun env c =>
  match decodeFault env.modes c u with
  | some f => .error f
  | none =>
    .ok { core := { c with
      er := c.operands cls u
      dr := { c.dr with update := false }
      actD := c.actD + 1 } }

/-! ## Addresses and offsets -/

/-- `EA = MR.a +32 MR.imm` (R231). -/
def effectiveAddress (imm : Word) (l : Latch) : Word := l.a + imm

/-- The bytes of a gather load from `base +32 off_i`, in order, each checked alone (R235, R236). -/
def Core.gather (c : Core) (base : Word) : List Byte → Except FaultRecord (List Byte)
  | [] => .ok []
  | off :: offs =>
    match c.memRead (base + off.setWidth 32).toNat 1 with
    | .error f => .error f
    | .ok bytes =>
      match c.gather base offs with
      | .error f => .error f
      | .ok rest => .ok (bytes ++ rest)

/-- The sign-magnitude branch offset: bit 11 the sign, bits 7 to 0 the magnitude (R121). -/
def branchOffset (imm : Word) : Int :=
  if imm.getLsbD 11 then -((imm.toNat % 256 : Nat) : Int) else ((imm.toNat % 256 : Nat) : Int)

/-- The target of a taken branch (R256). -/
def branchTarget (m : Modes) (c : Core) (imm : Word) : Int :=
  match m.branchBase with
  | .fetchPc => c.pc + branchOffset imm
  | .instrPc => c.er.ipc + branchOffset imm

end Sys2Proof.Machine
end

