-- ==== Sys2Proof/Machine/ControlFlow.lean ====
section
/-! DEFINITION. Branches and return (42_integer.md R255 to R262). -/

namespace Sys2Proof.Machine

/-- A branch's execute stage: taken, it resets the pipeline and ends the tick; not taken, it passes on (R256, R204). -/
def branchStage (taken : Word → Word → Bool) (imm : Word) : StageFn := fun env c =>
  if taken c.er.a c.er.b then
    match Core.resetPipeline env.modes (branchTarget env.modes c imm) { c with actE := c.actE + 1 } with
    | .ok c' => .ok { core := c', tickEnded := true }
    | .error f => .error f
  else .ok { core := c.toMemory c.er }

/-- BEQ (R257). -/
def stagesBeq (rs1 rs2 imm : Word) : Stages :=
  { decode := decodeStage .branch { rs1 := some (.x, rs1), rs2 := some (.x, rs2) }
    execute := branchStage (fun a b => a == b) imm }

/-- BEQ in the stage in focus. -/
def execBeq (rs1 rs2 imm : Word) (s : State) : Host.Outcome State Fault Refusal :=
  runStages (stagesBeq rs1 rs2 imm) s

/-- BNE (R258). -/
def stagesBne (rs1 rs2 imm : Word) : Stages :=
  { decode := decodeStage .branch { rs1 := some (.x, rs1), rs2 := some (.x, rs2) }
    execute := branchStage (fun a b => a != b) imm }

/-- BNE in the stage in focus. -/
def execBne (rs1 rs2 imm : Word) (s : State) : Host.Outcome State Fault Refusal :=
  runStages (stagesBne rs1 rs2 imm) s

/-- RET (R262): its fetch stops fetching (R196), its writeback raises `ended`. -/
def stagesRet : Stages :=
  { decode := decodeStage .ret {}
    writeback := writebackStage fun c => { c with ended := true } }

/-- RET in the stage in focus. -/
def execRet (s : State) : Host.Outcome State Fault Refusal := runStages stagesRet s

end Sys2Proof.Machine
end

