-- ==== Sys2Proof/Machine/Copy.lean ====
section
/-! DEFINITION. The copy class: data memory sent as an event from the memory stage (44_device_ops.md R300 to R306). -/

namespace Sys2Proof.Machine

/-- A copy's memory stage: the n bytes at `MR.a`, sent on a port (R302). -/
def copyStage (port : CorePort) (n : Word) (event : Core → List Byte → Event) : StageFn := fun _ c =>
  match c.memRead c.mr.a.toNat n.toNat with
  | .ok payload => .ok { core := c.toWriteback c.mr, sends := [(port, event c payload)] }
  | .error f => .error f

/-- The Event A of a copy to a device: the instruction's opcode, its rd as dst, its funct7 as imm (R302). -/
def copyToDevice (dst tag : Word) (c : Core) (payload : List Byte) : Event :=
  .a c.mr.opcode dst tag payload

/-- The Event B of a copy to the router (R302, R306). -/
def copyToRouter (dst tag : Word) (c : Core) (payload : List Byte) : Event :=
  .b c.mr.opcode dst c.cfg.coreId 0 tag payload

/-- CPY.CAM (R303). -/
def stagesCpyCam (rd rs1 imm funct7 : Word) : Stages :=
  { decode := decodeStage .copy { rs1 := some (.x, rs1) }
    memory := copyStage .camData imm (copyToDevice rd funct7) }

/-- CPY.CAM in the stage in focus. -/
def execCpyCam (rd rs1 imm funct7 : Word) (s : State) : Host.Outcome State Fault Refusal :=
  runStages (stagesCpyCam rd rs1 imm funct7) s

/-- CPY.MPE (R304). -/
def stagesCpyMpe (rd rs1 imm funct7 : Word) : Stages :=
  { decode := decodeStage .copy { rs1 := some (.x, rs1) }
    memory := copyStage .mpeData imm (copyToDevice rd funct7) }

/-- CPY.MPE in the stage in focus. -/
def execCpyMpe (rd rs1 imm funct7 : Word) (s : State) : Host.Outcome State Fault Refusal :=
  runStages (stagesCpyMpe rd rs1 imm funct7) s

/-- CPY.MMR (R305). -/
def stagesCpyMmr (rd rs1 imm funct7 : Word) : Stages :=
  { decode := decodeStage .copy { rs1 := some (.x, rs1) }
    memory := copyStage .mmrData imm (copyToDevice rd funct7) }

/-- CPY.MMR in the stage in focus. -/
def execCpyMmr (rd rs1 imm funct7 : Word) (s : State) : Host.Outcome State Fault Refusal :=
  runStages (stagesCpyMmr rd rs1 imm funct7) s

/-- CPY.UP (R306). -/
def stagesCpyUp (rd rs1 imm funct7 : Word) : Stages :=
  { decode := decodeStage .copy { rs1 := some (.x, rs1) }
    memory := copyStage .up imm (copyToRouter rd funct7) }

/-- CPY.UP in the stage in focus. -/
def execCpyUp (rd rs1 imm funct7 : Word) (s : State) : Host.Outcome State Fault Refusal :=
  runStages (stagesCpyUp rd rs1 imm funct7) s

end Sys2Proof.Machine
end

