-- ==== Sys2Proof/Machine/Custom.lean ====
section
/-! DEFINITION. The custom class: a one-shot command event sent at decode (44_device_ops.md R308, R309, R320 to R328).
What the device does when it performs the command is in Cam.lean, Mpe.lean and Mmr.lean. A custom instruction never
enters the later stages (41_pipeline.md R194), where `Stages` passes it on. -/

namespace Sys2Proof.Machine

/-- The request port of a device (R308). -/
def requestPort : Device → CorePort
  | .cam => .camReq
  | .mpe => .mpeReq
  | .mmr => .mmrReq

/-- Custom dispatch with its hold: nothing while the core is storing an inbound event, else the command is sent and
the instruction leaves the pipeline (R194, R195, R308). -/
def dispatchStage (dev : Device) (dst sub : Word) : StageFn := fun _ c =>
  if c.rx.busy then .ok { core := c }
  else
    .ok { core := { c with dr := { c.dr with update := false }, actD := c.actD + 1 }
          sends := [(requestPort dev, .a c.dr.record.opcode dst sub [])] }

/-- CAM.PRE (R320). -/
def stagesCamPre (rd : Word) : Stages := { decode := dispatchStage .cam rd 0 }

/-- CAM.PRE in the stage in focus. -/
def execCamPre (rd : Word) (s : State) : Host.Outcome State Fault Refusal := runStages (stagesCamPre rd) s

/-- CAM.SRCH (R321). -/
def stagesCamSrch (rd : Word) : Stages := { decode := dispatchStage .cam rd 1 }

/-- CAM.SRCH in the stage in focus. -/
def execCamSrch (rd : Word) (s : State) : Host.Outcome State Fault Refusal := runStages (stagesCamSrch rd) s

/-- MPE.RST (R322). -/
def stagesMpeRst (rd : Word) : Stages := { decode := dispatchStage .mpe rd 0 }

/-- MPE.RST in the stage in focus. -/
def execMpeRst (rd : Word) (s : State) : Host.Outcome State Fault Refusal := runStages (stagesMpeRst rd) s

/-- MPE.LDT (R323). -/
def stagesMpeLdt (rd : Word) : Stages := { decode := dispatchStage .mpe rd 1 }

/-- MPE.LDT in the stage in focus. -/
def execMpeLdt (rd : Word) (s : State) : Host.Outcome State Fault Refusal := runStages (stagesMpeLdt rd) s

/-- MPE.LDB (R324). -/
def stagesMpeLdb (rd : Word) : Stages := { decode := dispatchStage .mpe rd 2 }

/-- MPE.LDB in the stage in focus. -/
def execMpeLdb (rd : Word) (s : State) : Host.Outcome State Fault Refusal := runStages (stagesMpeLdb rd) s

/-- MPE.UPD (R325). -/
def stagesMpeUpd (rd : Word) : Stages := { decode := dispatchStage .mpe rd 3 }

/-- MPE.UPD in the stage in focus. -/
def execMpeUpd (rd : Word) (s : State) : Host.Outcome State Fault Refusal := runStages (stagesMpeUpd rd) s

/-- MPE.PACK (R326). -/
def stagesMpePack (rd : Word) : Stages := { decode := dispatchStage .mpe rd 4 }

/-- MPE.PACK in the stage in focus. -/
def execMpePack (rd : Word) (s : State) : Host.Outcome State Fault Refusal := runStages (stagesMpePack rd) s

/-- MPE.DEC (R327). -/
def stagesMpeDec (rd : Word) : Stages := { decode := dispatchStage .mpe rd 5 }

/-- MPE.DEC in the stage in focus. -/
def execMpeDec (rd : Word) (s : State) : Host.Outcome State Fault Refusal := runStages (stagesMpeDec rd) s

/-- MMR.EXT (R328). -/
def stagesMmrExt (rd : Word) : Stages := { decode := dispatchStage .mmr rd 0 }

/-- MMR.EXT in the stage in focus. -/
def execMmrExt (rd : Word) (s : State) : Host.Outcome State Fault Refusal := runStages (stagesMmrExt rd) s

end Sys2Proof.Machine
end

