-- ==== Sys2Proof/Machine/Float.lean ====
section
/-! DEFINITION. Float loads, stores and arithmetic (43_float.md R276 to R280). -/

namespace Sys2Proof.Machine

/-- `f[rd] <- WR.fa` (R198). -/
def writebackF (rd : Word) : StageFn := writebackStage fun c => c.writeReg .f rd c.wr.fa

/-- A float execute stage: the result goes to `fa`; a NaN result is the core's next NAN_DRAW (R270, R273). -/
def floatStage (op : Word → Word → Option Word) : StageFn := fun env c =>
  match op c.er.fa c.er.fb with
  | some v => .ok { core := c.toMemory { c.er with fa := v } }
  | none =>
    let drawn := nanPattern (Config.nanDraw (.core env.index) c.nanDraws)
    .ok { core := { c with nanDraws := c.nanDraws + 1 }.toMemory { c.er with fa := drawn } }

/-- FLW (R276). -/
def stagesFlw (rd rs1 imm : Word) : Stages :=
  { decode := decodeStage .fload { dest := some (.f, rd), rs1 := some (.x, rs1) }
    memory := loadStage fun c mr =>
      match c.memReadWord (effectiveAddress imm mr).toNat 4 with
      | .ok v => .ok { mr with fa := v }
      | .error f => .error f
    writeback := writebackF rd }

/-- FLW in the stage in focus. -/
def execFlw (rd rs1 imm : Word) (s : State) : Host.Outcome State Fault Refusal := runStages (stagesFlw rd rs1 imm) s

/-- FSW (R277). -/
def stagesFsw (rs1 rs2 imm : Word) : Stages :=
  { decode := decodeStage .fstore { rs1 := some (.x, rs1), rs2 := some (.f, rs2) }
    memory := storeStage (effectiveAddress imm) fun mr => leBytes 4 mr.fb }

/-- FSW in the stage in focus. -/
def execFsw (rs1 rs2 imm : Word) (s : State) : Host.Outcome State Fault Refusal :=
  runStages (stagesFsw rs1 rs2 imm) s

/-- FADD (R278). -/
def stagesFadd (rd rs1 rs2 : Word) : Stages :=
  { decode := decodeStage .fop { dest := some (.f, rd), rs1 := some (.f, rs1), rs2 := some (.f, rs2) }
    execute := floatStage f32Add
    writeback := writebackF rd }

/-- FADD in the stage in focus. -/
def execFadd (rd rs1 rs2 : Word) (s : State) : Host.Outcome State Fault Refusal :=
  runStages (stagesFadd rd rs1 rs2) s

/-- FSUB (R279). -/
def stagesFsub (rd rs1 rs2 : Word) : Stages :=
  { decode := decodeStage .fop { dest := some (.f, rd), rs1 := some (.f, rs1), rs2 := some (.f, rs2) }
    execute := floatStage f32Sub
    writeback := writebackF rd }

/-- FSUB in the stage in focus. -/
def execFsub (rd rs1 rs2 : Word) (s : State) : Host.Outcome State Fault Refusal :=
  runStages (stagesFsub rd rs1 rs2) s

/-- FMAC8 (R280): the old `f[rd]` is no input (90_conflicts.md C4). -/
def stagesFmac8 (rd rs1 rs2 : Word) : Stages :=
  { decode := decodeStage .fop { dest := some (.f, rd), rs1 := some (.f, rs1), rs2 := some (.f, rs2) }
    execute := floatStage fmac8
    writeback := writebackF rd }

/-- FMAC8 in the stage in focus. -/
def execFmac8 (rd rs1 rs2 : Word) (s : State) : Host.Outcome State Fault Refusal :=
  runStages (stagesFmac8 rd rs1 rs2) s

end Sys2Proof.Machine
end

