-- ==== Sys2Proof/Machine/IntegerMemory.lean ====
section
/-! DEFINITION. Integer loads and stores (42_integer.md R231, R233 to R238). -/

namespace Sys2Proof.Machine

/-- `x[rd] <- WR.a` (R198). -/
def writebackX (rd : Word) : StageFn := writebackStage fun c => c.writeReg .x rd c.wr.a

/-- A load's memory stage into `a`: n bytes at the effective address, widened with zeros (R233, R234). -/
def loadInteger (imm : Word) (n : Nat) : StageFn := loadStage fun c mr =>
  match c.memReadWord (effectiveAddress imm mr).toNat n with
  | .ok v => .ok { mr with a := v }
  | .error f => .error f

/-- LBU (R233). -/
def stagesLbu (rd rs1 imm : Word) : Stages :=
  { decode := decodeStage .load { dest := some (.x, rd), rs1 := some (.x, rs1) }
    memory := loadInteger imm 1
    writeback := writebackX rd }

/-- LBU in the stage in focus. -/
def execLbu (rd rs1 imm : Word) (s : State) : Host.Outcome State Fault Refusal := runStages (stagesLbu rd rs1 imm) s

/-- LW (R234). -/
def stagesLw (rd rs1 imm : Word) : Stages :=
  { decode := decodeStage .load { dest := some (.x, rd), rs1 := some (.x, rs1) }
    memory := loadInteger imm 4
    writeback := writebackX rd }

/-- LW in the stage in focus. -/
def execLw (rd rs1 imm : Word) (s : State) : Host.Outcome State Fault Refusal := runStages (stagesLw rd rs1 imm) s

/-- The gather load's memory stage (R235, R236). -/
def gatherStage (imm : Word) : StageFn := loadStage fun c mr =>
  match c.gather (effectiveAddress imm mr) (leBytes 4 mr.b) with
  | .ok bytes => .ok { mr with a := leWord bytes }
  | .error f => .error f

/-- LWG (R235). -/
def stagesLwg (rd rs1 rs2 imm : Word) : Stages :=
  { decode := decodeStage .load { dest := some (.x, rd), rs1 := some (.x, rs1), rs2 := some (.x, rs2) }
    memory := gatherStage imm
    writeback := writebackX rd }

/-- LWG in the stage in focus. -/
def execLwg (rd rs1 rs2 imm : Word) (s : State) : Host.Outcome State Fault Refusal :=
  runStages (stagesLwg rd rs1 rs2 imm) s

/-- SB (R237). -/
def stagesSb (rs1 rs2 imm : Word) : Stages :=
  { decode := decodeStage .store { rs1 := some (.x, rs1), rs2 := some (.x, rs2) }
    memory := storeStage (effectiveAddress imm) fun mr => leBytes 1 mr.b }

/-- SB in the stage in focus. -/
def execSb (rs1 rs2 imm : Word) (s : State) : Host.Outcome State Fault Refusal := runStages (stagesSb rs1 rs2 imm) s

/-- SW (R238). -/
def stagesSw (rs1 rs2 imm : Word) : Stages :=
  { decode := decodeStage .store { rs1 := some (.x, rs1), rs2 := some (.x, rs2) }
    memory := storeStage (effectiveAddress imm) fun mr => leBytes 4 mr.b }

/-- SW in the stage in focus. -/
def execSw (rs1 rs2 imm : Word) (s : State) : Host.Outcome State Fault Refusal := runStages (stagesSw rs1 rs2 imm) s

end Sys2Proof.Machine
end

