-- ==== Sys2Proof/Machine/IntegerAlu.lean ====
section
/-! DEFINITION. Integer arithmetic and load-upper-immediate (42_integer.md R232, R240 to R245, R248). -/

namespace Sys2Proof.Machine

/-- An execute stage whose result is `a` (R197). -/
def aluStage (result : StageEnv → Latch → Word) : StageFn :=
  executeStage fun env er => .ok { er with a := result env er }

/-- A left shift by the whole amount; 32 or more faults (R241, R244). -/
def shiftStage (amount : Latch → Word) : StageFn := executeStage fun _ er =>
  if 32 ≤ (amount er).toNat then .error ⟨.shiftRange, .shift er.ipc (amount er)⟩
  else .ok { er with a := er.a <<< (amount er).toNat }

/-- ADDI (R240). -/
def stagesAddi (rd rs1 imm : Word) : Stages :=
  { decode := decodeStage .opimm { dest := some (.x, rd), rs1 := some (.x, rs1) }
    execute := aluStage fun _ er => er.a + imm
    writeback := writebackX rd }

/-- ADDI in the stage in focus. -/
def execAddi (rd rs1 imm : Word) (s : State) : Host.Outcome State Fault Refusal :=
  runStages (stagesAddi rd rs1 imm) s

/-- SLLI (R241). -/
def stagesSlli (rd rs1 imm : Word) : Stages :=
  { decode := decodeStage .opimm { dest := some (.x, rd), rs1 := some (.x, rs1) }
    execute := shiftStage fun _ => imm
    writeback := writebackX rd }

/-- SLLI in the stage in focus. -/
def execSlli (rd rs1 imm : Word) (s : State) : Host.Outcome State Fault Refusal :=
  runStages (stagesSlli rd rs1 imm) s

/-- MULI (R242). -/
def stagesMuli (rd rs1 imm : Word) : Stages :=
  { decode := decodeStage .opimm { dest := some (.x, rd), rs1 := some (.x, rs1) }
    execute := aluStage fun _ er => er.a * imm
    writeback := writebackX rd }

/-- MULI in the stage in focus. -/
def execMuli (rd rs1 imm : Word) (s : State) : Host.Outcome State Fault Refusal :=
  runStages (stagesMuli rd rs1 imm) s

/-- ADD (R243). -/
def stagesAdd (rd rs1 rs2 : Word) : Stages :=
  { decode := decodeStage .op { dest := some (.x, rd), rs1 := some (.x, rs1), rs2 := some (.x, rs2) }
    execute := aluStage fun _ er => er.a + er.b
    writeback := writebackX rd }

/-- ADD in the stage in focus. -/
def execAdd (rd rs1 rs2 : Word) (s : State) : Host.Outcome State Fault Refusal := runStages (stagesAdd rd rs1 rs2) s

/-- SLL (R244). -/
def stagesSll (rd rs1 rs2 : Word) : Stages :=
  { decode := decodeStage .op { dest := some (.x, rd), rs1 := some (.x, rs1), rs2 := some (.x, rs2) }
    execute := shiftStage fun er => er.b
    writeback := writebackX rd }

/-- SLL in the stage in focus. -/
def execSll (rd rs1 rs2 : Word) (s : State) : Host.Outcome State Fault Refusal := runStages (stagesSll rd rs1 rs2) s

/-- MUL (R245). -/
def stagesMul (rd rs1 rs2 : Word) : Stages :=
  { decode := decodeStage .op { dest := some (.x, rd), rs1 := some (.x, rs1), rs2 := some (.x, rs2) }
    execute := aluStage fun _ er => er.a * er.b
    writeback := writebackX rd }

/-- MUL in the stage in focus. -/
def execMul (rd rs1 rs2 : Word) (s : State) : Host.Outcome State Fault Refusal := runStages (stagesMul rd rs1 rs2) s

/-- LUI (R248, 30_encoding.md R122): it reads no register. -/
def stagesLui (rd imm : Word) : Stages :=
  { decode := decodeStage .lui { dest := some (.x, rd) }
    execute := aluStage fun env _ => imm <<< env.modes.luiShift
    writeback := writebackX rd }

/-- LUI in the stage in focus. -/
def execLui (rd imm : Word) (s : State) : Host.Outcome State Fault Refusal := runStages (stagesLui rd imm) s

end Sys2Proof.Machine
end

