-- ==== Sys2Proof/Machine/Dispatch.lean ====
section
/-! DEFINITION. What an instruction does in the pipeline stage in focus, one arm per instruction. -/

namespace Sys2Proof.Machine

-- `exec i s` runs instruction i in the stage `s.focus.stage` of core `s.focus.core`.
def exec (i : Instr) (s : State) : Host.Outcome State Fault Refusal :=
  match i with
  | .lbu rd rs1 imm => Sys2Proof.Machine.execLbu rd rs1 imm s
  | .lw rd rs1 imm => Sys2Proof.Machine.execLw rd rs1 imm s
  | .lwg rd rs1 rs2 imm => Sys2Proof.Machine.execLwg rd rs1 rs2 imm s
  | .flw rd rs1 imm => Sys2Proof.Machine.execFlw rd rs1 imm s
  | .sb rs1 rs2 imm => Sys2Proof.Machine.execSb rs1 rs2 imm s
  | .sw rs1 rs2 imm => Sys2Proof.Machine.execSw rs1 rs2 imm s
  | .fsw rs1 rs2 imm => Sys2Proof.Machine.execFsw rs1 rs2 imm s
  | .addi rd rs1 imm => Sys2Proof.Machine.execAddi rd rs1 imm s
  | .slli rd rs1 imm => Sys2Proof.Machine.execSlli rd rs1 imm s
  | .muli rd rs1 imm => Sys2Proof.Machine.execMuli rd rs1 imm s
  | .add rd rs1 rs2 => Sys2Proof.Machine.execAdd rd rs1 rs2 s
  | .sll rd rs1 rs2 => Sys2Proof.Machine.execSll rd rs1 rs2 s
  | .mul rd rs1 rs2 => Sys2Proof.Machine.execMul rd rs1 rs2 s
  | .fadd rd rs1 rs2 => Sys2Proof.Machine.execFadd rd rs1 rs2 s
  | .fsub rd rs1 rs2 => Sys2Proof.Machine.execFsub rd rs1 rs2 s
  | .fmac8 rd rs1 rs2 => Sys2Proof.Machine.execFmac8 rd rs1 rs2 s
  | .lui rd imm => Sys2Proof.Machine.execLui rd imm s
  | .beq rs1 rs2 imm => Sys2Proof.Machine.execBeq rs1 rs2 imm s
  | .bne rs1 rs2 imm => Sys2Proof.Machine.execBne rs1 rs2 imm s
  | .ret => Sys2Proof.Machine.execRet s
  | .cpyCam rd rs1 imm funct7 => Sys2Proof.Machine.execCpyCam rd rs1 imm funct7 s
  | .cpyMpe rd rs1 imm funct7 => Sys2Proof.Machine.execCpyMpe rd rs1 imm funct7 s
  | .cpyMmr rd rs1 imm funct7 => Sys2Proof.Machine.execCpyMmr rd rs1 imm funct7 s
  | .cpyUp rd rs1 imm funct7 => Sys2Proof.Machine.execCpyUp rd rs1 imm funct7 s
  | .camPre rd => Sys2Proof.Machine.execCamPre rd s
  | .camSrch rd => Sys2Proof.Machine.execCamSrch rd s
  | .mpeRst rd => Sys2Proof.Machine.execMpeRst rd s
  | .mpeLdt rd => Sys2Proof.Machine.execMpeLdt rd s
  | .mpeLdb rd => Sys2Proof.Machine.execMpeLdb rd s
  | .mpeUpd rd => Sys2Proof.Machine.execMpeUpd rd s
  | .mpePack rd => Sys2Proof.Machine.execMpePack rd s
  | .mpeDec rd => Sys2Proof.Machine.execMpeDec rd s
  | .mmrExt rd => Sys2Proof.Machine.execMmrExt rd s

end Sys2Proof.Machine
end

