-- ==== Sys2Proof/Machine/Unlisted.lean ====
section
/-! DEFINITION. What the machine does with a record that is no instruction of the table but that the spec gives an
effect (30_encoding.md R115, R117, R124, R125): it travels to the stage that faults, or it is sent to its device. -/

namespace Sys2Proof.Machine

/-- The fault of an unmapped funct3, raised by a stage for the latch it consumes (R117, R441). -/
def unmappedAt (code : FaultCode) (cls : InstrClass) (latch : Core → Latch) : StageFn := fun _ c =>
  .error ⟨code, .form (latch c).ipc cls (latch c).funct3⟩

/-- Decode raises UNMAPPED_DECODE for a CUSTOM record with an unmapped funct3, unless it is held (R195, R308). -/
def dispatchUnmapped : StageFn := fun _ c =>
  if c.rx.busy then .ok { core := c }
  else .error ⟨.unmappedDecode, .form c.dr.ipc .custom c.dr.record.funct3⟩

/-- Decode raises UNMAPPED_DECODE for an unmapped opcode under UNMAPPED_OPCODE = FAULT, before the hold (R215). -/
def decodeUnmapped : StageFn := fun _ c =>
  .error ⟨.unmappedDecode, .opcode c.dr.record.opcode⟩

/-- A record with an unmapped funct3, class by class: the registers its class uses (R119), and the stage that raises
its fault (R117, R239, R246, R259, R282, R307). A class that ignores funct3 has no such record and passes. -/
def unmappedFunct3 (cls : InstrClass) (r : Record) : Stages :=
  match cls with
  | .copy =>
    { decode := decodeStage .copy { rs1 := some (.x, r.rs1) }
      memory := unmappedAt .unmappedMemory .copy Core.mr }
  | .load =>
    { decode := decodeStage .load { dest := some (.x, r.rd), rs1 := some (.x, r.rs1) }
      memory := unmappedAt .unmappedMemory .load Core.mr }
  | .store =>
    { decode := decodeStage .store { rs1 := some (.x, r.rs1), rs2 := some (.x, r.rs2) }
      memory := unmappedAt .unmappedMemory .store Core.mr }
  | .opimm =>
    { decode := decodeStage .opimm { dest := some (.x, r.rd), rs1 := some (.x, r.rs1) }
      execute := unmappedAt .unmappedExecute .opimm Core.er }
  | .op =>
    { decode := decodeStage .op { dest := some (.x, r.rd), rs1 := some (.x, r.rs1), rs2 := some (.x, r.rs2) }
      execute := unmappedAt .unmappedExecute .op Core.er }
  | .fop =>
    { decode := decodeStage .fop { dest := some (.f, r.rd), rs1 := some (.f, r.rs1), rs2 := some (.f, r.rs2) }
      execute := unmappedAt .unmappedExecute .fop Core.er }
  | .branch =>
    { decode := decodeStage .branch { rs1 := some (.x, r.rs1), rs2 := some (.x, r.rs2) }
      execute := unmappedAt .unmappedExecute .branch Core.er }
  | .custom => { decode := dispatchUnmapped }
  | .fload => { decode := decodeStage .fload {} }
  | .fstore => { decode := decodeStage .fstore {} }
  | .lui => { decode := decodeStage .lui {} }
  | .ret => { decode := decodeStage .ret {} }

/-- The effect of a record that is no instruction of the table, in the stage in focus. -/
def execUnlisted (u : Unlisted) (r : Record) (s : State) : Host.Outcome State Fault Refusal :=
  match u with
  | .opcode => runStages { decode := decodeUnmapped } s
  | .funct3 cls => runStages (unmappedFunct3 cls r) s
  | .subop dev => runStages { decode := dispatchStage dev r.rd r.imm } s

end Sys2Proof.Machine
end

