-- ==== Sys2Proof/Machine/Tick.lean ====
section
/-! DEFINITION. The ticks of the components and the host step (41_pipeline.md R190 to R196, 40_delay_queue.md R168). -/

namespace Sys2Proof.Machine

/-! ## Fetch (R196) -/

/-- The record at a program counter, if it is inside the instruction memory (R33, R34). -/
def Core.recordAt (c : Core) (pc : Int) : Option Record :=
  if pc < 0 then none else c.imem[pc.toNat]?

/-- The fetch step: it waits while DR holds work or fetch is halted (R190, R196). -/
def Core.fetch (m : Modes) (c : Core) : Except FaultRecord Core :=
  if c.dr.update || c.fetchHalted then .ok c
  else
    match c.recordAt c.pc with
    | none => .error ⟨.pcRange, .pc c.pc⟩
    | some r =>
      .ok { c with
        dr := ⟨true, r, c.pc⟩
        pc := c.pc + 1
        actF := c.actF + 1
        fetchHalted := decide (m.classify r.opcode = some .ret) }

/-! ## The stages -/

/-- The record a latch carries. -/
def Latch.record (l : Latch) : Record := ⟨l.opcode, l.rd, l.rs1, l.rs2, l.imm, l.funct3, l.funct7⟩

/-- A stage's input register holds work and its output register is ready (R191). -/
def Core.canRun (c : Core) : Stage → Bool
  | .writeback => c.wr.update
  | .memory => c.mr.update && !c.wr.update
  | .execute => c.er.update && !c.mr.update
  | .decode => c.dr.update && !c.er.update

/-- The record in a stage's input register. -/
def Core.stageRecord (c : Core) : Stage → Record
  | .decode => c.dr.record
  | .execute => c.er.record
  | .memory => c.mr.record
  | .writeback => c.wr.record

/-- The instruction in a stage's input register: decode computes the class from the opcode (R116), the later stages
carry it. -/
def Core.stageForm (m : Modes) (c : Core) : Stage → Except Unlisted Instr
  | .decode => decodeRecord m c.dr.record
  | .execute => decodeAs c.er.cls c.er.record
  | .memory => decodeAs c.mr.cls c.mr.record
  | .writeback => decodeAs c.wr.cls c.wr.record

/-- Run a decoded record in the stage in focus. -/
def runForm (form : Except Unlisted Instr) (r : Record) (s : State) : Host.Outcome State Fault Refusal :=
  match form with
  | .ok i => exec i s
  | .error u => execUnlisted u r s

/-- Run one stage of a core when it can run (R191). -/
def runStage (k : Nat) (st : Stage) (s : State) : Host.Outcome State Fault Refusal :=
  match s.cores[k]? with
  | none => .next s
  | some c =>
    if c.canRun st then runForm (c.stageForm s.modes st) (c.stageRecord st) (s.focusOn k st) else .next s

/-- Go on within a core's tick, unless a fault was raised (R442) or a taken branch ended the tick (R204). -/
def proceed (o : Host.Outcome State Fault Refusal) (f : State → Host.Outcome State Fault Refusal) :
    Host.Outcome State Fault Refusal :=
  match o with
  | .next s => if s.fault.isSome || s.focus.tickEnded then .next s else f s
  | .fault r => .fault r
  | .refused r => .refused r

/-- Put a core computed by a step that may fault. -/
def State.putResult (s : State) (k : Nat) : Except FaultRecord Core → State
  | .ok c => s.putCore k c
  | .error f => s.raise f

/-- The receive step of core k (R317). -/
def runReceive (k : Nat) (s : State) : Host.Outcome State Fault Refusal :=
  match s.cores[k]? with
  | none => .next s
  | some c => .next (s.putResult k (c.rxStep s.cycle))

/-- The fetch step of core k (R196). -/
def runFetch (k : Nat) (s : State) : Host.Outcome State Fault Refusal :=
  match s.cores[k]? with
  | none => .next s
  | some c => .next (s.putResult k (c.fetch s.modes))

/-- The focus back at rest. -/
def State.unfocus (s : State) : State := { s with focus := .rest }

/-- The focus back at rest when a tick is over. -/
def settle : Host.Outcome State Fault Refusal → Host.Outcome State Fault Refusal
  | .next s => .next s.unfocus
  | .fault r => .fault r
  | .refused r => .refused r

/-- One tick of core k: receive, writeback, memory, execute, decode, fetch (R190). -/
def tickCore (k : Nat) (s : State) : Host.Outcome State Fault Refusal :=
  let o := runReceive k s.unfocus
  let o := proceed o (runStage k .writeback)
  let o := proceed o (runStage k .memory)
  let o := proceed o (runStage k .execute)
  let o := proceed o (runStage k .decode)
  settle (proceed o (runFetch k))

/-! ## The ticks of the other components -/

/-- Send at most one event on a port. -/
def State.sendOpt (s : State) (port : OutPort) : Option Event → State
  | none => s
  | some ev => s.send port ev

/-- One tick of CAM j (R166). -/
def tickCam (j : Nat) (s : State) : Host.Outcome State Fault Refusal :=
  match s.cams[j]? with
  | none => .next s
  | some cam =>
    match cam.tick s.cycle with
    | .ok (cam', out) => .next ((s.putCam j cam').sendOpt (.camOut j) out)
    | .error f => .next (s.raise f)

/-- The output port of an MPE (R159). -/
def mpeOutPort (j : Nat) : MpePort → OutPort
  | .resp => .mpeResp j
  | .out => .mpeOut j

/-- Send what an MPE emits. -/
def State.sendMpe (s : State) (j : Nat) : Option (MpePort × Event) → State
  | none => s
  | some (port, ev) => s.send (mpeOutPort j port) ev

/-- One tick of MPE j (R166). -/
def tickMpe (j : Nat) (s : State) : Host.Outcome State Fault Refusal :=
  match s.mpes[j]? with
  | none => .next s
  | some mpe =>
    match mpe.tick s.cycle with
    | .ok (mpe', out) => .next ((s.putMpe j mpe').sendMpe j out)
    | .error f => .next (s.raise f)

/-- One tick of MMR j (R166). -/
def tickMmr (j : Nat) (s : State) : Host.Outcome State Fault Refusal :=
  match s.mmrs[j]? with
  | none => .next s
  | some mmr =>
    match mmr.tick s.cycle with
    | .ok (mmr', out) => .next ((s.putMmr j mmr').sendOpt (.mmrOut j) out)
    | .error f => .next (s.raise f)

/-- The output port of a router (R159). -/
def routerOutPort (j : Nat) : RouterPort → OutPort
  | .childDown k => .childDown j k
  | .parentUp => .parentUp j

/-- The events a router sends, each with its output port. -/
def routerSends (j : Nat) (evs : List (RouterPort × Event)) : List (OutPort × Event) :=
  evs.map fun (e : RouterPort × Event) => (routerOutPort j e.1, e.2)

/-- One tick of router j (R422). -/
def tickRouter (j : Nat) (s : State) : Host.Outcome State Fault Refusal :=
  match s.routers[j]? with
  | none => .next s
  | some r =>
    match Router.tick s.modes.routerGrouping j r s.cycle with
    | .ok (r', out) => .next ((s.putRouter j r').sendAll (routerSends j out))
    | .error f => .next (s.raise f)

/-! ## The host step (R168) -/

/-- The ticks of every component. The order is the host's (R168); the result does not depend on it (R169). -/
def State.ticks (s : State) : List (State → Host.Outcome State Fault Refusal) :=
  (List.range s.cores.length).map tickCore ++ (List.range s.cams.length).map tickCam ++
    (List.range s.mpes.length).map tickMpe ++ (List.range s.mmrs.length).map tickMmr ++
    (List.range s.routers.length).map tickRouter

/-- Tick components one after another. One that faults is left out and the others go on: the faults are those any
order of the ticks could record first (R169, R448). -/
def runTicks : List (State → Host.Outcome State Fault Refusal) → List FaultRecord → State →
    Host.Outcome (List FaultRecord × State) Fault Refusal
  | [], faults, s => .next (faults, s)
  | tick :: ticks, faults, s =>
    match tick s with
    | .next s' =>
      match s'.fault with
      | none => runTicks ticks faults s'
      | some f => runTicks ticks (faults ++ [f]) s
    | .fault r => .fault r
    | .refused r => .refused r

/-- The fault recorded when components or links raise faults in one cycle: the one there is, or of several the host's
choice, a free value (R448, notes/assumptions/8.md). -/
def chooseFault (cycle : Nat) (f : FaultRecord) : List FaultRecord → FaultRecord
  | [] => f
  | g :: gs => (f :: g :: gs).getD (Config.hostPick cycle % (gs.length + 2)) f

/-- The host step of a system that is not halted: deliver, tick every component, advance the cycle; a fault discards
all of it and is recorded in the state the step began in (R168, R442, 90_conflicts.md C11). -/
def hostStep (s : State) : Host.Outcome State Fault Refusal :=
  match s.deliver with
  | (f :: fs, _) => .next (s.raise (chooseFault s.cycle f fs))
  | ([], s1) =>
    match runTicks s1.ticks [] s1 with
    | .next ([], s2) => .next { s2 with cycle := s.cycle + 1 }
    | .next (f :: fs, _) => .next (s.raise (chooseFault s.cycle f fs))
    | .fault r => .fault r
    | .refused r => .refused r

/-! ## Placing one instruction -/

/-- An opcode OPCODE_MAP gives a class, its default number if it gives none. -/
def opcodeFor (m : Modes) (cls : InstrClass) : Word :=
  match m.opcodeMap.find? fun e => decide (e.2 = cls) with
  | some e => e.1
  | none => defaultOpcode cls

/-- The core with the instruction of the given words placed at `pc` in a program that a RET ends, and fetched: DR
holds it as the fetch step leaves it (R196), so that the very next tick decodes and runs it (notes/assumptions/12.md).
Words that are not seven change nothing. -/
def Core.withProgramWord (m : Modes) (words : List Word) (c : Core) : Core :=
  match recordsOf words with
  | [r] =>
    let at0 := c.pc.toNat
    let ret : Record := ⟨opcodeFor m .ret, 0, 0, 0, 0, 0, 0⟩
    { c with
      imem := c.imem.take at0 ++ List.replicate (at0 - c.imem.length) ret ++ [r, ret]
      dr := ⟨true, r, at0⟩
      pc := at0 + 1
      fetchHalted := decide (m.classify r.opcode = some .ret) }
  | _ => c

/-- The teardown hooks, called by the host after the last step: only the CAMs' changes state (R170, R345). -/
def State.teardown (s : State) : State := { s with cams := s.cams.map fun cam => cam.teardown s.cycle }

end Sys2Proof.Machine
end

