-- ==== Sys2Proof/Machine/Step.lean ====
section
/-! DEFINITION. One step of the machine: one host step, that is one cycle of the whole system (40_delay_queue.md
R168), and the placing of an instruction for the next step. -/

namespace Sys2Proof.Machine

/-- One host step. A halted system takes none (R31, R442); a configuration outside the ranges of R8 has no run
(R9, R445). -/
def step (s : State) : Host.Outcome State Fault Refusal :=
  match s.fault with
  | some f => .fault (.halted f)
  | none =>
    match s.problem with
    | some p => .refused (.config p)
    | none => hostStep s

/-- Store an instruction where the next step runs it (`Core.withProgramWord`), in core 0 (notes/assumptions/12.md). -/
def State.withFetchWord (s : State) (nbits w : Nat) : State :=
  { s with cores := s.cores.modify 0 fun c => c.withProgramWord s.modes (tableWords nbits w) }

end Sys2Proof.Machine
end

