-- ==== Sys2Proof/Machine/Statistics.lean ====
section
/-! DEFINITION. The samples the components send to the statistic sink at teardown (40_delay_queue.md R170, 00_scope.md
R6). The sink itself is out of scope, and no sample changes any state (R172). -/

namespace Sys2Proof.Machine

/-- The counters the spec says are sent to the statistic sink: a core's (10_state.md R44) and a CAM's (R49). -/
inductive Counter where
  | actF | actD | actE | actM | actW
  | eLeak | eCd | eSa | ePc | eCell | eReg | eStatic
deriving DecidableEq, Repr

/-- The component a sample comes from. -/
inductive SampleSource where
  | core (k : Nat) | cam (j : Nat)
deriving DecidableEq, Repr

/-- One sample: a named counter and a scalar number (60_exceptions.md R456). The name the sink sees is the spec's name
of the counter, by the model's choice (notes/assumptions/22.md). -/
structure Sample where
  source : SampleSource
  counter : Counter
  value : Rat
deriving DecidableEq, Repr

/-- A core's samples: its per-stage counters (R44, R453). -/
def Core.samples (k : Nat) (c : Core) : List Sample :=
  [⟨.core k, .actF, c.actF⟩, ⟨.core k, .actD, c.actD⟩, ⟨.core k, .actE, c.actE⟩, ⟨.core k, .actM, c.actM⟩,
   ⟨.core k, .actW, c.actW⟩]

/-- A CAM's samples: its energy counters (R49, R341). -/
def Cam.samples (j : Nat) (cam : Cam) : List Sample :=
  [⟨.cam j, .eLeak, cam.eLeak⟩, ⟨.cam j, .eCd, cam.eCd⟩, ⟨.cam j, .eSa, cam.eSa⟩, ⟨.cam j, .ePc, cam.ePc⟩,
   ⟨.cam j, .eCell, cam.eCell⟩, ⟨.cam j, .eReg, cam.eReg⟩, ⟨.cam j, .eStatic, cam.eStatic⟩]

/-- Every component's samples. An MPE, an MMR and a router have no counter to send (notes/assumptions/22.md). -/
def State.samples (s : State) : List Sample :=
  (s.cores.zipIdx.flatMap fun e => e.1.samples e.2) ++ s.cams.zipIdx.flatMap fun e => e.1.samples e.2

/-- The teardown the host calls after the last step: the hooks change the state, then the samples are sent (R170). -/
def State.finish (s : State) : State × List Sample := (s.teardown, s.teardown.samples)

end Sys2Proof.Machine
end

