-- ==== Sys2Proof/Safety.lean ====
section
/-! DEFINITION. What counts as a safe run: the host steps a system and no step records a fault, is refused or is a
step of a halted system (60_exceptions.md R440, R442). -/

namespace Sys2Proof

/-- The system has recorded no fault (R31). -/
def Safe (s : Machine.State) : Prop := s.fault = none

/-- The host can run the system for n steps and it is safe all along (40_delay_queue.md R171: the host may stop at any
cycle). -/
def SafeFor : Nat → Machine.State → Prop
  | 0, s => Safe s
  | n + 1, s => Safe s ∧ ∃ t, Machine.step s = .next t ∧ SafeFor n t

/-- A system reached from a booted configuration by host steps (R485). -/
inductive Reachable (cfg : Config) : Machine.State → Prop where
  | boot : Machine.configProblem cfg = none → Reachable cfg (Machine.State.boot cfg)
  | step {s t : Machine.State} : Reachable cfg s → Machine.step s = .next t → Reachable cfg t

end Sys2Proof
end

