-- ==== Sys2Proof/Vocabulary.lean ====
section
/-! DEFINITION. The words the statements about the machine use: which registers an instruction names, when decode
accepts it, what it means to run through the stages and leave the pipeline, invariants of the whole system, nearest
binary32 values, and the service order of a busy discipline. Nothing of the machine itself depends on this file. -/

namespace Sys2Proof.Machine

/-! ## Registers of an instruction (30_encoding.md R119) -/

/-- The registers an instruction reads at decode, rs1 before rs2. -/
def sourcesOf : Instr → List (RegFile × Word)
  | .lbu _ rs1 _ => [(.x, rs1)]
  | .lw _ rs1 _ => [(.x, rs1)]
  | .lwg _ rs1 rs2 _ => [(.x, rs1), (.x, rs2)]
  | .flw _ rs1 _ => [(.x, rs1)]
  | .sb rs1 rs2 _ => [(.x, rs1), (.x, rs2)]
  | .sw rs1 rs2 _ => [(.x, rs1), (.x, rs2)]
  | .fsw rs1 rs2 _ => [(.x, rs1), (.f, rs2)]
  | .addi _ rs1 _ => [(.x, rs1)]
  | .slli _ rs1 _ => [(.x, rs1)]
  | .muli _ rs1 _ => [(.x, rs1)]
  | .add _ rs1 rs2 => [(.x, rs1), (.x, rs2)]
  | .sll _ rs1 rs2 => [(.x, rs1), (.x, rs2)]
  | .mul _ rs1 rs2 => [(.x, rs1), (.x, rs2)]
  | .fadd _ rs1 rs2 => [(.f, rs1), (.f, rs2)]
  | .fsub _ rs1 rs2 => [(.f, rs1), (.f, rs2)]
  | .fmac8 _ rs1 rs2 => [(.f, rs1), (.f, rs2)]
  | .lui _ _ => []
  | .beq rs1 rs2 _ => [(.x, rs1), (.x, rs2)]
  | .bne rs1 rs2 _ => [(.x, rs1), (.x, rs2)]
  | .ret => []
  | .cpyCam _ rs1 _ _ => [(.x, rs1)]
  | .cpyMpe _ rs1 _ _ => [(.x, rs1)]
  | .cpyMmr _ rs1 _ _ => [(.x, rs1)]
  | .cpyUp _ rs1 _ _ => [(.x, rs1)]
  | .camPre _ => []
  | .camSrch _ => []
  | .mpeRst _ => []
  | .mpeLdt _ => []
  | .mpeLdb _ => []
  | .mpeUpd _ => []
  | .mpePack _ => []
  | .mpeDec _ => []
  | .mmrExt _ => []

/-- The register an instruction writes at writeback, if any. -/
def destOf : Instr → Option (RegFile × Word)
  | .lbu rd _ _ => some (.x, rd)
  | .lw rd _ _ => some (.x, rd)
  | .lwg rd _ _ _ => some (.x, rd)
  | .flw rd _ _ => some (.f, rd)
  | .sb _ _ _ => none
  | .sw _ _ _ => none
  | .fsw _ _ _ => none
  | .addi rd _ _ => some (.x, rd)
  | .slli rd _ _ => some (.x, rd)
  | .muli rd _ _ => some (.x, rd)
  | .add rd _ _ => some (.x, rd)
  | .sll rd _ _ => some (.x, rd)
  | .mul rd _ _ => some (.x, rd)
  | .fadd rd _ _ => some (.f, rd)
  | .fsub rd _ _ => some (.f, rd)
  | .fmac8 rd _ _ => some (.f, rd)
  | .lui rd _ => some (.x, rd)
  | .beq _ _ _ => none
  | .bne _ _ _ => none
  | .ret => none
  | .cpyCam _ _ _ _ => none
  | .cpyMpe _ _ _ _ => none
  | .cpyMmr _ _ _ _ => none
  | .cpyUp _ _ _ _ => none
  | .camPre _ => none
  | .camSrch _ => none
  | .mpeRst _ => none
  | .mpeLdt _ => none
  | .mpeLdb _ => none
  | .mpeUpd _ => none
  | .mpePack _ => none
  | .mpeDec _ => none
  | .mmrExt _ => none

/-- The value of a register field of a record. -/
def fieldOf (r : Record) : RegField → Word
  | .rd => r.rd
  | .rs1 => r.rs1
  | .rs2 => r.rs2

/-- The register fields a class uses: its row of R119. A load uses rs2 too when it gathers. -/
def classFields : InstrClass → List RegField
  | .copy => [.rs1]
  | .load => [.rd, .rs1]
  | .fload => [.rd, .rs1]
  | .opimm => [.rd, .rs1]
  | .store => [.rs1, .rs2]
  | .fstore => [.rs1, .rs2]
  | .op => [.rd, .rs1, .rs2]
  | .fop => [.rd, .rs1, .rs2]
  | .lui => [.rd]
  | .branch => [.rs1, .rs2]
  | .ret => []
  | .custom => []

/-- The register fields an instruction uses (R119). -/
def fieldsOf (i : Instr) : List RegField :=
  match i with
  | .lwg _ _ _ _ => [.rd, .rs1, .rs2]
  | j => classFields j.cls

/-- The registers a record of a class reads whose funct3 the class does not list, rs1 before rs2 (R119, R239). -/
def classSources : InstrClass → Record → List (RegFile × Word)
  | .copy, r => [(.x, r.rs1)]
  | .load, r => [(.x, r.rs1)]
  | .opimm, r => [(.x, r.rs1)]
  | .store, r => [(.x, r.rs1), (.x, r.rs2)]
  | .op, r => [(.x, r.rs1), (.x, r.rs2)]
  | .branch, r => [(.x, r.rs1), (.x, r.rs2)]
  | .fop, r => [(.f, r.rs1), (.f, r.rs2)]
  | .fload, _ => []
  | .fstore, _ => []
  | .lui, _ => []
  | .ret, _ => []
  | .custom, _ => []

/-- The register such a record names as its destination (R119). -/
def classDest : InstrClass → Record → Option (RegFile × Word)
  | .load, r => some (.x, r.rd)
  | .opimm, r => some (.x, r.rd)
  | .op, r => some (.x, r.rd)
  | .fop, r => some (.f, r.rd)
  | .copy, _ => none
  | .store, _ => none
  | .branch, _ => none
  | .fload, _ => none
  | .fstore, _ => none
  | .lui, _ => none
  | .ret, _ => none
  | .custom, _ => none

/-- The funct3 values the table of R117 lists for a class; a class that ignores funct3 lists every value. -/
def funct3Listed : InstrClass → Nat → Bool
  | .copy, n => n ≤ 3
  | .load, n => n == 0 || n == 2 || n == 4
  | .store, n => n == 0 || n == 2
  | .opimm, n => n ≤ 2
  | .op, n => n ≤ 2
  | .fop, n => n ≤ 2
  | .branch, n => n ≤ 1
  | .custom, n => n ≤ 2
  | .fload, _ => true
  | .fstore, _ => true
  | .lui, _ => true
  | .ret, _ => true

/-- The sub-opcodes R124 lists for the device a CUSTOM record's funct3 names. -/
def subopListed : Nat → Nat → Bool
  | 0, n => n ≤ 1
  | 1, n => n ≤ 5
  | 2, n => n == 0
  | _, _ => false

/-! ## Running an instruction -/

/-- Core k of s is c and its DR holds the instruction i. -/
abbrev Held (s : State) (k : Nat) (c : Core) (i : Instr) : Prop :=
  s.cores[k]? = some c ∧ decodeRecord s.modes c.dr.record = .ok i

/-- Decode raises nothing on the instruction DR holds: its registers exist and, with STRICT, it does not write x[0]
and no register it reads has a pending write (R112, R211, R214). -/
abbrev Accepted (s : State) (k : Nat) (c : Core) (i : Instr) : Prop :=
  Held s k c i ∧ i.wf = true ∧
    (s.modes.strict = true →
      destOf i ≠ some (.x, 0) ∧ ∀ r ∈ sourcesOf i, c.pendingWrite r.1 r.2 = false)

/-- `exec` answers a next state for instruction i on core k in decode, execute, memory and writeback, one after the
other, from s to t. -/
def RunsThrough (i : Instr) (k : Nat) (s t : State) : Prop :=
  ∃ t1 t2 t3,
    exec i (s.focusOn k .decode) = .next t1 ∧ exec i (t1.focusOn k .execute) = .next t2 ∧
      exec i (t2.focusOn k .memory) = .next t3 ∧ exec i (t3.focusOn k .writeback) = .next t

/-- Core c' is core e with no work in the four pipeline registers and the four stages counted once: what is left when
an instruction whose effect makes e has run through. Everything else of c' is e's. -/
def LeftPipeline (e c' : Core) : Prop :=
  ∃ er mr wr : Latch, er.update = false ∧ mr.update = false ∧ wr.update = false ∧
    c' = { e with
      dr := { e.dr with update := false }
      er := er
      mr := mr
      wr := wr
      actD := e.actD + 1
      actE := e.actE + 1
      actM := e.actM + 1
      actW := e.actW + 1 }

/-- Every register reads in c' as in c. -/
def SameRegisters (c c' : Core) : Prop := ∀ g r, c'.readReg g r = c.readReg g r

/-- Every register but one reads in c' as in c. -/
def SameOtherRegisters (c c' : Core) (g : RegFile) (r : Word) : Prop :=
  ∀ h q, (h, q) ≠ (g, r) → c'.readReg h q = c.readReg h q

/-- Every byte of data memory reads in c' as in c. -/
def SameBytes (c c' : Core) : Prop := ∀ a, c'.byteAt a = c.byteAt a

/-- Instruction i, held by core k of s, runs through; register r of a file then holds v, and nothing else of the
system has changed but the pipeline registers and the stage counters of core k (and the model's focus). -/
def WritesResult (i : Instr) (s : State) (k : Nat) (c : Core) (g : RegFile) (r v : Word) : Prop :=
  ∃ c', RunsThrough i k s ((s.focusOn k .writeback).putCore k c') ∧ LeftPipeline (c.writeReg g r v) c' ∧
    c'.readReg g r = v ∧ SameOtherRegisters c c' g r ∧ SameBytes c c'

/-- Instruction i, held by core k of s, runs through with no other effect. -/
def PassesThrough (i : Instr) (s : State) (k : Nat) (c : Core) : Prop :=
  ∃ c', RunsThrough i k s ((s.focusOn k .writeback).putCore k c') ∧ LeftPipeline c c' ∧
    SameRegisters c c' ∧ SameBytes c c'

/-- Instruction i, held by core k of s, runs through; the n bytes at `base` then hold the n low bytes of v, least
significant first, every other byte and every register is unchanged, and so is the rest of the system. -/
def StoresBytes (i : Instr) (s : State) (k : Nat) (c : Core) (base n : Nat) (v : Word) : Prop :=
  ∃ c' m, RunsThrough i k s ((s.focusOn k .writeback).putCore k c') ∧ LeftPipeline { c with dmem := m } c' ∧
    (∀ j, j < n → c'.byteAt (base + j) = (v >>> (8 * j)).setWidth 8) ∧
    (∀ a, a < base ∨ base + n ≤ a → c'.byteAt a = c.byteAt a) ∧ SameRegisters c c'

/-- Instruction i, held by core k of s, runs through and sends one event, made from the n bytes at `base`, on a port
of the core; no register and no byte changes. -/
def SendsBytes (i : Instr) (s : State) (k : Nat) (c : Core) (base n : Nat) (port : CorePort)
    (event : List Byte → Event) : Prop :=
  ∃ c' payload,
    RunsThrough i k s (((s.focusOn k .writeback).putCore k c').send (.core k port) (event payload)) ∧
      LeftPipeline c c' ∧ payload.length = n ∧ (∀ j, j < n → payload[j]? = some (c.byteAt (base + j))) ∧
      SameRegisters c c' ∧ SameBytes c c'

/-- Instruction i raises a fault in a stage of core k: the answer is a next state that records it and changes nothing
else. -/
def Traps (i : Instr) (s : State) (k : Nat) (st : Stage) (f : FaultRecord) : Prop :=
  exec i (s.focusOn k st) = .next ((s.focusOn k st).raise f)

/-- The four bytes from an address as one word, the byte at the lowest address the least significant (R82). -/
def wordFrom (c : Core) (a : Nat) : Word :=
  c.byteAt (a + 3) ++ c.byteAt (a + 2) ++ c.byteAt (a + 1) ++ c.byteAt a

/-- The address of byte j of a gather load (R236). -/
def gatherAddress (base offsets : Word) (j : Nat) : Nat :=
  (base + ((offsets >>> (8 * j)).setWidth 8).setWidth 32).toNat

/-- A class whose instruction in WR a flush may not discard under STRICT (R202). -/
def losesByFlush (cls : InstrClass) : Prop := cls ∈ [.load, .fload, .opimm, .op, .fop, .lui, .ret]

/-- Stage st of the core holds work. -/
def Core.holds (c : Core) : Stage → Bool
  | .decode => c.dr.update
  | .execute => c.er.update
  | .memory => c.mr.update
  | .writeback => c.wr.update

/-! ## Binary32 values -/

/-- The pattern is a finite number. -/
def IsFinite (w : Word) : Prop := f32Exp w ≠ 255

/-- v is the binary32 number nearest to n / 2^k units of 2^-149, ties to even, past the largest finite magnitude the
infinity of its sign; its sign is n's unless n is 0 (R270). (2^25 - 1) * 2^252 is half way from the largest finite
magnitude to the next power of two. -/
def IsNearest (v : Word) (n : Int) (k : Nat) : Prop :=
  (n ≠ 0 → f32Sign v = decide (n < 0)) ∧
    if n.natAbs < (2 ^ 25 - 1) * 2 ^ 252 * 2 ^ k then
      IsFinite v ∧ ∀ w, IsFinite w →
        (f32Value v * 2 ^ k - n).natAbs ≤ (f32Value w * 2 ^ k - n).natAbs ∧
          (f32Value w ≠ f32Value v → (f32Value w * 2 ^ k - n).natAbs = (f32Value v * 2 ^ k - n).natAbs →
            v.getLsbD 0 = false)
    else isInf v = true

/-! ## Queues and disciplines -/

/-- Ready cycles never fall from head to tail (R155). -/
def DelayQueue.Sorted {α : Type} (q : DelayQueue α) : Prop := q.items.Pairwise fun a b => a.1 ≤ b.1

/-- A discipline of latency L at the start of cycle n: busy exactly when it holds one completion, which is due in one
of the next L cycles; idle only with no request waiting; requests in order of ready cycles, all past. -/
def Discipline.Timely {α : Type} (d : Discipline α) (n L : Nat) : Prop :=
  (d.busy = true → ∃ r req, d.doneq.items = [(r, req)] ∧ n ≤ r ∧ r < n + L) ∧
    (d.busy = false → d.doneq.items = [] ∧ d.inq.items = []) ∧ d.inq.Sorted ∧ ∀ e ∈ d.inq.items, e.1 < n

/-- A link at the start of cycle n: events in the order of their delivery cycles, none overdue, none further off than
the link's latency allows. -/
def Link.Timely (l : Link) (n : Nat) : Prop :=
  (l.queue.Pairwise fun a b => a.1 ≤ b.1) ∧ ∀ e ∈ l.queue, n ≤ e.1 ∧ e.1 < n + l.cfg.latency

/-- Every discipline and every link of the system is timely. -/
structure State.Timely (s : State) : Prop where
  cores : ∀ c ∈ s.cores, c.rx.Timely s.cycle c.cfg.rxLatency
  cams : ∀ c ∈ s.cams, c.disc.Timely s.cycle c.cfg.latency
  mpes : ∀ m ∈ s.mpes, m.disc.Timely s.cycle m.cfg.latency
  mmrs : ∀ m ∈ s.mmrs, m.disc.Timely s.cycle m.cfg.latency
  routers : ∀ r ∈ s.routers, r.up.Timely s.cycle r.cfg.latencyUp ∧ r.down.Timely s.cycle r.cfg.latencyDown
  links : ∀ l ∈ s.links, l.Timely s.cycle

/-- Every core's data memory is in its canonical form. -/
def State.Canonical (s : State) : Prop := ∀ c ∈ s.cores, Memory.wf c.cfg.dmemImage c.dmem = true

/-- Every MPE holds MPE_ROWS rows, and every CAM the thresholds of CAM_ROW_IMAGE (R47, R51). -/
def State.Shaped (s : State) : Prop :=
  (∀ m ∈ s.mpes, m.rows.length = m.cfg.nRows) ∧ ∀ c ∈ s.cams, c.rows = c.cfg.rowImage

/-- One tick of the busy discipline at cycle n: what it performs, and the discipline after (R166). -/
def Discipline.serve {α : Type} (d : Discipline α) (n L : Nat) : List α × Discipline α :=
  match d.complete n with
  | none => ([], d.accept n L)
  | some (req, d') => ([req], d'.accept n L)

/-- What a discipline performs in a number of ticks from cycle n on, with the cycle of each. -/
def Discipline.performed {α : Type} (L : Nat) : Nat → Nat → Discipline α → List (Nat × α)
  | 0, _, _ => []
  | k + 1, n, d => ((d.serve n L).1.map fun req => (n, req)) ++ performed L k (n + 1) (d.serve n L).2

/-- Busy exactly when it holds one completion (R164). -/
def Discipline.Regular {α : Type} (d : Discipline α) : Prop :=
  (d.busy = true → ∃ e, d.doneq.items = [e]) ∧ (d.busy = false → d.doneq.items = [])

/-- The request whose completion is due at cycle n (R166, R153). -/
def Discipline.dueNow {α : Type} (d : Discipline α) (n : Nat) : Option α :=
  match d.busy, d.doneq.items with
  | true, (r, req) :: _ => if r ≤ n then some req else none
  | _, _ => none

/-- The discipline with a due completion taken out (R166, first half). -/
def Discipline.released {α : Type} (d : Discipline α) (n : Nat) : Discipline α :=
  match d.dueNow n with
  | some _ => ⟨false, d.inq, ⟨[], d.doneq.nextAvail⟩⟩
  | none => d

/-- The discipline with the next ready request accepted, its completion due L cycles on (R166, second half). -/
def Discipline.accepted {α : Type} (d : Discipline α) (n L : Nat) : Discipline α :=
  match d.busy, d.inq.items with
  | false, (r, req) :: rest =>
    if r ≤ n then ⟨true, ⟨rest, d.inq.nextAvail⟩, ⟨[(n + L, req)], d.doneq.nextAvail⟩⟩ else d
  | _, _ => d

/-- The discipline after a tick (R166). -/
def Discipline.afterTick {α : Type} (d : Discipline α) (n L : Nat) : Discipline α := (d.released n).accepted n L

/-! ## The host step -/

/-- Hand events to the handlers of their input ports, one after another (R161). -/
def handOver : List (InPort × Event) → State → Except FaultRecord State
  | [], s => .ok s
  | (dst, ev) :: rest, s =>
    match deliverOne dst ev s with
    | .ok t => handOver rest t
    | .error f => .error f

/-- Run the steps of a core's tick in turn, up to a fault or a taken branch; the focus is at rest again after them
(R190, R204). -/
def inTurn : List (State → Host.Outcome State Fault Refusal) → State → Host.Outcome State Fault Refusal
  | [], s => .next { s with focus := .rest }
  | act :: acts, s =>
    match act s with
    | .next t => if t.fault = none ∧ t.focus.tickEnded = false then inTurn acts t else .next { t with focus := .rest }
    | .fault r => .fault r
    | .refused r => .refused r

/-! ## Router groups -/

/-- The aggregation request of events that are grouped together: the header of the first, the payloads joined. -/
def requestOf : List Event → List AggRequest
  | [] => []
  | e :: es => [⟨e.opcode, e.dst, e.src1, e.src2, e.imm, e.payload ++ (es.map Event.payload).flatten⟩]

/-- The left-to-right binary32 sum of words, if no partial sum is a NaN. -/
def exactSum : Word → List Word → Option Word
  | acc, [] => some acc
  | acc, w :: ws =>
    match f32Add acc w with
    | some v => exactSum v ws
    | none => none

/-! ## CAM energy (45_cam.md R340) -/

/-- NIBBLE_ENERGY of the four nibbles of a cell's thresholds. -/
def nibbleSum (cfg : CamConfig) (cell : CamCell) : Rat :=
  cfg.nibbleEnergy[(cell.low >>> 4).toNat]?.getD 0 + cfg.nibbleEnergy[(cell.low &&& 15).toNat]?.getD 0 +
    cfg.nibbleEnergy[(cell.high >>> 4).toNat]?.getD 0 + cfg.nibbleEnergy[(cell.high &&& 15).toNat]?.getD 0

end Sys2Proof.Machine
end

