-- ==== Sys2Proof/Certificates/Slice0/Obligations.lean ====
section
/-! DEFINITION. The statements for the provers, each a `def Obligations.<Name> : Prop`, in the order of
OBLIGATIONS.json. `exec i s` is what instruction i does in the pipeline stage `s.focus` names; `s.focusOn k st` sets
that focus to stage st of core k; that one `exec` is one stage is the model's choice, notes/assumptions/4.md. -/

open Sys2Proof Sys2Proof.Machine

/-! ## Encoding (30_encoding.md) -/

/-- Every instruction, with every value of every operand: the words the encoder writes decode to it (R110, R117). -/
def Obligations.EncodedInstructionsDecodeBack : Prop :=
  ∀ i : Instr, decodeTableWord 224 (wordsToNat (encode i)) = some i

/-- With any OPCODE_MAP, the record of an instruction under an opcode of its class decodes to it (R114); an opcode
the map lacks makes an OPIMM record or, under UNMAPPED_OPCODE = FAULT, no instruction (R115). -/
def Obligations.AnyOpcodeMapDecodesItsRecords : Prop :=
  (∀ (m : Modes) (op : Word) (i : Instr), m.classify op = some i.cls → decodeRecord m (i.record op) = .ok i) ∧
    ∀ (m : Modes) (r : Record), classOf m.opcodeMap r.opcode = none →
      (m.unmappedOpcode = .asOpimm → decodeRecord m r = decodeAs .opimm r) ∧
        (m.unmappedOpcode = .fault → decodeRecord m r = .error .opcode)

/-- A record of a class is an instruction exactly when R117 lists its funct3 and, in class CUSTOM, R124 lists its
sub-opcode; the instruction is of that class. -/
def Obligations.ListedRecordsAreTheInstructions : Prop :=
  ∀ (cls : InstrClass) (r : Record),
    ((∃ i, decodeAs cls r = .ok i) ↔
        funct3Listed cls r.funct3.toNat = true ∧
          (cls = .custom → subopListed r.funct3.toNat r.imm.toNat = true)) ∧
      ∀ i, decodeAs cls r = .ok i → i.cls = cls

/-- Records written out from the tables of R114, R117 and R133 decode to the instructions they stand for. -/
def Obligations.WrittenRecordsDecode : Prop :=
  decode .default [19, 1, 1, 0, 10, 0, 0] = .ok (.addi 1 1 10) ∧
    decode .default [3, 7, 3, 5, 0, 4, 0] = .ok (.lwg 7 3 5 0) ∧
    decode .default [35, 0, 3, 4, 0, 2, 0] = .ok (.sw 3 4 0) ∧
    decode .default [83, 6, 4, 5, 0, 2, 0] = .ok (.fmac8 6 4 5) ∧
    decode .default [99, 0, 2, 0, 2053, 1, 0] = .ok (.bne 2 0 2053) ∧
    decode .default [43, 0, 1, 0, 4, 3, 7] = .ok (.cpyUp 0 1 4 7) ∧
    decode .default [11, 0, 0, 0, 5, 1, 0] = .ok (.mpeDec 0) ∧
    decode .default [103, 0, 0, 0, 0, 0, 0] = .ok .ret

/-! ## Integer instructions (42_integer.md) -/

/-- ADDI and MULI run through and write the sum and the product modulo 2^32 (R240, R242). -/
def Obligations.ImmediateArithmeticWritesResult : Prop :=
  ∀ (s : State) (k : Nat) (c : Core) (rd rs1 imm : Word),
    (Accepted s k c (.addi rd rs1 imm) →
        WritesResult (.addi rd rs1 imm) s k c .x rd (c.readReg .x rs1 + imm)) ∧
      (Accepted s k c (.muli rd rs1 imm) →
        WritesResult (.muli rd rs1 imm) s k c .x rd (c.readReg .x rs1 * imm))

/-- ADD and MUL run through and write the sum and the product modulo 2^32 (R243, R245). -/
def Obligations.RegisterArithmeticWritesResult : Prop :=
  ∀ (s : State) (k : Nat) (c : Core) (rd rs1 rs2 : Word),
    (Accepted s k c (.add rd rs1 rs2) →
        WritesResult (.add rd rs1 rs2) s k c .x rd (c.readReg .x rs1 + c.readReg .x rs2)) ∧
      (Accepted s k c (.mul rd rs1 rs2) →
        WritesResult (.mul rd rs1 rs2) s k c .x rd (c.readReg .x rs1 * c.readReg .x rs2))

/-- SLLI and SLL by less than 32 run through and write the product with the power of two, modulo 2^32 (R241, R244). -/
def Obligations.ShiftsWriteResult : Prop :=
  ∀ (s : State) (k : Nat) (c : Core) (rd rs1 rs2 imm : Word),
    (Accepted s k c (.slli rd rs1 imm) → imm.toNat < 32 →
        WritesResult (.slli rd rs1 imm) s k c .x rd (BitVec.ofNat 32 ((c.readReg .x rs1).toNat * 2 ^ imm.toNat))) ∧
      (Accepted s k c (.sll rd rs1 rs2) → (c.readReg .x rs2).toNat < 32 →
        WritesResult (.sll rd rs1 rs2) s k c .x rd
          (BitVec.ofNat 32 ((c.readReg .x rs1).toNat * 2 ^ (c.readReg .x rs2).toNat)))

/-- SLLI and SLL by 32 or more raise SHIFT_RANGE in execute, with the whole amount (R241, R244). -/
def Obligations.OversizedShiftsTrap : Prop :=
  ∀ (s : State) (k : Nat) (c : Core) (rd rs1 rs2 imm : Word), s.cores[k]? = some c →
    (32 ≤ imm.toNat → Traps (.slli rd rs1 imm) s k .execute ⟨.shiftRange, .shift c.er.ipc imm⟩) ∧
      (32 ≤ c.er.b.toNat → Traps (.sll rd rs1 rs2) s k .execute ⟨.shiftRange, .shift c.er.ipc c.er.b⟩)

/-- LUI runs through and writes the immediate shifted left by LUI_SHIFT, modulo 2^32 (R122, R248). -/
def Obligations.LoadUpperImmediateWritesResult : Prop :=
  ∀ (s : State) (k : Nat) (c : Core) (rd imm : Word), Accepted s k c (.lui rd imm) →
    WritesResult (.lui rd imm) s k c .x rd (BitVec.ofNat 32 (imm.toNat * 2 ^ s.modes.luiShift))

/-- LBU, LW and FLW of bytes inside the memory run through and write the zero-extended byte and the little-endian
word; the address is the base plus the immediate modulo 2^32 (R231, R233, R234, R276). -/
def Obligations.LoadsReadLittleEndianBytes : Prop :=
  ∀ (s : State) (k : Nat) (c : Core) (rd rs1 imm : Word),
    (Accepted s k c (.lbu rd rs1 imm) → (c.readReg .x rs1 + imm).toNat + 1 ≤ c.dmemSize →
        WritesResult (.lbu rd rs1 imm) s k c .x rd ((c.byteAt (c.readReg .x rs1 + imm).toNat).setWidth 32)) ∧
      (Accepted s k c (.lw rd rs1 imm) → (c.readReg .x rs1 + imm).toNat + 4 ≤ c.dmemSize →
        WritesResult (.lw rd rs1 imm) s k c .x rd (wordFrom c (c.readReg .x rs1 + imm).toNat)) ∧
      (Accepted s k c (.flw rd rs1 imm) → (c.readReg .x rs1 + imm).toNat + 4 ≤ c.dmemSize →
        WritesResult (.flw rd rs1 imm) s k c .f rd (wordFrom c (c.readReg .x rs1 + imm).toNat))

/-- LWG whose four byte addresses lie inside the memory runs through and writes the four bytes, byte 0 the least
significant (R235, R236). -/
def Obligations.GatherLoadReadsFourBytes : Prop :=
  ∀ (s : State) (k : Nat) (c : Core) (rd rs1 rs2 imm : Word), Accepted s k c (.lwg rd rs1 rs2 imm) →
    (∀ j, j < 4 → gatherAddress (c.readReg .x rs1 + imm) (c.readReg .x rs2) j + 1 ≤ c.dmemSize) →
      WritesResult (.lwg rd rs1 rs2 imm) s k c .x rd
        (c.byteAt (gatherAddress (c.readReg .x rs1 + imm) (c.readReg .x rs2) 3) ++
          c.byteAt (gatherAddress (c.readReg .x rs1 + imm) (c.readReg .x rs2) 2) ++
          c.byteAt (gatherAddress (c.readReg .x rs1 + imm) (c.readReg .x rs2) 1) ++
          c.byteAt (gatherAddress (c.readReg .x rs1 + imm) (c.readReg .x rs2) 0))

/-- LWG raises DMEM_RANGE in memory at the first of its four byte addresses that lies outside (R236). -/
def Obligations.GatherTrapsOnFirstBadByte : Prop :=
  ∀ (s : State) (k : Nat) (c : Core) (rd rs1 rs2 imm : Word) (j : Nat), s.cores[k]? = some c → j < 4 →
    (∀ i, i < j → gatherAddress (c.mr.a + imm) c.mr.b i + 1 ≤ c.dmemSize) →
      c.dmemSize < gatherAddress (c.mr.a + imm) c.mr.b j + 1 →
        Traps (.lwg rd rs1 rs2 imm) s k .memory ⟨.dmemRange, .address (gatherAddress (c.mr.a + imm) c.mr.b j)⟩

/-- SB, SW and FSW inside the memory run through and store 1 and 4 bytes, least significant first, at the base plus
the immediate modulo 2^32 (R231, R237, R238, R277). -/
def Obligations.StoresWriteTheirBytes : Prop :=
  ∀ (s : State) (k : Nat) (c : Core) (rs1 rs2 imm : Word),
    (Accepted s k c (.sb rs1 rs2 imm) → (c.readReg .x rs1 + imm).toNat + 1 ≤ c.dmemSize →
        StoresBytes (.sb rs1 rs2 imm) s k c (c.readReg .x rs1 + imm).toNat 1 (c.readReg .x rs2)) ∧
      (Accepted s k c (.sw rs1 rs2 imm) → (c.readReg .x rs1 + imm).toNat + 4 ≤ c.dmemSize →
        StoresBytes (.sw rs1 rs2 imm) s k c (c.readReg .x rs1 + imm).toNat 4 (c.readReg .x rs2)) ∧
      (Accepted s k c (.fsw rs1 rs2 imm) → (c.readReg .x rs1 + imm).toNat + 4 ≤ c.dmemSize →
        StoresBytes (.fsw rs1 rs2 imm) s k c (c.readReg .x rs1 + imm).toNat 4 (c.readReg .f rs2))

/-- An access of n bytes at a with a + n > DMEM_SIZE, the sum without wrap, raises DMEM_RANGE with a in the memory
stage and neither reads, writes nor sends: loads, stores and copies (R84, R302). That a copy of 0 bytes from above
DMEM_SIZE is such an access is the model's choice, notes/assumptions/13.md: row 5 of V-COPY says 'any x1'. -/
def Obligations.AccessesOutsideMemoryTrap : Prop :=
  ∀ (s : State) (k : Nat) (c : Core) (rd rs1 rs2 imm tag : Word), s.cores[k]? = some c →
    (∀ p ∈ [(Instr.lbu rd rs1 imm, 1), (.lw rd rs1 imm, 4), (.flw rd rs1 imm, 4), (.sb rs1 rs2 imm, 1),
          (.sw rs1 rs2 imm, 4), (.fsw rs1 rs2 imm, 4)],
        c.dmemSize < (c.mr.a + imm).toNat + p.2 →
          Traps p.1 s k .memory ⟨.dmemRange, .address (c.mr.a + imm).toNat⟩) ∧
      ∀ i ∈ [Instr.cpyCam rd rs1 imm tag, .cpyMpe rd rs1 imm tag, .cpyMmr rd rs1 imm tag, .cpyUp rd rs1 imm tag],
        c.dmemSize < c.mr.a.toNat + imm.toNat → Traps i s k .memory ⟨.dmemRange, .address c.mr.a.toNat⟩

/-! ## Float instructions (43_float.md) -/

/-- FADD, FSUB and FMAC8 whose result is no NaN run through and write it to f[rd]; the old f[rd] is no input of FMAC8
unless it is a source (R278, R279, R280). -/
def Obligations.FloatArithmeticWritesResult : Prop :=
  ∀ (s : State) (k : Nat) (c : Core) (rd rs1 rs2 v : Word),
    (Accepted s k c (.fadd rd rs1 rs2) → f32Add (c.readReg .f rs1) (c.readReg .f rs2) = some v →
        WritesResult (.fadd rd rs1 rs2) s k c .f rd v) ∧
      (Accepted s k c (.fsub rd rs1 rs2) → f32Sub (c.readReg .f rs1) (c.readReg .f rs2) = some v →
        WritesResult (.fsub rd rs1 rs2) s k c .f rd v) ∧
      (Accepted s k c (.fmac8 rd rs1 rs2) → fmac8 (c.readReg .f rs1) (c.readReg .f rs2) = some v →
        WritesResult (.fmac8 rd rs1 rs2) s k c .f rd v)

/-- FADD and FSUB whose result is a NaN run through and write some NaN pattern, about which nothing more is said; the
draw counter of the core is the only other change (R273). -/
def Obligations.FloatNaNResultIsSomeNaN : Prop :=
  ∀ (s : State) (k : Nat) (c : Core) (rd rs1 rs2 : Word) (i : Instr), Accepted s k c i →
    (i = .fadd rd rs1 rs2 ∧ f32Add (c.readReg .f rs1) (c.readReg .f rs2) = none ∨
        i = .fsub rd rs1 rs2 ∧ f32Sub (c.readReg .f rs1) (c.readReg .f rs2) = none) →
      ∃ c' v, isNaN v = true ∧ RunsThrough i k s ((s.focusOn k .writeback).putCore k c') ∧
        LeftPipeline ({ c with nanDraws := c.nanDraws + 1 }.writeReg .f rd v) c' ∧ c'.readReg .f rd = v ∧
        SameOtherRegisters c c' .f rd ∧ SameBytes c c'

/-- `f32_add` and `f32_sub` of finite operands are the nearest binary32 number to the exact sum and difference, ties to
even, subnormals kept; an exact zero is +0.0 unless both addends are negative zeros (R270, R271, R272). -/
def Obligations.FloatAdditionRoundsToNearest : Prop :=
  ∀ a b : Word, IsFinite a → IsFinite b →
    (∃ v, f32Add a b = some v ∧ IsNearest v (f32Value a + f32Value b) 0 ∧
        (f32Value a + f32Value b = 0 → v = if f32Sign a && f32Sign b then 0x80000000 else 0)) ∧
      ∃ v, f32Sub a b = some v ∧ IsNearest v (f32Value a - f32Value b) 0 ∧
        (f32Value a - f32Value b = 0 → v = if f32Sign a && !f32Sign b then 0x80000000 else 0)

/-- `f32_mul` of finite operands is the nearest binary32 number to the exact product, ties to even, with the product of
the signs (R270, R272). -/
def Obligations.FloatMultiplicationRoundsToNearest : Prop :=
  ∀ a b : Word, IsFinite a → IsFinite b →
    ∃ v, f32Mul a b = some v ∧ IsNearest v (f32Value a * f32Value b) 149 ∧
      f32Sign v = (f32Sign a != f32Sign b)

/-- The result is a NaN exactly for a NaN operand, inf - inf and 0 × inf; otherwise an infinite operand gives the
infinity of its sign (of the opposite sign where it is subtracted), or of the product of the signs (R270, R273). -/
def Obligations.InfinitiesAndNaNsFollowIeee : Prop :=
  ∀ a b : Word,
    (f32Add a b = none ↔
        isNaN a = true ∨ isNaN b = true ∨ isInf a = true ∧ isInf b = true ∧ f32Sign a ≠ f32Sign b) ∧
      (f32Sub a b = none ↔
        isNaN a = true ∨ isNaN b = true ∨ isInf a = true ∧ isInf b = true ∧ f32Sign a = f32Sign b) ∧
      (f32Mul a b = none ↔
        isNaN a = true ∨ isNaN b = true ∨ isInf a = true ∧ f32Value b = 0 ∧ isInf b = false ∨
          isInf b = true ∧ f32Value a = 0 ∧ isInf a = false) ∧
      (∀ v, f32Add a b = some v → isInf a = true ∨ isInf b = true →
        v = if isInf a then a else b) ∧
      (∀ v, f32Sub a b = some v → isInf a = true ∨ isInf b = true →
        v = if isInf a then a else b ^^^ 0x80000000) ∧
      (∀ v, f32Mul a b = some v → isInf a = true ∨ isInf b = true →
        v = if f32Sign a != f32Sign b then 0xFF800000 else 0x7F800000)

/-- Every FP8 byte decodes to its value, every product of two is exact, and the multiply-accumulate is the sum, left to
right, of the products of lanes 0 to 3, never a NaN nor infinite (R130, R131, R132, R280, R281). Sign, exponent e and
mantissa m are bits 7, 6 to 3 and 2 to 0; binary32 values count units of 2^-149, in which 2^-6 × (m × 2^-3) is
m × 2^140 and 2^(e-7) × (1 + m × 2^-3) is (8 + m) × 2^(139 + e). -/
def Obligations.Fp8MultiplyAccumulateIsFinite : Prop :=
  (∀ v : Byte,
      f32Value (fp8ToF32 v) = (if v.getLsbD 7 then -1 else 1) *
        (if (v.extractLsb' 3 4).toNat = 0 then ((v.extractLsb' 0 3).toNat : Int) * 2 ^ 140
          else (8 + (v.extractLsb' 0 3).toNat : Int) * 2 ^ (139 + (v.extractLsb' 3 4).toNat)) ∧
      f32Sign (fp8ToF32 v) = v.getLsbD 7) ∧
    (∀ x y : Byte, ∃ p, f32Mul (fp8ToF32 x) (fp8ToF32 y) = some p ∧
      f32Value p * 2 ^ 149 = f32Value (fp8ToF32 x) * f32Value (fp8ToF32 y)) ∧
    ∀ a b : Word, ∃ p0 p1 p2 p3 s1 s2 v,
      f32Mul (fp8ToF32 (a.extractLsb' 0 8)) (fp8ToF32 (b.extractLsb' 0 8)) = some p0 ∧
        f32Mul (fp8ToF32 (a.extractLsb' 8 8)) (fp8ToF32 (b.extractLsb' 8 8)) = some p1 ∧
        f32Mul (fp8ToF32 (a.extractLsb' 16 8)) (fp8ToF32 (b.extractLsb' 16 8)) = some p2 ∧
        f32Mul (fp8ToF32 (a.extractLsb' 24 8)) (fp8ToF32 (b.extractLsb' 24 8)) = some p3 ∧
        f32Add p0 p1 = some s1 ∧ f32Add s1 p2 = some s2 ∧ f32Add s2 p3 = some v ∧ fmac8 a b = some v ∧ IsFinite v

/-! ## Branches and return (42_integer.md) -/

/-- BEQ on unequal and BNE on equal registers run through with no effect: no register, no byte, pc as it was (R255,
R256). -/
def Obligations.BranchNotTakenPassesThrough : Prop :=
  ∀ (s : State) (k : Nat) (c : Core) (rs1 rs2 imm : Word),
    (Accepted s k c (.beq rs1 rs2 imm) → c.readReg .x rs1 ≠ c.readReg .x rs2 →
        PassesThrough (.beq rs1 rs2 imm) s k c) ∧
      (Accepted s k c (.bne rs1 rs2 imm) → c.readReg .x rs1 = c.readReg .x rs2 →
        PassesThrough (.bne rs1 rs2 imm) s k c)

/-- BEQ on equal and BNE on unequal registers: execute resets the pipeline to pc (or the branch's own index) plus the
sign-magnitude offset, lets fetch go on, and ends the tick. WR is emptied too under FLUSH_SCOPE = ALL; where that
would discard a register write or a return under STRICT it traps instead, which the next statement says. Registers and
bytes are unchanged (R121, R202, R204, R256, R257, R258). -/
def Obligations.TakenBranchResetsPipeline : Prop :=
  ∀ (s : State) (k : Nat) (c : Core) (rs1 rs2 imm : Word) (i : Instr), Accepted s k c i →
    (i = .beq rs1 rs2 imm ∧ c.readReg .x rs1 = c.readReg .x rs2 ∨
        i = .bne rs1 rs2 imm ∧ c.readReg .x rs1 ≠ c.readReg .x rs2) →
      (s.modes.strict = true → s.modes.flushScope = .all → c.wr.update = true → ¬ losesByFlush c.wr.cls) →
        ∃ t er c', exec i (s.focusOn k .decode) = .next t ∧
          exec i (t.focusOn k .execute) = .next (((s.focusOn k .execute).putCore k c').endTick true) ∧
          er.update = false ∧
          c' = { c with
            dr := { c.dr with update := false }
            er := er
            mr := { c.mr with update := false }
            wr := { c.wr with update := c.wr.update && decide (s.modes.flushScope = .younger) }
            pc := (if s.modes.branchBase = .fetchPc then c.pc else c.dr.ipc) +
              (if imm.getLsbD 11 then -1 else 1) * (imm.setWidth 8).toNat
            fetchHalted := false
            actD := c.actD + 1
            actE := c.actE + 1 } ∧
          SameRegisters c c' ∧ SameBytes c c'

/-- Under STRICT and FLUSH_SCOPE = ALL a taken branch raises HAZARD_FLUSH in execute when WR holds a register write or
a return (R202, R203). -/
def Obligations.TakenBranchOverPendingWriteTraps : Prop :=
  ∀ (s : State) (k : Nat) (c : Core) (rs1 rs2 imm : Word), s.cores[k]? = some c → s.modes.strict = true →
    s.modes.flushScope = .all → c.wr.update = true → losesByFlush c.wr.cls →
      (c.er.a = c.er.b → Traps (.beq rs1 rs2 imm) s k .execute ⟨.hazardFlush, .ipc c.wr.ipc⟩) ∧
        (c.er.a ≠ c.er.b → Traps (.bne rs1 rs2 imm) s k .execute ⟨.hazardFlush, .ipc c.wr.ipc⟩)

/-- RET runs through and sets `ended`; no register and no byte changes (R198, R262). -/
def Obligations.ReturnRaisesEnded : Prop :=
  ∀ (s : State) (k : Nat) (c : Core), Accepted s k c .ret →
    ∃ c', RunsThrough .ret k s ((s.focusOn k .writeback).putCore k c') ∧
      LeftPipeline { c with ended := true } c' ∧ SameRegisters c c' ∧ SameBytes c c'

/-! ## Copies and device commands (44_device_ops.md) -/

/-- The four copies of bytes inside the memory run through and send one event on their port: the imm bytes at x[rs1],
rd as dst and funct7 as the event's imm, CORE_ID as src1 of the network event (R301 to R306). -/
def Obligations.CopiesSendTheirBytes : Prop :=
  ∀ (s : State) (k : Nat) (c : Core) (rd rs1 n tag : Word), (c.readReg .x rs1).toNat + n.toNat ≤ c.dmemSize →
    (Accepted s k c (.cpyCam rd rs1 n tag) →
        SendsBytes (.cpyCam rd rs1 n tag) s k c (c.readReg .x rs1).toNat n.toNat .camData
          (.a c.dr.record.opcode rd tag)) ∧
      (Accepted s k c (.cpyMpe rd rs1 n tag) →
        SendsBytes (.cpyMpe rd rs1 n tag) s k c (c.readReg .x rs1).toNat n.toNat .mpeData
          (.a c.dr.record.opcode rd tag)) ∧
      (Accepted s k c (.cpyMmr rd rs1 n tag) →
        SendsBytes (.cpyMmr rd rs1 n tag) s k c (c.readReg .x rs1).toNat n.toNat .mmrData
          (.a c.dr.record.opcode rd tag)) ∧
      (Accepted s k c (.cpyUp rd rs1 n tag) →
        SendsBytes (.cpyUp rd rs1 n tag) s k c (c.readReg .x rs1).toNat n.toNat .up
          (.b c.dr.record.opcode rd c.cfg.coreId 0 tag))

/-- The nine device commands, when the core is storing no inbound event, send their command event on their request
port at decode and leave the pipeline there; no register and no byte changes (R194, R308, R320 to R328). So does a
CUSTOM record that names a device with a sub-opcode the device does not list: the core does not check it (R123, R309). -/
def Obligations.DeviceCommandsAreSentAtDecode : Prop :=
  ∀ (s : State) (k : Nat) (c : Core) (rd : Word), c.rx.busy = false →
    (∀ e ∈ [(Instr.camPre rd, CorePort.camReq, (0 : Word)), (.camSrch rd, .camReq, 1), (.mpeRst rd, .mpeReq, 0),
        (.mpeLdt rd, .mpeReq, 1), (.mpeLdb rd, .mpeReq, 2), (.mpeUpd rd, .mpeReq, 3), (.mpePack rd, .mpeReq, 4),
        (.mpeDec rd, .mpeReq, 5), (.mmrExt rd, .mmrReq, 0)],
      Held s k c e.1 →
        ∃ c', exec e.1 (s.focusOn k .decode) =
            .next (((s.focusOn k .decode).putCore k c').send (.core k e.2.1)
              (.a c.dr.record.opcode rd e.2.2 [])) ∧
          c' = { c with dr := { c.dr with update := false }, actD := c.actD + 1 } ∧
          SameRegisters c c' ∧ SameBytes c c') ∧
      ∀ e ∈ [((0 : Nat), CorePort.camReq), (1, .mpeReq), (2, .mmrReq)], s.cores[k]? = some c →
        c.canRun .decode = true → s.modes.classify c.dr.record.opcode = some .custom →
        c.dr.record.funct3.toNat = e.1 → subopListed e.1 c.dr.record.imm.toNat = false →
          runStage k .decode s =
            .next (((s.focusOn k .decode).putCore k
              { c with dr := { c.dr with update := false }, actD := c.actD + 1 }).send (.core k e.2)
                (.a c.dr.record.opcode c.dr.record.rd c.dr.record.imm []))

/-- While the core is storing an inbound event, decode does nothing with a device command: it stays in DR; nor with
any other CUSTOM record, whatever its funct3 and sub-opcode (R194, R195). -/
def Obligations.DeviceCommandsAreHeldWhileBusy : Prop :=
  ∀ (s : State) (k : Nat) (c : Core) (rd : Word), s.cores[k]? = some c → c.rx.busy = true →
    (∀ i ∈ [Instr.camPre rd, .camSrch rd, .mpeRst rd, .mpeLdt rd, .mpeLdb rd, .mpeUpd rd, .mpePack rd, .mpeDec rd,
        .mmrExt rd],
      exec i (s.focusOn k .decode) = .next (s.focusOn k .decode)) ∧
      (c.canRun .decode = true → s.modes.classify c.dr.record.opcode = some .custom →
        runStage k .decode s = .next (s.focusOn k .decode))

/-! ## What decode checks, what fetch reads, where unlisted records fault (41_pipeline.md, 30_encoding.md) -/

/-- Decode of an instruction that uses a register field above 31 raises REG_INDEX, with a field that it uses and that is
out of range; which of several is a free value of the model, notes/assumptions/10.md (R112). -/
def Obligations.BadRegisterFieldTraps : Prop :=
  ∀ (s : State) (k : Nat) (c : Core) (i : Instr), Held s k c i → i.wf = false →
    ∃ field ∈ fieldsOf i, 32 ≤ (fieldOf c.dr.record field).toNat ∧
      Traps i s k .decode ⟨.regIndex, .regIndex c.dr.ipc field⟩

/-- Under STRICT, decode of a well-formed instruction that writes x[0] raises X0_WRITE (R214, R215). -/
def Obligations.WriteOfX0TrapsUnderStrict : Prop :=
  ∀ (s : State) (k : Nat) (c : Core) (i : Instr), Held s k c i → i.wf = true → s.modes.strict = true →
    destOf i = some (.x, 0) → Traps i s k .decode ⟨.x0Write, .ipc c.dr.ipc⟩

/-- Under STRICT, decode of a well-formed instruction that does not write x[0] raises HAZARD_RAW on the first of its
sources, rs1 before rs2, that an instruction in ER, MR or WR will write (R211, R215). -/
def Obligations.PendingSourceTrapsUnderStrict : Prop :=
  ∀ (s : State) (k : Nat) (c : Core) (i : Instr) (file : RegFile) (r : Word), Held s k c i → i.wf = true →
    s.modes.strict = true → destOf i ≠ some (.x, 0) →
      (sourcesOf i).find? (fun e => c.pendingWrite e.1 e.2) = some (file, r) →
        Traps i s k .decode ⟨.hazardRaw, .register c.dr.ipc file r⟩

/-- Fetch, when DR is empty and fetch is not halted: outside the program it raises PC_RANGE; inside it puts the record
at pc into DR, advances pc and halts itself after a record of class RETURN (R196). -/
def Obligations.FetchReadsTheRecordAtPc : Prop :=
  ∀ (m : Modes) (c : Core), c.dr.update = false → c.fetchHalted = false →
    ((c.pc < 0 ∨ (c.imem.length : Int) ≤ c.pc) → c.fetch m = .error ⟨.pcRange, .pc c.pc⟩) ∧
      ∀ (n : Nat) (r : Record), c.pc = n → c.imem[n]? = some r →
        c.fetch m = .ok { c with
          dr := ⟨true, r, c.pc⟩
          pc := c.pc + 1
          actF := c.actF + 1
          fetchHalted := decide (m.classify r.opcode = some .ret) }

/-- A record with a funct3 its class does not list faults in the stage R117 names, with its index, class and funct3; an
opcode OPCODE_MAP lacks under UNMAPPED_OPCODE = FAULT faults at decode. Before its fault, decode checks the registers
its class uses as it does for any instruction, and passes the record on; execute passes on what faults in memory
(R112, R115, R117, R119, R211, R214, R215, R239, R246, R259, R282, R307, R308). -/
def Obligations.UnlistedRecordsFaultInTheirStage : Prop :=
  ∀ (s : State) (k : Nat) (c : Core), s.cores[k]? = some c →
    (∀ cls ∈ [InstrClass.copy, .load, .store, .opimm, .op, .fop, .branch], c.canRun .decode = true →
        s.modes.classify c.dr.record.opcode = some cls → funct3Listed cls c.dr.record.funct3.toNat = false →
        let r := c.dr.record
        let fits := ∀ field ∈ classFields cls, (fieldOf r field).toNat < 32
        (fits → (s.modes.strict = true → classDest cls r ≠ some (.x, 0) ∧
            ∀ e ∈ classSources cls r, c.pendingWrite e.1 e.2 = false) →
          ∃ l : Latch, l.update = true ∧ l.cls = cls ∧ l.record = r ∧ l.ipc = c.dr.ipc ∧
            runStage k .decode s = .next ((s.focusOn k .decode).putCore k
              { c with er := l, dr := { c.dr with update := false }, actD := c.actD + 1 })) ∧
        (¬ fits → ∃ field ∈ classFields cls, 32 ≤ (fieldOf r field).toNat ∧
          runStage k .decode s = .next ((s.focusOn k .decode).raise ⟨.regIndex, .regIndex c.dr.ipc field⟩)) ∧
        (fits → s.modes.strict = true → classDest cls r = some (.x, 0) →
          runStage k .decode s = .next ((s.focusOn k .decode).raise ⟨.x0Write, .ipc c.dr.ipc⟩)) ∧
        ∀ file q, fits → s.modes.strict = true → classDest cls r ≠ some (.x, 0) →
          (classSources cls r).find? (fun e => c.pendingWrite e.1 e.2) = some (file, q) →
            runStage k .decode s =
              .next ((s.focusOn k .decode).raise ⟨.hazardRaw, .register c.dr.ipc file q⟩)) ∧
      (c.canRun .execute = true → c.er.cls ∈ [.load, .store, .copy] →
        funct3Listed c.er.cls c.er.funct3.toNat = false →
          runStage k .execute s = .next ((s.focusOn k .execute).putCore k
            { c with mr := c.er, er := { c.er with update := false }, actE := c.actE + 1 })) ∧
      (c.canRun .execute = true → c.er.cls ∈ [.opimm, .op, .fop, .branch] →
        funct3Listed c.er.cls c.er.funct3.toNat = false →
          runStage k .execute s = .next
            ((s.focusOn k .execute).raise ⟨.unmappedExecute, .form c.er.ipc c.er.cls c.er.funct3⟩)) ∧
      (c.canRun .memory = true → c.mr.cls ∈ [.load, .store, .copy] →
        funct3Listed c.mr.cls c.mr.funct3.toNat = false →
          runStage k .memory s = .next
            ((s.focusOn k .memory).raise ⟨.unmappedMemory, .form c.mr.ipc c.mr.cls c.mr.funct3⟩)) ∧
      (c.canRun .decode = true → s.modes.classify c.dr.record.opcode = some .custom → c.rx.busy = false →
        funct3Listed .custom c.dr.record.funct3.toNat = false →
          runStage k .decode s = .next
            ((s.focusOn k .decode).raise ⟨.unmappedDecode, .form c.dr.ipc .custom c.dr.record.funct3⟩)) ∧
      (c.canRun .decode = true → s.modes.classify c.dr.record.opcode = none →
        runStage k .decode s = .next
          ((s.focusOn k .decode).raise ⟨.unmappedDecode, .opcode c.dr.record.opcode⟩))

/-- Whatever the instruction and the stage: registers and `ended` change in writeback only, data memory in memory
only, pc and the halt of fetch in execute only, events leave in decode and memory only; configuration, instruction
memory, the receive, every other core and component, the modes and the cycle never change (R30, R34, R35, R36, R37, R42,
R196, R202). -/
def Obligations.StagesOwnTheirState : Prop :=
  ∀ (i : Instr) (s t : State) (k : Nat) (st : Stage) (c : Core), s.cores[k]? = some c →
    exec i (s.focusOn k st) = .next t →
      ∃ c', t.cores[k]? = some c' ∧ c'.cfg = c.cfg ∧ c'.imem = c.imem ∧ c'.rx = c.rx ∧
        (st ≠ .writeback → c'.x = c.x ∧ c'.f = c.f ∧ c'.ended = c.ended) ∧
        (st ≠ .memory → c'.dmem = c.dmem) ∧
        (st ≠ .execute → c'.pc = c.pc ∧ c'.fetchHalted = c.fetchHalted) ∧
        (st ≠ .decode → st ≠ .memory → t.links = s.links) ∧
        (∀ j, j ≠ k → t.cores[j]? = s.cores[j]?) ∧ t.cams = s.cams ∧ t.mpes = s.mpes ∧ t.mmrs = s.mmrs ∧
        t.routers = s.routers ∧ t.modes = s.modes ∧ t.cycle = s.cycle

/-! ## The host step (40_delay_queue.md, 60_exceptions.md) -/

/-- A step runs the decoded instruction. In a system of one core with nothing under way but instruction i in one
stage's register: the step is `exec i` in that stage, then fetch unless a taken branch ended the tick, then the next
cycle; a fault of either is recorded and discards the rest (R168, R190, R191, R204, R442). -/
def Obligations.StepRunsDecodedInstruction : Prop :=
  ∀ (s : State) (c : Core) (i : Instr) (st : Stage), s.fault = none → s.problem = none → s.focus = .rest →
    s.cores = [c] → s.cams = [] → s.mpes = [] → s.mmrs = [] → s.routers = [] → (∀ l ∈ s.links, l.queue = []) →
    c.rx.busy = false → c.rx.inq.items = [] → (∀ st', c.holds st' = decide (st' = st)) →
    c.stageForm s.modes st = .ok i →
      ∃ t, exec i (s.focusOn 0 st) = .next t ∧
        (∀ f, t.fault = some f → step s = .next (s.raise f)) ∧
        (t.fault = none → t.focus.tickEnded = true →
          step s = .next { t with focus := .rest, cycle := s.cycle + 1 }) ∧
        (t.fault = none → t.focus.tickEnded = false → ∃ c1, t.cores = [c1] ∧
          (∀ f, c1.fetch s.modes = .error f → step s = .next (s.raise f)) ∧
          (∀ c2, c1.fetch s.modes = .ok c2 →
            step s = .next { t with cores := [c2], focus := .rest, cycle := s.cycle + 1 }))

/-- In any system, a stage of a core whose input register holds work and whose output register is free runs `exec` of
the instruction its input register holds; any other stage does nothing. A core's tick is receive, writeback, memory,
execute, decode and fetch, in this order, up to a fault or a taken branch (R190, R191, R204). -/
def Obligations.StagesRunTheirInstruction : Prop :=
  (∀ (s : State) (k : Nat) (c : Core) (st : Stage), s.cores[k]? = some c →
    (∀ i, c.canRun st = true → c.stageForm s.modes st = .ok i → runStage k st s = exec i (s.focusOn k st)) ∧
      (c.canRun st = false → runStage k st s = .next s)) ∧
    ∀ (s : State) (k : Nat),
      tickCore k s = inTurn [runReceive k, runStage k .writeback, runStage k .memory, runStage k .execute,
        runStage k .decode, runFetch k] { s with focus := .rest }

/-- The order of the ticks does not matter: every order answers, leaves the same state, and meets the same faults
(R168, R169). -/
def Obligations.TickOrderDoesNotMatter : Prop :=
  ∀ (s : State) (order : List (State → Host.Outcome State Fault Refusal)), s.fault = none → order.Perm s.ticks →
    ∃ faults faults' u, runTicks s.ticks [] s = .next (faults, u) ∧ runTicks order [] s = .next (faults', u) ∧
      faults.Perm faults'

/-- A system with a fault recorded takes no step; one whose configuration is refused has none; every other system
answers a next state, which is either one cycle on with no fault, or the state before with the fault recorded and
nothing else changed; that a fault is a next state is the model's choice, notes/assumptions/14.md (R31, R168, R442,
R445). -/
def Obligations.StepIsACycleOrARecordedFault : Prop :=
  ∀ s : State,
    (∀ f, s.fault = some f → step s = .fault (.halted f)) ∧
      (∀ p, s.fault = none → s.problem = some p → step s = .refused (.config p)) ∧
      (s.fault = none → s.problem = none → ∃ t, step s = .next t ∧
        (t.fault = none ∧ t.cycle = s.cycle + 1 ∨ ∃ f, t = s.raise f))

/-- No step changes the modes, any component's configuration, any instruction memory, any CAM threshold or the number
of MPE rows (R8, R34, R47, R51, R97, R337). -/
def Obligations.ConfigurationNeverChanges : Prop :=
  ∀ s t : State, step s = .next t →
    t.config = s.config ∧ t.cores.map Core.imem = s.cores.map Core.imem ∧ t.cams.map Cam.rows = s.cams.map Cam.rows ∧
      (s.Shaped → t.Shaped)

/-- `ended`, once set, stays set (R42, R262). -/
def Obligations.EndedIsNeverCleared : Prop :=
  ∀ (s t : State) (k : Nat) (c c' : Core), step s = .next t → s.cores[k]? = some c → t.cores[k]? = some c' →
    c.ended = true → c'.ended = true

/-- Every step keeps every core's data memory in its canonical form: addresses strictly rising, inside the memory, no
byte equal to DMEM_IMAGE's listed. The form is the model's own choice, notes/assumptions/17.md (R37, R84). -/
def Obligations.StepKeepsMemoryCanonical : Prop :=
  ∀ s t : State, s.Canonical → step s = .next t → t.Canonical

/-- Every step keeps every link and every busy discipline timely: a busy component holds exactly one completion, due
within its latency; an idle one has no request waiting; requests stand in order of their ready cycles; no event on a
link is overdue or further off than the link's latency (R155, R160, R161, R164, R166). -/
def Obligations.StepKeepsQueuesTimely : Prop :=
  ∀ s t : State, s.Timely → step s = .next t → t.Timely

/-- The reset state of every configuration has every memory canonical (the model's own form, notes/assumptions/17.md),
every queue timely, every MPE its rows and every CAM its thresholds (R480). -/
def Obligations.BootMeetsInvariants : Prop :=
  ∀ cfg : Config, (State.boot cfg).Canonical ∧ (State.boot cfg).Timely ∧ (State.boot cfg).Shaped

/-- The reset state: cycle 0, no fault, empty links; every core at pc 0 with every register 0, every byte DMEM_IMAGE's,
no work in the pipeline, not busy, not halted, not ended, the counters 0; every device and router as R480 says. -/
def Obligations.BootStateIsReset : Prop :=
  ∀ cfg : Config,
    (State.boot cfg).cycle = 0 ∧ (State.boot cfg).fault = none ∧ (∀ l ∈ (State.boot cfg).links, l.queue = []) ∧
      (∀ (k : Nat) (cc : CoreConfig), cfg.cores[k]? = some cc → ∃ c, (State.boot cfg).cores[k]? = some c ∧
        c.cfg = cc ∧ c.pc = 0 ∧ c.imem = recordsOf cc.imemImage ∧ (∀ g r, c.readReg g r = 0) ∧
        (∀ a, a < cc.dmemImage.length → cc.dmemImage[a]? = some (c.byteAt a)) ∧
        (∀ st, c.holds st = false) ∧ c.rx = .idle ∧ c.fetchHalted = false ∧ c.ended = false ∧
        c.actF = 0 ∧ c.actD = 0 ∧ c.actE = 0 ∧ c.actM = 0 ∧ c.actW = 0) ∧
      (∀ (j : Nat) (cc : CamConfig), cfg.cams[j]? = some cc → ∃ c, (State.boot cfg).cams[j]? = some c ∧
        c.cfg = cc ∧ c.rows = cc.rowImage ∧ c.query = none ∧ c.disc = .idle ∧ c.eLeak = 0 ∧ c.eCd = 0 ∧ c.eSa = 0 ∧
        c.ePc = 0 ∧ c.eCell = 0 ∧ c.eReg = 0 ∧ c.eStatic = 0) ∧
      (∀ (j : Nat) (mc : MpeConfig), cfg.mpes[j]? = some mc → ∃ m, (State.boot cfg).mpes[j]? = some m ∧
        m.cfg = mc ∧ m.data = none ∧ m.disc = .idle ∧ m.rows.length = mc.nRows ∧
        ∀ row ∈ m.rows, row = ⟨0, 0, 0, 0, 1, 1, 1⟩) ∧
      (∀ (j : Nat) (mc : MmrConfig), cfg.mmrs[j]? = some mc → ∃ m, (State.boot cfg).mmrs[j]? = some m ∧
        m.cfg = mc ∧ m.pos = none ∧ m.neg = none ∧ m.disc = .idle) ∧
      ∀ (j : Nat) (rc : RouterConfig), cfg.routers[j]? = some rc → ∃ r, (State.boot cfg).routers[j]? = some r ∧
        r.cfg = rc ∧ r.childIn.length = rc.nChildren ∧ (∀ q ∈ r.childIn, q = []) ∧ r.up = .idle ∧ r.down = .idle

/-! ## Queues, links and the busy discipline (40_delay_queue.md) -/

/-- Pushes of either policy keep the ready cycles in order, and pop returns the head exactly when it is ready; nothing
else leaves a queue (R151, R152, R153, R155, R158). -/
def Obligations.QueueKeepsReadyOrder : Prop :=
  ∀ (α : Type) (q : DelayQueue α) (c d : Nat) (item : α), q.Sorted →
    (q.pushChained c d item).Sorted ∧ (q.pushThrottled c d item).Sorted ∧ (q.pop c).2.Sorted ∧
      (q.pushChained c d item).items.map Prod.snd = q.items.map Prod.snd ++ [item] ∧
      (q.pushThrottled c d item).items.map Prod.snd = q.items.map Prod.snd ++ [item] ∧
      (∀ x, (q.pop c).1 = some x → ∃ r, r ≤ c ∧ q.items = (r, x) :: (q.pop c).2.items) ∧
      ((q.pop c).1 = none → (q.pop c).2 = q ∧ ∀ e ∈ q.items, c < e.1)

/-- k requests queued together at cycle n in an idle discipline of latency L are performed at n + L, n + 2L, ..., n + kL
in order. One tick serves what is due, then accepts the next request that is ready. The ticks of a CAM, an MPE and an
MMR perform exactly what their discipline serves with their own latency, a fault of the command being the tick's
(R163, R165, R166, R167). -/
def Obligations.RequestsAreServedEveryLatency : Prop :=
  (∀ (d : Discipline Event) (n L : Nat) (reqs : List Event), 0 < L → d.busy = false → d.inq.items = [] →
    d.doneq.items = [] →
      Discipline.performed L (reqs.length * L + 1) n (reqs.foldl (fun e req => e.enqueue n req) d) =
        reqs.zipIdx.map fun e => (n + (e.2 + 1) * L, e.1)) ∧
    (∀ (d : Discipline Event) (n L : Nat), d.Regular → d.serve n L = ((d.dueNow n).toList, d.afterTick n L)) ∧
    (∀ (cam : Cam) (n : Nat),
      ((cam.disc.serve n cam.cfg.latency).1 = [] →
          cam.tick n = .ok ({ cam with disc := (cam.disc.serve n cam.cfg.latency).2 }, none)) ∧
        ∀ req, (cam.disc.serve n cam.cfg.latency).1 = [req] →
          (∀ f, cam.perform req = .error f → cam.tick n = .error f) ∧
            ∀ cam' out, cam.perform req = .ok (cam', out) →
              cam.tick n = .ok ({ cam' with disc := (cam.disc.serve n cam.cfg.latency).2 }, out)) ∧
    (∀ (mpe : Mpe) (n : Nat),
      ((mpe.disc.serve n mpe.cfg.latency).1 = [] →
          mpe.tick n = .ok ({ mpe with disc := (mpe.disc.serve n mpe.cfg.latency).2 }, none)) ∧
        ∀ req, (mpe.disc.serve n mpe.cfg.latency).1 = [req] →
          (∀ f, mpe.perform req = .error f → mpe.tick n = .error f) ∧
            ∀ mpe' out, mpe.perform req = .ok (mpe', out) →
              mpe.tick n = .ok ({ mpe' with disc := (mpe.disc.serve n mpe.cfg.latency).2 }, out)) ∧
    ∀ (mmr : Mmr) (n : Nat),
      ((mmr.disc.serve n mmr.cfg.latency).1 = [] →
          mmr.tick n = .ok ({ mmr with disc := (mmr.disc.serve n mmr.cfg.latency).2 }, none)) ∧
        ∀ req, (mmr.disc.serve n mmr.cfg.latency).1 = [req] →
          (∀ f, mmr.perform req = .error f → mmr.tick n = .error f) ∧
            ∀ mmr' out, mmr.perform req = .ok (mmr', out) →
              mmr.tick n = .ok ({ mmr' with disc := (mmr.disc.serve n mmr.cfg.latency).2 }, out)

/-- `send` puts the event on the first link that leaves the port, behind what travels there, due LINK_LATENCY cycles
on, and changes nothing else; from a port that is not linked the event is discarded (R160). -/
def Obligations.SendReachesTheLinkedPort : Prop :=
  ∀ (s : State) (port : OutPort) (ev : Event),
    ((∀ l ∈ s.links, l.cfg.src ≠ port) → s.send port ev = s) ∧
      ∀ (before after : List Link) (l : Link), s.links = before ++ l :: after → (∀ m ∈ before, m.cfg.src ≠ port) →
        l.cfg.src = port →
          s.send port ev =
            { s with links := before ++ { l with queue := l.queue ++ [(s.cycle + l.cfg.latency, ev)] } :: after }

/-- The events due are those at the front of the link whose cycle has come, in the order sent, and they leave it.
Delivery takes them from every link and, link by link in some order, hands each to the handler of the link's input
port, which queues it, latches it or appends it; the fault of a latch is the delivery's (R161, R162, R316, R361, R411,
R420). Which order the host takes is a free value of the model, notes/assumptions/18.md. -/
def Obligations.DeliveryHandsOverDueEvents : Prop :=
  (∀ (l : Link) (n : Nat), l.Timely n →
      l.due n = (l.queue.takeWhile fun e => decide (e.1 ≤ n)).map Prod.snd ∧
        l.keep n = { l with queue := l.queue.dropWhile fun e => decide (e.1 ≤ n) } ∧
        l.queue.map Prod.snd = l.due n ++ (l.keep n).queue.map Prod.snd) ∧
    (∀ s : State, ∃ order : List Link, order.Perm s.links ∧
      (∀ t, handOver (order.flatMap fun l => (l.due s.cycle).map fun ev => (l.cfg.dst, ev))
          { s with links := s.links.map fun l => l.keep s.cycle } = .ok t → s.deliver = ([], t)) ∧
      ∀ f, handOver (order.flatMap fun l => (l.due s.cycle).map fun ev => (l.cfg.dst, ev))
          { s with links := s.links.map fun l => l.keep s.cycle } = .error f → ∃ fs t, s.deliver = (f :: fs, t)) ∧
    ∀ (s : State) (ev : Event),
      (∀ k p c, s.cores[k]? = some c →
        deliverOne (.rx k p) ev s = .ok (s.putCore k { c with rx := c.rx.enqueue s.cycle (p, ev) })) ∧
      (∀ j m, s.cams[j]? = some m →
        deliverOne (.camReq j) ev s = .ok (s.putCam j { m with disc := m.disc.enqueue s.cycle ev }) ∧
          (∀ m', m.latchQuery ev.payload = .ok m' → deliverOne (.camData j) ev s = .ok (s.putCam j m')) ∧
          ∀ f, m.latchQuery ev.payload = .error f → deliverOne (.camData j) ev s = .error f) ∧
      (∀ j m, s.mpes[j]? = some m →
        deliverOne (.mpeReq j) ev s = .ok (s.putMpe j { m with disc := m.disc.enqueue s.cycle ev }) ∧
          deliverOne (.mpeData j) ev s = .ok (s.putMpe j { m with data := some ev.payload })) ∧
      (∀ j m, s.mmrs[j]? = some m →
        deliverOne (.mmrReq j) ev s = .ok (s.putMmr j { m with disc := m.disc.enqueue s.cycle ev }) ∧
          (∀ m', m.latchHalves ev.payload = .ok m' → deliverOne (.mmrData j) ev s = .ok (s.putMmr j m')) ∧
          ∀ f, m.latchHalves ev.payload = .error f → deliverOne (.mmrData j) ev s = .error f) ∧
      ∀ j r, s.routers[j]? = some r →
        deliverOne (.parentDown j) ev s = .ok (s.putRouter j { r with down := r.down.enqueue s.cycle ev }) ∧
          ∀ k q, r.childIn[k]? = some q → deliverOne (.childUp j k) ev s =
            .ok (s.putRouter j { r with childIn := r.childIn.set k (q ++ [ev]) })

/-! ## Devices and router (45_cam.md to 48_router.md) -/

/-- A CAM row matches exactly when every active column passes: above `low` unless it is don't-care, and not above
`high` unless that is don't-care (R332, R333). -/
def Obligations.CamRowMatchesColumnwise : Prop :=
  ∀ (row : List CamCell) (data : List Byte) (mask : List Bool), data.length = row.length → mask.length = row.length →
    (rowMatches row data mask = true ↔
      ∀ (j : Nat) (cell : CamCell) (d : Byte), row[j]? = some cell → data[j]? = some d → mask[j]? = some true →
        (cell.lowX = false → cell.low.toNat < d.toNat) ∧ (cell.highX = false → d.toNat ≤ cell.high.toNat))

/-- CAM search: one byte per row, 1 for a match and 0 else, under the command's header; the six energy terms grow by
their increments; thresholds, query and the static term stay. Without a query it raises DEVICE_DATA. What a CAM's tick
emits is sent on its `out` port, and a fault of the tick is recorded (R165, R334, R340). -/
def Obligations.CamSearchReportsEveryRow : Prop :=
  (∀ (cam : Cam) (req : Event), req.imm = 1 →
    (cam.query = none → cam.perform req = .error ⟨.deviceData, .data .cam none⟩) ∧
      ∀ data mask, cam.query = some (data, mask) → ∃ (cam' : Cam) (v : List Byte),
        cam.perform req = .ok (cam', some (.a req.opcode req.dst req.imm v)) ∧ v.length = cam.rows.length ∧
          (∀ (r : Nat) (row : List CamCell), cam.rows[r]? = some row →
            v[r]? = some (if rowMatches row data mask then 1 else 0)) ∧
          cam'.eLeak = cam.eLeak + (cam.rows.flatten.map (nibbleSum cam.cfg)).sum ∧
          cam'.eCd = cam.eCd + cam.cfg.kCd * (mask.count true : Nat) ∧
          cam'.eSa = cam.eSa + cam.cfg.kSa * (cam.cfg.nRows : Nat) ∧
          cam'.ePc = cam.ePc + cam.cfg.kPc * (cam.cfg.nRows : Nat) ∧
          cam'.eCell = cam.eCell + cam.cfg.kCell * (cam.cfg.nRows : Nat) * (mask.count true : Nat) ∧
          cam'.eReg = cam.eReg + cam.cfg.kReg * (cam.cfg.nRows : Nat) ∧ cam'.eStatic = cam.eStatic ∧
          cam'.cfg = cam.cfg ∧ cam'.rows = cam.rows ∧ cam'.query = cam.query ∧ cam'.disc = cam.disc) ∧
    ∀ (s : State) (j : Nat) (cam : Cam), s.cams[j]? = some cam →
      (∀ f, cam.tick s.cycle = .error f → tickCam j s = .next (s.raise f)) ∧
        (∀ cam', cam.tick s.cycle = .ok (cam', none) → tickCam j s = .next (s.putCam j cam')) ∧
        ∀ cam' ev, cam.tick s.cycle = .ok (cam', some ev) →
          tickCam j s = .next ((s.putCam j cam').send (.camOut j) ev)

/-- CAM precharge adds to the precharge energy alone and sends nothing; a command number no device lists raises
DEVICE_SUBOP (R124, R330, R335, R360, R390). -/
def Obligations.PrechargeAndUnknownCommands : Prop :=
  ∀ req : Event,
    (∀ cam : Cam, (req.imm = 0 →
          cam.perform req = .ok ({ cam with ePc := cam.ePc + cam.cfg.kPc * (cam.cfg.nRows : Nat) }, none)) ∧
        (1 < req.imm.toNat → cam.perform req = .error ⟨.deviceSubop, .subop .cam req.imm⟩)) ∧
      (∀ mpe : Mpe, 5 < req.imm.toNat → mpe.perform req = .error ⟨.deviceSubop, .subop .mpe req.imm⟩) ∧
      ∀ mmr : Mmr, 0 < req.imm.toNat → mmr.perform req = .error ⟨.deviceSubop, .subop .mmr req.imm⟩

/-- The CAM's and the MMR's data latches take exactly twice their width, first half and second half, and raise
DEVICE_DATA with the length for any other payload (R331, R391). -/
def Obligations.DataLatchesSplitTheirPayload : Prop :=
  (∀ (cam : Cam) (q : List Byte),
      (q.length = 2 * cam.cfg.nCols → ∃ data mask,
        cam.latchQuery q = .ok { cam with query := some (data, mask) } ∧ data.length = cam.cfg.nCols ∧
          mask.length = cam.cfg.nCols ∧
          ∀ j, j < cam.cfg.nCols → data[j]? = q[j]? ∧ mask[j]? = (q[cam.cfg.nCols + j]?).map fun b => b != 0) ∧
      (q.length ≠ 2 * cam.cfg.nCols → cam.latchQuery q = .error ⟨.deviceData, .data .cam (some q.length)⟩)) ∧
    ∀ (mmr : Mmr) (v : List Byte),
      (v.length = 2 * mmr.cfg.nRows → ∃ p n,
        mmr.latchHalves v = .ok { mmr with pos := some p, neg := some n } ∧ v = p ++ n ∧
          p.length = mmr.cfg.nRows ∧ n.length = mmr.cfg.nRows) ∧
      (v.length ≠ 2 * mmr.cfg.nRows → mmr.latchHalves v = .error ⟨.deviceData, .data .mmr (some v.length)⟩)

/-- MPE commands 0 to 3: reset, load t, load b, update, row by row and modulo 256, with nothing sent; a load without a
payload of MPE_ROWS bytes raises DEVICE_DATA (R362, R363, R364, R365, R366). -/
def Obligations.MpeCommandsUpdateRows : Prop :=
  ∀ (mpe : Mpe) (req : Event), mpe.rows.length = mpe.cfg.nRows →
    (req.imm = 0 → ∃ rows : List MpeRow, mpe.perform req = .ok ({ mpe with rows := rows }, none) ∧
        rows.length = mpe.rows.length ∧ ∀ (r : Nat) (row : MpeRow), mpe.rows[r]? = some row →
          rows[r]? = some { row with n := 0, s := 0, p := 1, up := 1, down := 1 }) ∧
      (∀ d : List Byte, mpe.data = some d → d.length = mpe.cfg.nRows →
        (req.imm = 1 → ∃ rows : List MpeRow, mpe.perform req = .ok ({ mpe with rows := rows }, none) ∧
          rows.length = mpe.rows.length ∧
          ∀ (r : Nat) (row : MpeRow) (v : Byte), mpe.rows[r]? = some row → d[r]? = some v →
            rows[r]? = some { row with t := v }) ∧
        (req.imm = 2 → ∃ rows : List MpeRow, mpe.perform req = .ok ({ mpe with rows := rows }, none) ∧
          rows.length = mpe.rows.length ∧
          ∀ (r : Nat) (row : MpeRow) (v : Byte), mpe.rows[r]? = some row → d[r]? = some v →
            rows[r]? = some { row with b := v })) ∧
      (req.imm = 1 ∨ req.imm = 2 →
        (mpe.data = none → mpe.perform req = .error ⟨.deviceData, .data .mpe none⟩) ∧
          ∀ d : List Byte, mpe.data = some d → d.length ≠ mpe.cfg.nRows →
            mpe.perform req = .error ⟨.deviceData, .data .mpe (some d.length)⟩) ∧
      (req.imm = 3 → ∃ rows : List MpeRow, mpe.perform req = .ok ({ mpe with rows := rows }, none) ∧
        rows.length = mpe.rows.length ∧ ∀ (r : Nat) (row : MpeRow), mpe.rows[r]? = some row → ∃ n s p : Byte,
          rows[r]? = some { row with n := n, s := s, p := p } ∧
            n.toNat = (row.n.toNat + (if row.t.getLsbD 0 = row.b.getLsbD 0 then 0 else 1)) % 256 ∧
            s.toNat = (row.s.toNat + (if row.t.getLsbD 0 && !row.b.getLsbD 0 then 1 else 0)) % 256 ∧
            p = if row.t.getLsbD 0 || row.b.getLsbD 0 then row.p else 0)

/-- MPE commands 4 and 5: pack sends 8(n mod 8) + s mod 8 of every row and changes nothing; decide sets up and down of
every row, the last one's to 1, and sends all up then all down. Pack goes out on the MPE's `resp` port, decide on its
`out` port, when the MPE's tick performs them; a fault of the tick is recorded (R165, R362, R367, R368). -/
def Obligations.MpePacksAndDecides : Prop :=
  (∀ (mpe : Mpe) (req : Event),
    (req.imm = 4 → ∃ v : List Byte, mpe.perform req = .ok (mpe, some (.resp, .a req.opcode req.dst req.imm v)) ∧
        v.length = mpe.rows.length ∧ ∀ (r : Nat) (row : MpeRow), mpe.rows[r]? = some row →
          v[r]?.map BitVec.toNat = some (8 * (row.n.toNat % 8) + row.s.toNat % 8)) ∧
      (req.imm = 5 → ∃ rows : List MpeRow, mpe.perform req = .ok ({ mpe with rows := rows },
          some (.out, .a req.opcode req.dst req.imm (rows.map MpeRow.up ++ rows.map MpeRow.down))) ∧
        rows.length = mpe.rows.length ∧ ∀ (r : Nat) (row : MpeRow), mpe.rows[r]? = some row →
          rows[r]? = some (if r + 1 = mpe.rows.length then { row with up := 1, down := 1 }
            else { row with up := row.t &&& ~~~row.b &&& row.p, down := ~~~row.t &&& row.b &&& row.p }))) ∧
    ∀ (s : State) (j : Nat) (mpe : Mpe), s.mpes[j]? = some mpe →
      (∀ f, mpe.tick s.cycle = .error f → tickMpe j s = .next (s.raise f)) ∧
        (∀ mpe', mpe.tick s.cycle = .ok (mpe', none) → tickMpe j s = .next (s.putMpe j mpe')) ∧
        (∀ mpe' ev, mpe.tick s.cycle = .ok (mpe', some (.resp, ev)) →
          tickMpe j s = .next ((s.putMpe j mpe').send (.mpeResp j) ev)) ∧
        ∀ mpe' ev, mpe.tick s.cycle = .ok (mpe', some (.out, ev)) →
          tickMpe j s = .next ((s.putMpe j mpe').send (.mpeOut j) ev)

/-- The MMR's scan: the indices of the first eight set entries in ascending order, the rest of the eight slots 255, and
exactly those entries cleared (R393, R395). -/
def Obligations.MmrScanFindsFirstEight : Prop :=
  ∀ v : List Byte,
    (scan v).1 =
        (((v.zipIdx.filter fun e : Byte × Nat => e.1 != 0).map fun e : Byte × Nat => BitVec.ofNat 8 e.2) ++
          List.replicate 8 255).take 8 ∧
      (scan v).2 = v.zipIdx.map fun e : Byte × Nat => if ((v.take e.2).countP fun b => b != 0) < 8 then 0 else e.1

/-- MMR extract: the scan of the positive half then of the negative half, sixteen bytes under the command's header, both
halves cleared as scanned; without a vector it raises DEVICE_DATA. What an MMR's tick emits is sent on its `out` port,
and a fault of the tick is recorded (R165, R392). -/
def Obligations.MmrExtractSendsBothHalves : Prop :=
  (∀ (mmr : Mmr) (req : Event), req.imm = 0 →
    (∀ p n, mmr.pos = some p → mmr.neg = some n →
        mmr.perform req = .ok ({ mmr with pos := some (scan p).2, neg := some (scan n).2 },
          some (.a req.opcode req.dst req.imm ((scan p).1 ++ (scan n).1))) ∧
        ((scan p).1 ++ (scan n).1).length = 16) ∧
      (mmr.pos = none ∨ mmr.neg = none → mmr.perform req = .error ⟨.deviceData, .data .mmr none⟩)) ∧
    ∀ (s : State) (j : Nat) (mmr : Mmr), s.mmrs[j]? = some mmr →
      (∀ f, mmr.tick s.cycle = .error f → tickMmr j s = .next (s.raise f)) ∧
        (∀ mmr', mmr.tick s.cycle = .ok (mmr', none) → tickMmr j s = .next (s.putMmr j mmr')) ∧
        ∀ mmr' ev, mmr.tick s.cycle = .ok (mmr', some ev) →
          tickMmr j s = .next ((s.putMmr j mmr').send (.mmrOut j) ev)

/-- The router's groups: under ADJACENT one request per run of neighbours with one tag, under BY_TAG one per tag in the
order of first appearance, each with the header of its first event and the payloads joined in order. A scan takes
the head of each child's FIFO, in child order, and queues their groups behind the requests there, ready at once
(R410, R412, R413, R414). -/
def Obligations.RouterGroupsScanByTag : Prop :=
  (∀ events : List Event,
    groupScan .adjacent events = (events.splitBy fun a b => a.imm == b.imm).flatMap requestOf ∧
      groupScan .byTag events =
        (events.map Event.imm).eraseDups.flatMap fun tag => requestOf (events.filter fun e => e.imm == tag)) ∧
    ∀ (mode : RouterGrouping) (r : Router) (n : Nat), ∃ up,
      Router.scanTick mode r n = { r with childIn := r.childIn.map List.tail, up := up } ∧
        up.busy = r.up.busy ∧ up.doneq = r.up.doneq ∧
        up.inq.items.map Prod.snd =
          r.up.inq.items.map Prod.snd ++ groupScan mode (r.childIn.filterMap List.head?) ∧
        ((∀ e ∈ r.up.inq.items, e.1 ≤ n) → ∀ e ∈ up.inq.items, e.1 ≤ n)

/-- Aggregation: a buffer that is not whole words raises ROUTER_PAYLOAD; else the left-to-right sum of its
little-endian words from +0.0 goes up under the request's header, in four little-endian bytes, or some NaN if a partial
sum is one (a free value of the model with its draw counter, notes/assumptions/7.md). Broadcast sends the event to
every child port in order. A tick completes upward, scans, accepts upward, completes downward and accepts downward,
each direction with its own latency; its events go to the router's own ports, its fault is recorded (R273, R415, R416,
R421, R422). -/
def Obligations.RouterSumsUpAndBroadcastsDown : Prop :=
  ∀ (r : Router) (j : Nat),
    (∀ g : AggRequest,
        (g.buf.length % 4 ≠ 0 → r.aggregate j g = .error ⟨.routerPayload, .router g.tag g.buf.length⟩) ∧
        ∀ words : List Word, g.buf = (words.map (leBytes 4)).flatten → ∃ v r',
          r.aggregate j g = .ok (r', [(.parentUp, .b g.opcode g.dst g.src1 g.src2 g.tag (leBytes 4 v))]) ∧
            r' = { r with nanDraws := r'.nanDraws } ∧
            (∀ w, exactSum 0 words = some w → v = w ∧ r' = r) ∧ (exactSum 0 words = none → isNaN v = true)) ∧
      (∀ ev : Event, r.broadcast ev = (List.range r.cfg.nChildren).map fun k => (RouterPort.childDown k, ev)) ∧
      (∀ (mode : RouterGrouping) (n : Nat), r.up.Regular → r.down.Regular →
        let close := fun q : Router =>
          { q with up := q.up.accepted n q.cfg.latencyUp, down := r.down.afterTick n r.cfg.latencyDown }
        let down := (r.down.dueNow n).toList.flatMap r.broadcast
        (r.up.dueNow n = none → Router.tick mode j r n = .ok (close (Router.scanTick mode r n), down)) ∧
          ∀ g, r.up.dueNow n = some g →
            (∀ f, Router.aggregate j { r with up := r.up.released n } g = .error f →
              Router.tick mode j r n = .error f) ∧
            ∀ r1 sends, Router.aggregate j { r with up := r.up.released n } g = .ok (r1, sends) →
              Router.tick mode j r n = .ok (close (Router.scanTick mode r1 n), sends ++ down)) ∧
      ∀ s : State, s.routers[j]? = some r →
        (∀ f, Router.tick s.modes.routerGrouping j r s.cycle = .error f → tickRouter j s = .next (s.raise f)) ∧
          ∀ r' sends, Router.tick s.modes.routerGrouping j r s.cycle = .ok (r', sends) →
            tickRouter j s = .next (sends.foldl (fun t e => t.send
              (match e.1 with
                | .childDown k => .childDown j k
                | .parentUp => .parentUp j) e.2) (s.putRouter j r'))

/-- An inbound event is stored into the buffer the selector byte's bit 0 chooses, then the flag byte is set to 1, and no
other byte changes; a payload longer than the buffer raises RX_OVERFLOW. A receive step stores the event whose
completion is due, with the latency CORE_RX_LATENCY, and accepts the next. The tick of a core is this step followed by
what the tick does from the state it leaves, so that every stage sees the bytes stored and the busy flag as it is
then; its fault is the tick's (R93, R195, R317, R318). -/
def Obligations.ReceiveStoresPayloadAndFlag : Prop :=
  (∀ (c : Core) (p : Nat) (ev : Event) (g : RxRegion), c.cfg.rxRegions[p]? = some g →
    regionFits c.dmemSize g = true →
      (g.bufSize < ev.payload.length → c.rxStore p ev = .error ⟨.rxOverflow, .rx p ev.payload.length⟩) ∧
        (ev.payload.length ≤ g.bufSize → ∃ m, c.rxStore p ev = .ok { c with dmem := m } ∧
          ∀ a, Core.byteAt { c with dmem := m } a =
            if a = g.flagAddr then 1
            else
              let buf := if (c.byteAt g.selAddr).getLsbD 0 then g.buf1 else g.buf0
              if buf ≤ a ∧ a < buf + ev.payload.length then ev.payload.getD (a - buf) 0 else c.byteAt a)) ∧
    (∀ (c : Core) (n : Nat), c.rx.Regular →
      (c.rx.dueNow n = none → c.rxStep n = .ok { c with rx := c.rx.afterTick n c.cfg.rxLatency }) ∧
        ∀ p ev, c.rx.dueNow n = some (p, ev) →
          (∀ f, c.rxStore p ev = .error f → c.rxStep n = .error f) ∧
            ∀ c', c.rxStore p ev = .ok c' → c.rxStep n = .ok { c' with rx := c.rx.afterTick n c.cfg.rxLatency }) ∧
    ∀ (s : State) (k : Nat) (c : Core), s.cores[k]? = some c → c.rx.Regular → 0 < c.cfg.rxLatency →
      (∀ f, c.rxStep s.cycle = .error f → tickCore k s = .next { s.raise f with focus := .rest }) ∧
        ∀ c', c.rxStep s.cycle = .ok c' → tickCore k s = tickCore k (s.putCore k c')

/-- Teardown adds P_STATIC_REG × (T / F_CLK) × R × C to every CAM's static energy and changes nothing else; then the
five stage counters of every core and the seven energies of every CAM are sent as samples, and nothing more (R44, R49,
R170, R345). The samples' names and order are the model's choice, notes/assumptions/22.md. -/
def Obligations.TeardownAddsStaticEnergy : Prop :=
  ∀ s : State, s.finish.1 = { s with cams := s.cams.map fun cam =>
    { cam with eStatic := cam.eStatic +
        cam.cfg.pStaticReg * ((s.cycle : Nat) / cam.cfg.fClk) * (cam.cfg.nRows : Nat) * (cam.cfg.nCols : Nat) } } ∧
    s.finish.2.length = 5 * s.cores.length + 7 * s.cams.length ∧
    ∀ e : Sample, e ∈ s.finish.2 ↔
      (∃ k c, s.cores[k]? = some c ∧ e.source = .core k ∧
          (e.counter, e.value) ∈ [(Counter.actF, (c.actF : Rat)), (.actD, c.actD), (.actE, c.actE), (.actM, c.actM),
            (.actW, c.actW)]) ∨
        ∃ j cam, s.finish.1.cams[j]? = some cam ∧ e.source = .cam j ∧
          (e.counter, e.value) ∈ [(Counter.eLeak, cam.eLeak), (.eCd, cam.eCd), (.eSa, cam.eSa), (.ePc, cam.ePc),
            (.eCell, cam.eCell), (.eReg, cam.eReg), (.eStatic, cam.eStatic)]

/-! ## The host step as a whole (40_delay_queue.md section 4) -/

/-- A host step delivers, ticks every component once in the system as delivered, one after the other, and advances the
cycle; a fault of either is recorded instead, of several one of them (a free value of the model, notes/assumptions/8.md),
and nothing else is kept (R168, R442, R448).
The fixed order of the ticks is the model's, notes/assumptions/1.md. -/
def Obligations.HostStepDeliversThenTicks : Prop :=
  (∀ s : State, s.fault = none → s.problem = none →
      (∀ f fs t, s.deliver = (f :: fs, t) → ∃ g ∈ f :: fs, step s = .next (s.raise g)) ∧
        ∀ t, s.deliver = ([], t) →
          (∀ u, runTicks t.ticks [] t = .next ([], u) → step s = .next { u with cycle := s.cycle + 1 }) ∧
            ∀ f fs u, runTicks t.ticks [] t = .next (f :: fs, u) → ∃ g ∈ f :: fs, step s = .next (s.raise g)) ∧
    (∀ s : State, s.ticks.Perm
      ((List.range s.routers.length).map tickRouter ++ (List.range s.mmrs.length).map tickMmr ++
        (List.range s.mpes.length).map tickMpe ++ (List.range s.cams.length).map tickCam ++
        (List.range s.cores.length).map tickCore)) ∧
    (∀ faults s, runTicks [] faults s = .next (faults, s)) ∧
    ∀ tick ticks faults s t, tick s = .next t →
      (t.fault = none → runTicks (tick :: ticks) faults s = runTicks ticks faults t) ∧
        ∀ f, t.fault = some f → runTicks (tick :: ticks) faults s = runTicks ticks (faults ++ [f]) s
end

