-- ==== Sys2Proof/Laws/Choices.lean ====
section
/-! SUPPORT. What the free choices can be: the fault recorded is one of those raised, the parameter a refusal names is
one of those out of range; and which samples a system sends. -/

namespace Sys2Proof.Machine

/-- The fault recorded is one of those raised (R448). -/
theorem chooseFault_mem (n : Nat) (f : FaultRecord) (fs : List FaultRecord) : chooseFault n f fs ∈ f :: fs := by
  cases fs with
  | nil => exact List.mem_singleton.mpr rfl
  | cons g gs =>
    have h : Config.hostPick n % (gs.length + 2) < (f :: g :: gs).length := Nat.mod_lt _ (Nat.succ_pos _)
    rw [chooseFault, List.getD_eq_getElem _ _ h]
    exact List.getElem_mem h

/-- A refused configuration's refusal names a parameter that is out of range (R441 code 16). -/
theorem configProblem_mem {cfg : Config} {p : ConfigProblem} (h : configProblem cfg = some p) :
    p ∈ configProblems cfg := by
  unfold configProblem at h
  split at h
  · cases h
  · rename_i q hq
    injection h with h
    simp [hq, h]
  · rename_i q ps _ hq
    have hi : Config.problemPick cfg % (ps.length + 1) < (q :: ps).length := Nat.mod_lt _ (Nat.succ_pos _)
    rw [List.getD_eq_getElem _ _ hi] at h
    injection h with h
    rw [hq, ← h]
    exact List.getElem_mem hi

/-- A configuration is accepted exactly when no parameter is out of range (R9). -/
theorem configProblem_eq_none {cfg : Config} : configProblem cfg = none ↔ configProblems cfg = [] := by
  unfold configProblem
  split <;> simp_all

/-- The samples a system sends are those of its cores and of its CAMs (R170). -/
theorem mem_samples {s : State} {e : Sample} : e ∈ s.samples ↔
    (∃ k c, s.cores[k]? = some c ∧ e ∈ Core.samples k c) ∨ ∃ j cam, s.cams[j]? = some cam ∧ e ∈ Cam.samples j cam := by
  simp only [State.samples, List.mem_append, List.mem_flatMap, List.mem_zipIdx_iff_getElem?, Prod.exists]
  constructor
  · rintro (⟨c, k, h⟩ | ⟨c, k, h⟩)
    · exact .inl ⟨k, c, h⟩
    · exact .inr ⟨k, c, h⟩
  · rintro (⟨k, c, h⟩ | ⟨k, c, h⟩)
    · exact .inl ⟨c, k, h⟩
    · exact .inr ⟨c, k, h⟩

end Sys2Proof.Machine
end

