-- ==== Sys2Proof/Laws/Memory.lean ====
section
/-! SUPPORT. Data memory: what a byte reads as after a write, and that every memory operation keeps the canonical
form. -/

namespace Sys2Proof.Machine

/-! ## Find after erase and insert -/

theorem Memory.find_erase (m : Memory) (a b : Nat) :
    Memory.find (Memory.erase m a) b = if b = a then none else Memory.find m b := by
  induction m with
  | nil => simp [Memory.erase, Memory.find]
  | cons c m ih =>
    obtain ⟨k, v⟩ := c
    simp only [Memory.erase] at ih
    by_cases hk : k = a
    · subst hk
      simp only [Memory.erase, List.filter_cons, bne_self_eq_false, Bool.false_eq_true, if_false, ih, Memory.find]
      by_cases hb : b = k
      · simp [hb]
      · simp [hb, Ne.symm hb]
    · simp only [Memory.erase, List.filter_cons, bne_iff_ne, ne_eq, hk, not_false_eq_true, if_true, Memory.find, ih]
      by_cases hb : k = b
      · subst hb; simp [hk]
      · simp [hb]

theorem Memory.find_insert (m : Memory) (a b : Nat) (v : Byte) (h : Memory.find m a = none) :
    Memory.find (Memory.insert m a v) b = if b = a then some v else Memory.find m b := by
  induction m with
  | nil => simp [Memory.insert, Memory.find, eq_comm]
  | cons c m ih =>
    obtain ⟨k, w⟩ := c
    have hk : k ≠ a := by
      intro hk; simp [Memory.find, hk] at h
    have hm : Memory.find m a = none := by simpa [Memory.find, hk] using h
    unfold Memory.insert
    split
    · by_cases hb : b = a
      · simp [Memory.find, hb]
      · simp [Memory.find, hb, Ne.symm hb]
    · simp only [Memory.find, ih hm]
      by_cases hb : k = b
      · subst hb; simp [hk]
      · simp [hb]

/-- Reading any address after writing one. -/
@[simp] theorem Memory.read_write (image : List Byte) (m : Memory) (a b : Nat) (v : Byte) :
    Memory.read image (Memory.write image m a v) b = if b = a then v else Memory.read image m b := by
  unfold Memory.write Memory.read
  split
  · rename_i h
    rw [Memory.find_erase]
    by_cases hb : b = a
    · subst hb; simp [← h]
    · simp [hb]
  · rw [Memory.find_insert _ _ _ _ (by simp [Memory.find_erase])]
    by_cases hb : b = a
    · simp [hb]
    · simp [hb, Memory.find_erase]

/-- Reading any address after writing consecutive bytes. -/
theorem Memory.read_writeList (image : List Byte) (m : Memory) (a b : Nat) (vs : List Byte) :
    Memory.read image (Memory.writeList image m a vs) b =
      if a ≤ b ∧ b < a + vs.length then vs.getD (b - a) 0 else Memory.read image m b := by
  induction vs generalizing m a with
  | nil =>
    have : ¬ (a ≤ b ∧ b < a + ([] : List Byte).length) := by simp only [List.length_nil]; omega
    simp only [Memory.writeList, if_neg this]
  | cons v vs ih =>
    simp only [Memory.writeList, ih, Memory.read_write, List.length_cons]
    by_cases h1 : b = a
    · subst h1; simp
    · by_cases h2 : a ≤ b ∧ b < a + (vs.length + 1)
      · have h3 : a + 1 ≤ b ∧ b < a + 1 + vs.length := by omega
        have h4 : b - a = (b - (a + 1)) + 1 := by omega
        simp [h2, h3, h4]
      · have h3 : ¬ (a + 1 ≤ b ∧ b < a + 1 + vs.length) := by omega
        rw [if_neg h2, if_neg h3, if_neg h1]

@[simp] theorem Memory.readList_length (image : List Byte) (m : Memory) (a n : Nat) :
    (Memory.readList image m a n).length = n := by
  induction n generalizing a with
  | zero => rfl
  | succ n ih => simp [Memory.readList, ih]

/-- The j-th byte of a read of n. -/
theorem Memory.readList_getElem? (image : List Byte) (m : Memory) (a n j : Nat) (h : j < n) :
    (Memory.readList image m a n)[j]? = some (Memory.read image m (a + j)) := by
  induction n generalizing a j with
  | zero => omega
  | succ n ih =>
    cases j with
    | zero => simp [Memory.readList]
    | succ j => simp [Memory.readList, ih (a + 1) j (by omega)]; congr 1; omega

/-! ## The canonical form -/

theorem Memory.rising_iff (m : Memory) : Memory.rising m = true ↔ m.Pairwise fun c d => c.1 < d.1 := by
  induction m with
  | nil => simp [Memory.rising]
  | cons c m ih =>
    cases m with
    | nil => simp [Memory.rising]
    | cons d rest =>
      simp only [Memory.rising, Bool.and_eq_true, decide_eq_true_eq, ih]
      constructor
      · rintro ⟨h, hp⟩
        refine List.pairwise_cons.2 ⟨fun e he => ?_, hp⟩
        rcases List.mem_cons.1 he with rfl | he'
        · exact h
        · exact lt_trans h ((List.pairwise_cons.1 hp).1 e he')
      · intro hp
        exact ⟨(List.pairwise_cons.1 hp).1 d (by simp), (List.pairwise_cons.1 hp).2⟩

theorem Memory.wf_iff (image : List Byte) (m : Memory) :
    Memory.wf image m = true ↔
      (m.Pairwise fun c d => c.1 < d.1) ∧ ∀ c ∈ m, c.1 < image.length ∧ c.2 ≠ imageByte image c.1 := by
  simp only [Memory.wf, Bool.and_eq_true, Memory.rising_iff, List.all_eq_true, decide_eq_true_eq, bne_iff_ne]

theorem Memory.mem_insert (m : Memory) (a : Nat) (v : Byte) (c : Host.Cell) :
    c ∈ Memory.insert m a v ↔ c = (a, v) ∨ c ∈ m := by
  induction m with
  | nil => simp [Memory.insert]
  | cons d m ih =>
    obtain ⟨k, w⟩ := d
    unfold Memory.insert
    split
    · simp
    · simp only [List.mem_cons, ih]; tauto

theorem Memory.insert_pairwise (m : Memory) (a : Nat) (v : Byte) (h : m.Pairwise fun c d => c.1 < d.1)
    (hn : ∀ c ∈ m, c.1 ≠ a) : (Memory.insert m a v).Pairwise fun c d => c.1 < d.1 := by
  induction m with
  | nil => simp [Memory.insert]
  | cons d m ih =>
    obtain ⟨k, w⟩ := d
    obtain ⟨hd, hm⟩ := List.pairwise_cons.1 h
    have hk : k ≠ a := hn (k, w) (by simp)
    unfold Memory.insert
    split
    · rename_i hlt
      refine List.pairwise_cons.2 ⟨fun c hc => ?_, h⟩
      rcases List.mem_cons.1 hc with rfl | hc'
      · exact hlt
      · exact lt_trans hlt (hd c hc')
    · rename_i hge
      refine List.pairwise_cons.2 ⟨fun c hc => ?_, ih hm fun c hc => hn c (by simp [hc])⟩
      rcases (Memory.mem_insert m a v c).1 hc with rfl | hc'
      · show k < a; omega
      · exact hd c hc'

theorem Memory.wf_nil (image : List Byte) : Memory.wf image [] = true := rfl

/-- A write inside the memory keeps the canonical form. -/
theorem Memory.wf_write (image : List Byte) (m : Memory) (a : Nat) (v : Byte) (h : Memory.wf image m = true)
    (ha : a < image.length) : Memory.wf image (Memory.write image m a v) = true := by
  rw [Memory.wf_iff] at h ⊢
  obtain ⟨hp, hc⟩ := h
  have hpe : (Memory.erase m a).Pairwise fun c d => c.1 < d.1 := hp.sublist List.filter_sublist
  have hce : ∀ c ∈ Memory.erase m a, c ∈ m ∧ c.1 ≠ a := by
    intro c hc'
    simpa [Memory.erase] using hc'
  unfold Memory.write
  split
  · exact ⟨hpe, fun c hc' => hc c (hce c hc').1⟩
  · rename_i hv
    refine ⟨Memory.insert_pairwise _ _ _ hpe fun c hc' => (hce c hc').2, fun c hc' => ?_⟩
    rcases (Memory.mem_insert _ _ _ _).1 hc' with rfl | hc''
    · exact ⟨ha, hv⟩
    · exact hc c (hce c hc'').1

/-- Consecutive writes inside the memory keep the canonical form. -/
theorem Memory.wf_writeList (image : List Byte) (m : Memory) (a : Nat) (vs : List Byte)
    (h : Memory.wf image m = true) (ha : a + vs.length ≤ image.length) :
    Memory.wf image (Memory.writeList image m a vs) = true := by
  induction vs generalizing m a with
  | nil => exact h
  | cons v vs ih =>
    simp only [List.length_cons] at ha
    exact ih _ _ (Memory.wf_write image m a v h (by omega)) (by omega)

/-! ## The operations of a core -/

theorem Core.memWrite_ok {c : Core} {a : Nat} {bytes : List Byte} {m : Memory} (h : c.memWrite a bytes = .ok m) :
    a + bytes.length ≤ c.dmemSize ∧ m = Memory.writeList c.cfg.dmemImage c.dmem a bytes := by
  unfold Core.memWrite Core.inRange at h
  split at h
  · rename_i hr; exact ⟨by simpa using hr, by injection h with h; exact h.symm⟩
  · cases h

/-- Whatever a core's memory write leaves is canonical when the memory was. -/
theorem Core.memWrite_wf {c : Core} {a : Nat} {bytes : List Byte} {m : Memory} (h : c.memWrite a bytes = .ok m)
    (hw : Memory.wf c.cfg.dmemImage c.dmem = true) : Memory.wf c.cfg.dmemImage m = true := by
  obtain ⟨hr, rfl⟩ := Core.memWrite_ok h
  exact Memory.wf_writeList _ _ _ _ hw hr

theorem Core.memRead_ok {c : Core} {a n : Nat} {bytes : List Byte} (h : c.memRead a n = .ok bytes) :
    a + n ≤ c.dmemSize ∧ bytes = Memory.readList c.cfg.dmemImage c.dmem a n := by
  unfold Core.memRead Core.inRange at h
  split at h
  · rename_i hr; exact ⟨by simpa using hr, by injection h with h; exact h.symm⟩
  · cases h

theorem Core.memRead_inRange {c : Core} {a n : Nat} (h : a + n ≤ c.dmemSize) :
    c.memRead a n = .ok (Memory.readList c.cfg.dmemImage c.dmem a n) := by
  simp [Core.memRead, Core.inRange, h]

theorem Core.memRead_outOfRange {c : Core} {a n : Nat} (h : c.dmemSize < a + n) :
    c.memRead a n = .error ⟨.dmemRange, .address a⟩ := by
  have : ¬ a + n ≤ c.dmemSize := by omega
  simp [Core.memRead, Core.inRange, this]

theorem Core.memWrite_inRange {c : Core} {a : Nat} {bytes : List Byte} (h : a + bytes.length ≤ c.dmemSize) :
    c.memWrite a bytes = .ok (Memory.writeList c.cfg.dmemImage c.dmem a bytes) := by
  simp [Core.memWrite, Core.inRange, h]

theorem Core.memWrite_outOfRange {c : Core} {a : Nat} {bytes : List Byte} (h : c.dmemSize < a + bytes.length) :
    c.memWrite a bytes = .error ⟨.dmemRange, .address a⟩ := by
  have : ¬ a + bytes.length ≤ c.dmemSize := by omega
  simp [Core.memWrite, Core.inRange, this]

/-- A byte of a core whose memory came from writing bytes. -/
theorem Core.byteAt_writeList (c c' : Core) (a b : Nat) (vs : List Byte) (hc : c'.cfg = c.cfg)
    (hm : c'.dmem = Memory.writeList c.cfg.dmemImage c.dmem a vs) :
    c'.byteAt b = if a ≤ b ∧ b < a + vs.length then vs.getD (b - a) 0 else c.byteAt b := by
  simp only [Core.byteAt, hc, hm, Memory.read_writeList]

/-- A byte of a core depends on its image and its memory alone. -/
theorem Core.byteAt_congr {c c' : Core} (hc : c'.cfg = c.cfg) (hm : c'.dmem = c.dmem) (a : Nat) :
    c'.byteAt a = c.byteAt a := by
  simp only [Core.byteAt, hc, hm]

/-- An inbound store keeps the canonical form. -/
theorem Core.rxStore_wf {c c' : Core} {p : Nat} {ev : Event} (h : c.rxStore p ev = .ok c')
    (hw : Memory.wf c.cfg.dmemImage c.dmem = true) :
    c'.cfg = c.cfg ∧ Memory.wf c'.cfg.dmemImage c'.dmem = true := by
  unfold Core.rxStore at h
  split at h
  · cases h; exact ⟨rfl, hw⟩
  · split at h
    · split at h
      · cases h
      · rename_i m hm
        split at h
        · cases h
        · rename_i m' hm'
          injection h with h
          subst h
          have h1 := Core.memWrite_wf hm hw
          exact ⟨rfl, Core.memWrite_wf (c := { c with dmem := m }) hm' h1⟩
    · cases h

/-! ## Little-endian bytes -/

@[simp] theorem leBytes_length (n : Nat) (w : Word) : (leBytes n w).length = n := by
  induction n generalizing w with
  | zero => rfl
  | succ n ih => simp [leBytes, ih]

/-- Byte j of a word's little-endian bytes. -/
theorem leBytes_getElem? (n j : Nat) (w : Word) (h : j < n) :
    (leBytes n w)[j]? = some ((w >>> (8 * j)).setWidth 8) := by
  induction n generalizing w j with
  | zero => omega
  | succ n ih =>
    cases j with
    | zero => simp [leBytes]
    | succ j =>
      rw [leBytes, List.getElem?_cons_succ, ih j _ (by omega)]
      congr 2
      rw [← BitVec.shiftRight_add]
      congr 1
      omega

end Sys2Proof.Machine
end

