-- ==== Sys2Proof/Laws/PerInstr.lean ====
section
/-! SUPPORT. The per-instruction family of LAWS.json: the record an instruction is encoded as, under any opcode, is that
instruction of its class. -/

namespace Sys2Proof.Laws

/-- With any opcode number of its class, the instruction's record is the instruction (30_encoding.md R117, R124). -/
def RoundTrip.Statement (i : Instr) : Prop := ∀ op : Word, decodeAs i.cls (i.record op) = .ok i

theorem RoundTrip.lbu (rd rs1 imm : Word) : RoundTrip.Statement (.lbu rd rs1 imm) := fun _ => rfl

theorem RoundTrip.lw (rd rs1 imm : Word) : RoundTrip.Statement (.lw rd rs1 imm) := fun _ => rfl

theorem RoundTrip.lwg (rd rs1 rs2 imm : Word) : RoundTrip.Statement (.lwg rd rs1 rs2 imm) := fun _ => rfl

theorem RoundTrip.flw (rd rs1 imm : Word) : RoundTrip.Statement (.flw rd rs1 imm) := fun _ => rfl

theorem RoundTrip.sb (rs1 rs2 imm : Word) : RoundTrip.Statement (.sb rs1 rs2 imm) := fun _ => rfl

theorem RoundTrip.sw (rs1 rs2 imm : Word) : RoundTrip.Statement (.sw rs1 rs2 imm) := fun _ => rfl

theorem RoundTrip.fsw (rs1 rs2 imm : Word) : RoundTrip.Statement (.fsw rs1 rs2 imm) := fun _ => rfl

theorem RoundTrip.addi (rd rs1 imm : Word) : RoundTrip.Statement (.addi rd rs1 imm) := fun _ => rfl

theorem RoundTrip.slli (rd rs1 imm : Word) : RoundTrip.Statement (.slli rd rs1 imm) := fun _ => rfl

theorem RoundTrip.muli (rd rs1 imm : Word) : RoundTrip.Statement (.muli rd rs1 imm) := fun _ => rfl

theorem RoundTrip.add (rd rs1 rs2 : Word) : RoundTrip.Statement (.add rd rs1 rs2) := fun _ => rfl

theorem RoundTrip.sll (rd rs1 rs2 : Word) : RoundTrip.Statement (.sll rd rs1 rs2) := fun _ => rfl

theorem RoundTrip.mul (rd rs1 rs2 : Word) : RoundTrip.Statement (.mul rd rs1 rs2) := fun _ => rfl

theorem RoundTrip.fadd (rd rs1 rs2 : Word) : RoundTrip.Statement (.fadd rd rs1 rs2) := fun _ => rfl

theorem RoundTrip.fsub (rd rs1 rs2 : Word) : RoundTrip.Statement (.fsub rd rs1 rs2) := fun _ => rfl

theorem RoundTrip.fmac8 (rd rs1 rs2 : Word) : RoundTrip.Statement (.fmac8 rd rs1 rs2) := fun _ => rfl

theorem RoundTrip.lui (rd imm : Word) : RoundTrip.Statement (.lui rd imm) := fun _ => rfl

theorem RoundTrip.beq (rs1 rs2 imm : Word) : RoundTrip.Statement (.beq rs1 rs2 imm) := fun _ => rfl

theorem RoundTrip.bne (rs1 rs2 imm : Word) : RoundTrip.Statement (.bne rs1 rs2 imm) := fun _ => rfl

theorem RoundTrip.ret : RoundTrip.Statement .ret := fun _ => rfl

theorem RoundTrip.cpyCam (rd rs1 imm funct7 : Word) : RoundTrip.Statement (.cpyCam rd rs1 imm funct7) := fun _ => rfl

theorem RoundTrip.cpyMpe (rd rs1 imm funct7 : Word) : RoundTrip.Statement (.cpyMpe rd rs1 imm funct7) := fun _ => rfl

theorem RoundTrip.cpyMmr (rd rs1 imm funct7 : Word) : RoundTrip.Statement (.cpyMmr rd rs1 imm funct7) := fun _ => rfl

theorem RoundTrip.cpyUp (rd rs1 imm funct7 : Word) : RoundTrip.Statement (.cpyUp rd rs1 imm funct7) := fun _ => rfl

theorem RoundTrip.camPre (rd : Word) : RoundTrip.Statement (.camPre rd) := fun _ => rfl

theorem RoundTrip.camSrch (rd : Word) : RoundTrip.Statement (.camSrch rd) := fun _ => rfl

theorem RoundTrip.mpeRst (rd : Word) : RoundTrip.Statement (.mpeRst rd) := fun _ => rfl

theorem RoundTrip.mpeLdt (rd : Word) : RoundTrip.Statement (.mpeLdt rd) := fun _ => rfl

theorem RoundTrip.mpeLdb (rd : Word) : RoundTrip.Statement (.mpeLdb rd) := fun _ => rfl

theorem RoundTrip.mpeUpd (rd : Word) : RoundTrip.Statement (.mpeUpd rd) := fun _ => rfl

theorem RoundTrip.mpePack (rd : Word) : RoundTrip.Statement (.mpePack rd) := fun _ => rfl

theorem RoundTrip.mpeDec (rd : Word) : RoundTrip.Statement (.mpeDec rd) := fun _ => rfl

theorem RoundTrip.mmrExt (rd : Word) : RoundTrip.Statement (.mmrExt rd) := fun _ => rfl

end Sys2Proof.Laws
end

