-- ==== Sys2Proof/Laws/Queues.lean ====
section
/-! SUPPORT. What the queue operations, the busy discipline and the host's delivery order can do, said once. -/

namespace Sys2Proof.Machine

/-! ## The host's order of links -/

theorem pickOrder_perm {α : Type} (pick : Nat → Nat) :
    ∀ (n : Nat) (l : List α), l.length ≤ n → (pickOrder pick n l).Perm l
  | 0, l, h => by
    rw [List.length_eq_zero_iff.mp (Nat.le_zero.mp h)]
    simp [pickOrder]
  | n + 1, [], _ => by simp [pickOrder]
  | n + 1, x :: xs, h => by
    have hi : pick n % (xs.length + 1) < (x :: xs).length := Nat.mod_lt _ (Nat.succ_pos _)
    have hl : ((x :: xs).eraseIdx (pick n % (xs.length + 1))).length ≤ n := by
      rw [List.length_eraseIdx_of_lt hi]
      simpa using h
    have ih := pickOrder_perm pick n _ hl
    simp only [pickOrder]
    rw [List.getD_eq_getElem _ _ hi]
    exact (ih.cons _).trans (List.getElem_cons_eraseIdx_perm hi)

/-- The host's order takes every link once. -/
theorem hostOrder_perm (c : Nat) : ∀ l : List Link, (hostOrder c l).Perm l
  | [] => .nil
  | [_] => .refl _
  | _ :: _ :: _ => pickOrder_perm _ _ _ (Nat.le_refl _)

theorem mem_hostOrder {c : Nat} {ls : List Link} {l : Link} : l ∈ hostOrder c ls ↔ l ∈ ls :=
  (hostOrder_perm c ls).mem_iff

/-- With nothing due, nothing is delivered. -/
theorem dueLinks_eq_nil {s : State} (h : ∀ l ∈ s.links, l.due s.cycle = []) : s.dueLinks = [] := by
  simp only [State.dueLinks, List.filter_eq_nil_iff]
  intro l hl
  simp [h l hl]

/-! ## Pop, complete, accept -/

/-- Pop returns the head when it is ready; otherwise nothing, and the queue stays. -/
theorem DelayQueue.pop_cases {α : Type} (q : DelayQueue α) (c : Nat) :
    (∃ r x rest, q.items = (r, x) :: rest ∧ r ≤ c ∧ q.pop c = (some x, { q with items := rest })) ∨
      (q.pop c = (none, q) ∧ ∀ e, q.items.head? = some e → c < e.1) := by
  rcases q with ⟨items, nextAvail⟩
  cases items with
  | nil => exact .inr ⟨rfl, by simp⟩
  | cons e rest =>
    by_cases h : e.1 ≤ c
    · exact .inl ⟨e.1, e.2, rest, rfl, h, by simp [DelayQueue.pop, h]⟩
    · exact .inr ⟨by simp [DelayQueue.pop, h], by simpa using Nat.lt_of_not_le h⟩

/-- A completion is the head of the completion queue of a busy discipline, due by now. -/
theorem Discipline.complete_some {α : Type} {d d' : Discipline α} {c : Nat} {req : α}
    (h : d.complete c = some (req, d')) : d.busy = true ∧ ∃ r rest, d.doneq.items = (r, req) :: rest ∧ r ≤ c ∧
      d' = { d with busy := false, doneq := { d.doneq with items := rest } } := by
  unfold Discipline.complete at h
  split at h
  · rename_i hb
    obtain ⟨r, x, rest, hi, hr, hp⟩ | ⟨hp, _⟩ := d.doneq.pop_cases c
    · rw [hp] at h
      simp only [Option.some.injEq, Prod.mk.injEq] at h
      obtain ⟨rfl, rfl⟩ := h
      exact ⟨hb, r, rest, hi, hr, rfl⟩
    · simp [hp] at h
  · simp at h

/-- Acceptance does nothing, or makes an idle discipline busy with the head of its requests. -/
theorem Discipline.accept_cases {α : Type} (d : Discipline α) (c L : Nat) :
    (d.accept c L = d ∧ (d.busy = true ∨ ∀ e, d.inq.items.head? = some e → c < e.1)) ∨
      ∃ r req rest, d.busy = false ∧ d.inq.items = (r, req) :: rest ∧ r ≤ c ∧
        d.accept c L = ⟨true, { d.inq with items := rest }, d.doneq.pushChained c L req⟩ := by
  unfold Discipline.accept
  cases hb : d.busy
  · simp only [Bool.false_eq_true, if_false]
    obtain ⟨r, x, rest, hi, hr, hp⟩ | ⟨hp, hh⟩ := d.inq.pop_cases c
    · rw [hp]
      exact .inr ⟨r, x, rest, trivial, hi, hr, rfl⟩
    · rw [hp]
      exact .inl ⟨rfl, .inr hh⟩
  · exact .inl ⟨rfl, .inl rfl⟩

/-- A chained push puts the item behind the others, ready d after the last of them, or after now. -/
theorem DelayQueue.pushChained_items {α : Type} (q : DelayQueue α) (c d : Nat) (x : α) :
    (q.pushChained c d x).items = q.items ++ [((q.lastReady.getD c) + d, x)] := by
  unfold DelayQueue.pushChained
  cases q.lastReady <;> rfl

@[simp] theorem DelayQueue.pushChained_nextAvail {α : Type} (q : DelayQueue α) (c d : Nat) (x : α) :
    (q.pushChained c d x).nextAvail = q.nextAvail := by
  unfold DelayQueue.pushChained
  cases q.lastReady <;> rfl

@[simp] theorem Discipline.enqueue_busy {α : Type} (d : Discipline α) (c : Nat) (x : α) :
    (d.enqueue c x).busy = d.busy := rfl
@[simp] theorem Discipline.enqueue_doneq {α : Type} (d : Discipline α) (c : Nat) (x : α) :
    (d.enqueue c x).doneq = d.doneq := rfl
@[simp] theorem Discipline.enqueue_inq {α : Type} (d : Discipline α) (c : Nat) (x : α) :
    (d.enqueue c x).inq = d.inq.pushChained c 0 x := rfl

end Sys2Proof.Machine
end

