-- ==== Sys2Proof/Laws/State.lean ====
section
/-! SUPPORT. What each named update of the state does to each field: one lemma per field per update, each true by
unfolding. -/

namespace Sys2Proof.Machine

/-! ## Updates of the system -/

@[simp] theorem State.raise_modes (s : State) (f : FaultRecord) : (s.raise f).modes = s.modes := rfl
@[simp] theorem State.raise_cycle (s : State) (f : FaultRecord) : (s.raise f).cycle = s.cycle := rfl
@[simp] theorem State.raise_fault (s : State) (f : FaultRecord) : (s.raise f).fault = some f := rfl
@[simp] theorem State.raise_links (s : State) (f : FaultRecord) : (s.raise f).links = s.links := rfl
@[simp] theorem State.raise_cores (s : State) (f : FaultRecord) : (s.raise f).cores = s.cores := rfl
@[simp] theorem State.raise_cams (s : State) (f : FaultRecord) : (s.raise f).cams = s.cams := rfl
@[simp] theorem State.raise_mpes (s : State) (f : FaultRecord) : (s.raise f).mpes = s.mpes := rfl
@[simp] theorem State.raise_mmrs (s : State) (f : FaultRecord) : (s.raise f).mmrs = s.mmrs := rfl
@[simp] theorem State.raise_routers (s : State) (f : FaultRecord) : (s.raise f).routers = s.routers := rfl
@[simp] theorem State.raise_focus (s : State) (f : FaultRecord) : (s.raise f).focus = s.focus := rfl

@[simp] theorem State.focusOn_modes (s : State) (k : Nat) (st : Stage) : (s.focusOn k st).modes = s.modes := rfl
@[simp] theorem State.focusOn_cycle (s : State) (k : Nat) (st : Stage) : (s.focusOn k st).cycle = s.cycle := rfl
@[simp] theorem State.focusOn_fault (s : State) (k : Nat) (st : Stage) : (s.focusOn k st).fault = s.fault := rfl
@[simp] theorem State.focusOn_links (s : State) (k : Nat) (st : Stage) : (s.focusOn k st).links = s.links := rfl
@[simp] theorem State.focusOn_cores (s : State) (k : Nat) (st : Stage) : (s.focusOn k st).cores = s.cores := rfl
@[simp] theorem State.focusOn_cams (s : State) (k : Nat) (st : Stage) : (s.focusOn k st).cams = s.cams := rfl
@[simp] theorem State.focusOn_mpes (s : State) (k : Nat) (st : Stage) : (s.focusOn k st).mpes = s.mpes := rfl
@[simp] theorem State.focusOn_mmrs (s : State) (k : Nat) (st : Stage) : (s.focusOn k st).mmrs = s.mmrs := rfl
@[simp] theorem State.focusOn_routers (s : State) (k : Nat) (st : Stage) : (s.focusOn k st).routers = s.routers := rfl
@[simp] theorem State.focusOn_focus (s : State) (k : Nat) (st : Stage) : (s.focusOn k st).focus = { s.focus with core := k, stage := st } := rfl

@[simp] theorem State.putCore_modes (s : State) (k : Nat) (c : Core) : (s.putCore k c).modes = s.modes := rfl
@[simp] theorem State.putCore_cycle (s : State) (k : Nat) (c : Core) : (s.putCore k c).cycle = s.cycle := rfl
@[simp] theorem State.putCore_fault (s : State) (k : Nat) (c : Core) : (s.putCore k c).fault = s.fault := rfl
@[simp] theorem State.putCore_links (s : State) (k : Nat) (c : Core) : (s.putCore k c).links = s.links := rfl
@[simp] theorem State.putCore_cores (s : State) (k : Nat) (c : Core) : (s.putCore k c).cores = s.cores.set k c := rfl
@[simp] theorem State.putCore_cams (s : State) (k : Nat) (c : Core) : (s.putCore k c).cams = s.cams := rfl
@[simp] theorem State.putCore_mpes (s : State) (k : Nat) (c : Core) : (s.putCore k c).mpes = s.mpes := rfl
@[simp] theorem State.putCore_mmrs (s : State) (k : Nat) (c : Core) : (s.putCore k c).mmrs = s.mmrs := rfl
@[simp] theorem State.putCore_routers (s : State) (k : Nat) (c : Core) : (s.putCore k c).routers = s.routers := rfl
@[simp] theorem State.putCore_focus (s : State) (k : Nat) (c : Core) : (s.putCore k c).focus = s.focus := rfl

@[simp] theorem State.putCam_modes (s : State) (j : Nat) (c : Cam) : (s.putCam j c).modes = s.modes := rfl
@[simp] theorem State.putCam_cycle (s : State) (j : Nat) (c : Cam) : (s.putCam j c).cycle = s.cycle := rfl
@[simp] theorem State.putCam_fault (s : State) (j : Nat) (c : Cam) : (s.putCam j c).fault = s.fault := rfl
@[simp] theorem State.putCam_links (s : State) (j : Nat) (c : Cam) : (s.putCam j c).links = s.links := rfl
@[simp] theorem State.putCam_cores (s : State) (j : Nat) (c : Cam) : (s.putCam j c).cores = s.cores := rfl
@[simp] theorem State.putCam_cams (s : State) (j : Nat) (c : Cam) : (s.putCam j c).cams = s.cams.set j c := rfl
@[simp] theorem State.putCam_mpes (s : State) (j : Nat) (c : Cam) : (s.putCam j c).mpes = s.mpes := rfl
@[simp] theorem State.putCam_mmrs (s : State) (j : Nat) (c : Cam) : (s.putCam j c).mmrs = s.mmrs := rfl
@[simp] theorem State.putCam_routers (s : State) (j : Nat) (c : Cam) : (s.putCam j c).routers = s.routers := rfl
@[simp] theorem State.putCam_focus (s : State) (j : Nat) (c : Cam) : (s.putCam j c).focus = s.focus := rfl

@[simp] theorem State.putMpe_modes (s : State) (j : Nat) (m : Mpe) : (s.putMpe j m).modes = s.modes := rfl
@[simp] theorem State.putMpe_cycle (s : State) (j : Nat) (m : Mpe) : (s.putMpe j m).cycle = s.cycle := rfl
@[simp] theorem State.putMpe_fault (s : State) (j : Nat) (m : Mpe) : (s.putMpe j m).fault = s.fault := rfl
@[simp] theorem State.putMpe_links (s : State) (j : Nat) (m : Mpe) : (s.putMpe j m).links = s.links := rfl
@[simp] theorem State.putMpe_cores (s : State) (j : Nat) (m : Mpe) : (s.putMpe j m).cores = s.cores := rfl
@[simp] theorem State.putMpe_cams (s : State) (j : Nat) (m : Mpe) : (s.putMpe j m).cams = s.cams := rfl
@[simp] theorem State.putMpe_mpes (s : State) (j : Nat) (m : Mpe) : (s.putMpe j m).mpes = s.mpes.set j m := rfl
@[simp] theorem State.putMpe_mmrs (s : State) (j : Nat) (m : Mpe) : (s.putMpe j m).mmrs = s.mmrs := rfl
@[simp] theorem State.putMpe_routers (s : State) (j : Nat) (m : Mpe) : (s.putMpe j m).routers = s.routers := rfl
@[simp] theorem State.putMpe_focus (s : State) (j : Nat) (m : Mpe) : (s.putMpe j m).focus = s.focus := rfl

@[simp] theorem State.putMmr_modes (s : State) (j : Nat) (m : Mmr) : (s.putMmr j m).modes = s.modes := rfl
@[simp] theorem State.putMmr_cycle (s : State) (j : Nat) (m : Mmr) : (s.putMmr j m).cycle = s.cycle := rfl
@[simp] theorem State.putMmr_fault (s : State) (j : Nat) (m : Mmr) : (s.putMmr j m).fault = s.fault := rfl
@[simp] theorem State.putMmr_links (s : State) (j : Nat) (m : Mmr) : (s.putMmr j m).links = s.links := rfl
@[simp] theorem State.putMmr_cores (s : State) (j : Nat) (m : Mmr) : (s.putMmr j m).cores = s.cores := rfl
@[simp] theorem State.putMmr_cams (s : State) (j : Nat) (m : Mmr) : (s.putMmr j m).cams = s.cams := rfl
@[simp] theorem State.putMmr_mpes (s : State) (j : Nat) (m : Mmr) : (s.putMmr j m).mpes = s.mpes := rfl
@[simp] theorem State.putMmr_mmrs (s : State) (j : Nat) (m : Mmr) : (s.putMmr j m).mmrs = s.mmrs.set j m := rfl
@[simp] theorem State.putMmr_routers (s : State) (j : Nat) (m : Mmr) : (s.putMmr j m).routers = s.routers := rfl
@[simp] theorem State.putMmr_focus (s : State) (j : Nat) (m : Mmr) : (s.putMmr j m).focus = s.focus := rfl

@[simp] theorem State.putRouter_modes (s : State) (j : Nat) (r : Router) : (s.putRouter j r).modes = s.modes := rfl
@[simp] theorem State.putRouter_cycle (s : State) (j : Nat) (r : Router) : (s.putRouter j r).cycle = s.cycle := rfl
@[simp] theorem State.putRouter_fault (s : State) (j : Nat) (r : Router) : (s.putRouter j r).fault = s.fault := rfl
@[simp] theorem State.putRouter_links (s : State) (j : Nat) (r : Router) : (s.putRouter j r).links = s.links := rfl
@[simp] theorem State.putRouter_cores (s : State) (j : Nat) (r : Router) : (s.putRouter j r).cores = s.cores := rfl
@[simp] theorem State.putRouter_cams (s : State) (j : Nat) (r : Router) : (s.putRouter j r).cams = s.cams := rfl
@[simp] theorem State.putRouter_mpes (s : State) (j : Nat) (r : Router) : (s.putRouter j r).mpes = s.mpes := rfl
@[simp] theorem State.putRouter_mmrs (s : State) (j : Nat) (r : Router) : (s.putRouter j r).mmrs = s.mmrs := rfl
@[simp] theorem State.putRouter_routers (s : State) (j : Nat) (r : Router) : (s.putRouter j r).routers = s.routers.set j r := rfl
@[simp] theorem State.putRouter_focus (s : State) (j : Nat) (r : Router) : (s.putRouter j r).focus = s.focus := rfl

@[simp] theorem State.endTick_modes (s : State) (b : Bool) : (s.endTick b).modes = s.modes := rfl
@[simp] theorem State.endTick_cycle (s : State) (b : Bool) : (s.endTick b).cycle = s.cycle := rfl
@[simp] theorem State.endTick_fault (s : State) (b : Bool) : (s.endTick b).fault = s.fault := rfl
@[simp] theorem State.endTick_links (s : State) (b : Bool) : (s.endTick b).links = s.links := rfl
@[simp] theorem State.endTick_cores (s : State) (b : Bool) : (s.endTick b).cores = s.cores := rfl
@[simp] theorem State.endTick_cams (s : State) (b : Bool) : (s.endTick b).cams = s.cams := rfl
@[simp] theorem State.endTick_mpes (s : State) (b : Bool) : (s.endTick b).mpes = s.mpes := rfl
@[simp] theorem State.endTick_mmrs (s : State) (b : Bool) : (s.endTick b).mmrs = s.mmrs := rfl
@[simp] theorem State.endTick_routers (s : State) (b : Bool) : (s.endTick b).routers = s.routers := rfl
@[simp] theorem State.endTick_focus (s : State) (b : Bool) : (s.endTick b).focus = { s.focus with tickEnded := s.focus.tickEnded || b } := rfl

@[simp] theorem State.send_modes (s : State) (p : OutPort) (ev : Event) : (s.send p ev).modes = s.modes := rfl
@[simp] theorem State.send_cycle (s : State) (p : OutPort) (ev : Event) : (s.send p ev).cycle = s.cycle := rfl
@[simp] theorem State.send_fault (s : State) (p : OutPort) (ev : Event) : (s.send p ev).fault = s.fault := rfl
@[simp] theorem State.send_links (s : State) (p : OutPort) (ev : Event) : (s.send p ev).links = sendOn s.cycle p ev s.links := rfl
@[simp] theorem State.send_cores (s : State) (p : OutPort) (ev : Event) : (s.send p ev).cores = s.cores := rfl
@[simp] theorem State.send_cams (s : State) (p : OutPort) (ev : Event) : (s.send p ev).cams = s.cams := rfl
@[simp] theorem State.send_mpes (s : State) (p : OutPort) (ev : Event) : (s.send p ev).mpes = s.mpes := rfl
@[simp] theorem State.send_mmrs (s : State) (p : OutPort) (ev : Event) : (s.send p ev).mmrs = s.mmrs := rfl
@[simp] theorem State.send_routers (s : State) (p : OutPort) (ev : Event) : (s.send p ev).routers = s.routers := rfl
@[simp] theorem State.send_focus (s : State) (p : OutPort) (ev : Event) : (s.send p ev).focus = s.focus := rfl

@[simp] theorem State.unfocus_modes (s : State) : (s.unfocus).modes = s.modes := rfl
@[simp] theorem State.unfocus_cycle (s : State) : (s.unfocus).cycle = s.cycle := rfl
@[simp] theorem State.unfocus_fault (s : State) : (s.unfocus).fault = s.fault := rfl
@[simp] theorem State.unfocus_links (s : State) : (s.unfocus).links = s.links := rfl
@[simp] theorem State.unfocus_cores (s : State) : (s.unfocus).cores = s.cores := rfl
@[simp] theorem State.unfocus_cams (s : State) : (s.unfocus).cams = s.cams := rfl
@[simp] theorem State.unfocus_mpes (s : State) : (s.unfocus).mpes = s.mpes := rfl
@[simp] theorem State.unfocus_mmrs (s : State) : (s.unfocus).mmrs = s.mmrs := rfl
@[simp] theorem State.unfocus_routers (s : State) : (s.unfocus).routers = s.routers := rfl
@[simp] theorem State.unfocus_focus (s : State) : (s.unfocus).focus = .rest := rfl

/-! ## Updates that send several events -/

@[simp] theorem State.sendAll_modes (s : State) (evs : List (OutPort × Event)) : (s.sendAll evs).modes = s.modes := by
  induction evs generalizing s with
  | nil => rfl
  | cons e evs ih => simp [State.sendAll, ih]

@[simp] theorem State.sendAll_cycle (s : State) (evs : List (OutPort × Event)) : (s.sendAll evs).cycle = s.cycle := by
  induction evs generalizing s with
  | nil => rfl
  | cons e evs ih => simp [State.sendAll, ih]

@[simp] theorem State.sendAll_fault (s : State) (evs : List (OutPort × Event)) : (s.sendAll evs).fault = s.fault := by
  induction evs generalizing s with
  | nil => rfl
  | cons e evs ih => simp [State.sendAll, ih]

@[simp] theorem State.sendAll_cores (s : State) (evs : List (OutPort × Event)) : (s.sendAll evs).cores = s.cores := by
  induction evs generalizing s with
  | nil => rfl
  | cons e evs ih => simp [State.sendAll, ih]

@[simp] theorem State.sendAll_cams (s : State) (evs : List (OutPort × Event)) : (s.sendAll evs).cams = s.cams := by
  induction evs generalizing s with
  | nil => rfl
  | cons e evs ih => simp [State.sendAll, ih]

@[simp] theorem State.sendAll_mpes (s : State) (evs : List (OutPort × Event)) : (s.sendAll evs).mpes = s.mpes := by
  induction evs generalizing s with
  | nil => rfl
  | cons e evs ih => simp [State.sendAll, ih]

@[simp] theorem State.sendAll_mmrs (s : State) (evs : List (OutPort × Event)) : (s.sendAll evs).mmrs = s.mmrs := by
  induction evs generalizing s with
  | nil => rfl
  | cons e evs ih => simp [State.sendAll, ih]

@[simp] theorem State.sendAll_routers (s : State) (evs : List (OutPort × Event)) : (s.sendAll evs).routers = s.routers := by
  induction evs generalizing s with
  | nil => rfl
  | cons e evs ih => simp [State.sendAll, ih]

@[simp] theorem State.sendAll_focus (s : State) (evs : List (OutPort × Event)) : (s.sendAll evs).focus = s.focus := by
  induction evs generalizing s with
  | nil => rfl
  | cons e evs ih => simp [State.sendAll, ih]

@[simp] theorem State.sendOpt_modes (s : State) (p : OutPort) (o : Option Event) : (s.sendOpt p o).modes = s.modes := by
  cases o <;> rfl

@[simp] theorem State.sendMpe_modes (s : State) (j : Nat) (o : Option (MpePort × Event)) : (s.sendMpe j o).modes = s.modes := by
  cases o <;> rfl

@[simp] theorem State.sendOpt_cycle (s : State) (p : OutPort) (o : Option Event) : (s.sendOpt p o).cycle = s.cycle := by
  cases o <;> rfl

@[simp] theorem State.sendMpe_cycle (s : State) (j : Nat) (o : Option (MpePort × Event)) : (s.sendMpe j o).cycle = s.cycle := by
  cases o <;> rfl

@[simp] theorem State.sendOpt_fault (s : State) (p : OutPort) (o : Option Event) : (s.sendOpt p o).fault = s.fault := by
  cases o <;> rfl

@[simp] theorem State.sendMpe_fault (s : State) (j : Nat) (o : Option (MpePort × Event)) : (s.sendMpe j o).fault = s.fault := by
  cases o <;> rfl

@[simp] theorem State.sendOpt_cores (s : State) (p : OutPort) (o : Option Event) : (s.sendOpt p o).cores = s.cores := by
  cases o <;> rfl

@[simp] theorem State.sendMpe_cores (s : State) (j : Nat) (o : Option (MpePort × Event)) : (s.sendMpe j o).cores = s.cores := by
  cases o <;> rfl

@[simp] theorem State.sendOpt_cams (s : State) (p : OutPort) (o : Option Event) : (s.sendOpt p o).cams = s.cams := by
  cases o <;> rfl

@[simp] theorem State.sendMpe_cams (s : State) (j : Nat) (o : Option (MpePort × Event)) : (s.sendMpe j o).cams = s.cams := by
  cases o <;> rfl

@[simp] theorem State.sendOpt_mpes (s : State) (p : OutPort) (o : Option Event) : (s.sendOpt p o).mpes = s.mpes := by
  cases o <;> rfl

@[simp] theorem State.sendMpe_mpes (s : State) (j : Nat) (o : Option (MpePort × Event)) : (s.sendMpe j o).mpes = s.mpes := by
  cases o <;> rfl

@[simp] theorem State.sendOpt_mmrs (s : State) (p : OutPort) (o : Option Event) : (s.sendOpt p o).mmrs = s.mmrs := by
  cases o <;> rfl

@[simp] theorem State.sendMpe_mmrs (s : State) (j : Nat) (o : Option (MpePort × Event)) : (s.sendMpe j o).mmrs = s.mmrs := by
  cases o <;> rfl

@[simp] theorem State.sendOpt_routers (s : State) (p : OutPort) (o : Option Event) : (s.sendOpt p o).routers = s.routers := by
  cases o <;> rfl

@[simp] theorem State.sendMpe_routers (s : State) (j : Nat) (o : Option (MpePort × Event)) : (s.sendMpe j o).routers = s.routers := by
  cases o <;> rfl

@[simp] theorem State.sendOpt_focus (s : State) (p : OutPort) (o : Option Event) : (s.sendOpt p o).focus = s.focus := by
  cases o <;> rfl

@[simp] theorem State.sendMpe_focus (s : State) (j : Nat) (o : Option (MpePort × Event)) : (s.sendMpe j o).focus = s.focus := by
  cases o <;> rfl

@[simp] theorem State.commit_modes (s : State) (o : StageOut) : (s.commit o).modes = s.modes := by
  simp [State.commit]

@[simp] theorem State.commit_cycle (s : State) (o : StageOut) : (s.commit o).cycle = s.cycle := by
  simp [State.commit]

@[simp] theorem State.commit_fault (s : State) (o : StageOut) : (s.commit o).fault = s.fault := by
  simp [State.commit]

@[simp] theorem State.commit_cores (s : State) (o : StageOut) : (s.commit o).cores = s.cores.set s.focus.core o.core := by
  simp [State.commit]

@[simp] theorem State.commit_cams (s : State) (o : StageOut) : (s.commit o).cams = s.cams := by
  simp [State.commit]

@[simp] theorem State.commit_mpes (s : State) (o : StageOut) : (s.commit o).mpes = s.mpes := by
  simp [State.commit]

@[simp] theorem State.commit_mmrs (s : State) (o : StageOut) : (s.commit o).mmrs = s.mmrs := by
  simp [State.commit]

@[simp] theorem State.commit_routers (s : State) (o : StageOut) : (s.commit o).routers = s.routers := by
  simp [State.commit]

@[simp] theorem State.commit_focus (s : State) (o : StageOut) : (s.commit o).focus = { s.focus with tickEnded := s.focus.tickEnded || o.tickEnded } := by
  simp [State.commit]

/-! ## Updates of a core -/

@[simp] theorem Core.toMemory_cfg (c : Core) (l : Latch) : (c.toMemory l).cfg = c.cfg := rfl
@[simp] theorem Core.toMemory_pc (c : Core) (l : Latch) : (c.toMemory l).pc = c.pc := rfl
@[simp] theorem Core.toMemory_imem (c : Core) (l : Latch) : (c.toMemory l).imem = c.imem := rfl
@[simp] theorem Core.toMemory_x (c : Core) (l : Latch) : (c.toMemory l).x = c.x := rfl
@[simp] theorem Core.toMemory_f (c : Core) (l : Latch) : (c.toMemory l).f = c.f := rfl
@[simp] theorem Core.toMemory_dmem (c : Core) (l : Latch) : (c.toMemory l).dmem = c.dmem := rfl
@[simp] theorem Core.toMemory_dr (c : Core) (l : Latch) : (c.toMemory l).dr = c.dr := rfl
@[simp] theorem Core.toMemory_er (c : Core) (l : Latch) : (c.toMemory l).er = { c.er with update := false } := rfl
@[simp] theorem Core.toMemory_mr (c : Core) (l : Latch) : (c.toMemory l).mr = { l with update := true } := rfl
@[simp] theorem Core.toMemory_wr (c : Core) (l : Latch) : (c.toMemory l).wr = c.wr := rfl
@[simp] theorem Core.toMemory_rx (c : Core) (l : Latch) : (c.toMemory l).rx = c.rx := rfl
@[simp] theorem Core.toMemory_fetchHalted (c : Core) (l : Latch) : (c.toMemory l).fetchHalted = c.fetchHalted := rfl
@[simp] theorem Core.toMemory_ended (c : Core) (l : Latch) : (c.toMemory l).ended = c.ended := rfl
@[simp] theorem Core.toMemory_actF (c : Core) (l : Latch) : (c.toMemory l).actF = c.actF := rfl
@[simp] theorem Core.toMemory_actD (c : Core) (l : Latch) : (c.toMemory l).actD = c.actD := rfl
@[simp] theorem Core.toMemory_actE (c : Core) (l : Latch) : (c.toMemory l).actE = c.actE + 1 := rfl
@[simp] theorem Core.toMemory_actM (c : Core) (l : Latch) : (c.toMemory l).actM = c.actM := rfl
@[simp] theorem Core.toMemory_actW (c : Core) (l : Latch) : (c.toMemory l).actW = c.actW := rfl
@[simp] theorem Core.toMemory_nanDraws (c : Core) (l : Latch) : (c.toMemory l).nanDraws = c.nanDraws := rfl

@[simp] theorem Core.toWriteback_cfg (c : Core) (l : Latch) : (c.toWriteback l).cfg = c.cfg := rfl
@[simp] theorem Core.toWriteback_pc (c : Core) (l : Latch) : (c.toWriteback l).pc = c.pc := rfl
@[simp] theorem Core.toWriteback_imem (c : Core) (l : Latch) : (c.toWriteback l).imem = c.imem := rfl
@[simp] theorem Core.toWriteback_x (c : Core) (l : Latch) : (c.toWriteback l).x = c.x := rfl
@[simp] theorem Core.toWriteback_f (c : Core) (l : Latch) : (c.toWriteback l).f = c.f := rfl
@[simp] theorem Core.toWriteback_dmem (c : Core) (l : Latch) : (c.toWriteback l).dmem = c.dmem := rfl
@[simp] theorem Core.toWriteback_dr (c : Core) (l : Latch) : (c.toWriteback l).dr = c.dr := rfl
@[simp] theorem Core.toWriteback_er (c : Core) (l : Latch) : (c.toWriteback l).er = c.er := rfl
@[simp] theorem Core.toWriteback_mr (c : Core) (l : Latch) : (c.toWriteback l).mr = { c.mr with update := false } := rfl
@[simp] theorem Core.toWriteback_wr (c : Core) (l : Latch) : (c.toWriteback l).wr = { l with update := true } := rfl
@[simp] theorem Core.toWriteback_rx (c : Core) (l : Latch) : (c.toWriteback l).rx = c.rx := rfl
@[simp] theorem Core.toWriteback_fetchHalted (c : Core) (l : Latch) : (c.toWriteback l).fetchHalted = c.fetchHalted := rfl
@[simp] theorem Core.toWriteback_ended (c : Core) (l : Latch) : (c.toWriteback l).ended = c.ended := rfl
@[simp] theorem Core.toWriteback_actF (c : Core) (l : Latch) : (c.toWriteback l).actF = c.actF := rfl
@[simp] theorem Core.toWriteback_actD (c : Core) (l : Latch) : (c.toWriteback l).actD = c.actD := rfl
@[simp] theorem Core.toWriteback_actE (c : Core) (l : Latch) : (c.toWriteback l).actE = c.actE := rfl
@[simp] theorem Core.toWriteback_actM (c : Core) (l : Latch) : (c.toWriteback l).actM = c.actM + 1 := rfl
@[simp] theorem Core.toWriteback_actW (c : Core) (l : Latch) : (c.toWriteback l).actW = c.actW := rfl
@[simp] theorem Core.toWriteback_nanDraws (c : Core) (l : Latch) : (c.toWriteback l).nanDraws = c.nanDraws := rfl

@[simp] theorem Core.retire_cfg (c : Core) : (c.retire).cfg = c.cfg := rfl
@[simp] theorem Core.retire_pc (c : Core) : (c.retire).pc = c.pc := rfl
@[simp] theorem Core.retire_imem (c : Core) : (c.retire).imem = c.imem := rfl
@[simp] theorem Core.retire_x (c : Core) : (c.retire).x = c.x := rfl
@[simp] theorem Core.retire_f (c : Core) : (c.retire).f = c.f := rfl
@[simp] theorem Core.retire_dmem (c : Core) : (c.retire).dmem = c.dmem := rfl
@[simp] theorem Core.retire_dr (c : Core) : (c.retire).dr = c.dr := rfl
@[simp] theorem Core.retire_er (c : Core) : (c.retire).er = c.er := rfl
@[simp] theorem Core.retire_mr (c : Core) : (c.retire).mr = c.mr := rfl
@[simp] theorem Core.retire_wr (c : Core) : (c.retire).wr = { c.wr with update := false } := rfl
@[simp] theorem Core.retire_rx (c : Core) : (c.retire).rx = c.rx := rfl
@[simp] theorem Core.retire_fetchHalted (c : Core) : (c.retire).fetchHalted = c.fetchHalted := rfl
@[simp] theorem Core.retire_ended (c : Core) : (c.retire).ended = c.ended := rfl
@[simp] theorem Core.retire_actF (c : Core) : (c.retire).actF = c.actF := rfl
@[simp] theorem Core.retire_actD (c : Core) : (c.retire).actD = c.actD := rfl
@[simp] theorem Core.retire_actE (c : Core) : (c.retire).actE = c.actE := rfl
@[simp] theorem Core.retire_actM (c : Core) : (c.retire).actM = c.actM := rfl
@[simp] theorem Core.retire_actW (c : Core) : (c.retire).actW = c.actW + 1 := rfl
@[simp] theorem Core.retire_nanDraws (c : Core) : (c.retire).nanDraws = c.nanDraws := rfl

@[simp] theorem Core.writeReg_cfg (c : Core) (g : RegFile) (r v : Word) : (c.writeReg g r v).cfg = c.cfg := by
  cases g <;> rfl

@[simp] theorem Core.writeReg_pc (c : Core) (g : RegFile) (r v : Word) : (c.writeReg g r v).pc = c.pc := by
  cases g <;> rfl

@[simp] theorem Core.writeReg_imem (c : Core) (g : RegFile) (r v : Word) : (c.writeReg g r v).imem = c.imem := by
  cases g <;> rfl

@[simp] theorem Core.writeReg_dmem (c : Core) (g : RegFile) (r v : Word) : (c.writeReg g r v).dmem = c.dmem := by
  cases g <;> rfl

@[simp] theorem Core.writeReg_dr (c : Core) (g : RegFile) (r v : Word) : (c.writeReg g r v).dr = c.dr := by
  cases g <;> rfl

@[simp] theorem Core.writeReg_er (c : Core) (g : RegFile) (r v : Word) : (c.writeReg g r v).er = c.er := by
  cases g <;> rfl

@[simp] theorem Core.writeReg_mr (c : Core) (g : RegFile) (r v : Word) : (c.writeReg g r v).mr = c.mr := by
  cases g <;> rfl

@[simp] theorem Core.writeReg_wr (c : Core) (g : RegFile) (r v : Word) : (c.writeReg g r v).wr = c.wr := by
  cases g <;> rfl

@[simp] theorem Core.writeReg_rx (c : Core) (g : RegFile) (r v : Word) : (c.writeReg g r v).rx = c.rx := by
  cases g <;> rfl

@[simp] theorem Core.writeReg_fetchHalted (c : Core) (g : RegFile) (r v : Word) : (c.writeReg g r v).fetchHalted = c.fetchHalted := by
  cases g <;> rfl

@[simp] theorem Core.writeReg_ended (c : Core) (g : RegFile) (r v : Word) : (c.writeReg g r v).ended = c.ended := by
  cases g <;> rfl

@[simp] theorem Core.writeReg_actF (c : Core) (g : RegFile) (r v : Word) : (c.writeReg g r v).actF = c.actF := by
  cases g <;> rfl

@[simp] theorem Core.writeReg_actD (c : Core) (g : RegFile) (r v : Word) : (c.writeReg g r v).actD = c.actD := by
  cases g <;> rfl

@[simp] theorem Core.writeReg_actE (c : Core) (g : RegFile) (r v : Word) : (c.writeReg g r v).actE = c.actE := by
  cases g <;> rfl

@[simp] theorem Core.writeReg_actM (c : Core) (g : RegFile) (r v : Word) : (c.writeReg g r v).actM = c.actM := by
  cases g <;> rfl

@[simp] theorem Core.writeReg_actW (c : Core) (g : RegFile) (r v : Word) : (c.writeReg g r v).actW = c.actW := by
  cases g <;> rfl

@[simp] theorem Core.writeReg_nanDraws (c : Core) (g : RegFile) (r v : Word) : (c.writeReg g r v).nanDraws = c.nanDraws := by
  cases g <;> rfl

/-! ## Links -/

@[simp] theorem sendOn_length (c : Nat) (p : OutPort) (ev : Event) (ls : List Link) :
    (sendOn c p ev ls).length = ls.length := by
  induction ls with
  | nil => rfl
  | cons l ls ih => unfold sendOn; split <;> simp [ih]

@[simp] theorem sendOn_cfg (c : Nat) (p : OutPort) (ev : Event) (ls : List Link) :
    (sendOn c p ev ls).map Link.cfg = ls.map Link.cfg := by
  induction ls with
  | nil => rfl
  | cons l ls ih => unfold sendOn; split <;> simp [ih]

@[simp] theorem State.sendAll_cfg (s : State) (evs : List (OutPort × Event)) :
    (s.sendAll evs).links.map Link.cfg = s.links.map Link.cfg := by
  induction evs generalizing s with
  | nil => rfl
  | cons e evs ih => simp [State.sendAll, ih]

/-- The links after several sends. -/
theorem State.sendAll_links (s : State) (evs : List (OutPort × Event)) :
    (s.sendAll evs).links = evs.foldl (fun ls e => sendOn s.cycle e.1 e.2 ls) s.links := by
  induction evs generalizing s with
  | nil => rfl
  | cons e evs ih => simp [State.sendAll, ih]

/-- Sending changes the links alone. -/
theorem State.sendAll_eq (s : State) (evs : List (OutPort × Event)) :
    s.sendAll evs = { s with links := evs.foldl (fun ls e => sendOn s.cycle e.1 e.2 ls) s.links } := by
  induction evs generalizing s with
  | nil => rfl
  | cons e evs ih => simp [State.sendAll, ih, State.send]

/-- A committed stage, field by field. -/
theorem State.commit_eq (s : State) (o : StageOut) :
    s.commit o = { s with
      cores := s.cores.set s.focus.core o.core
      focus := { s.focus with tickEnded := s.focus.tickEnded || o.tickEnded }
      links := (coreSends s.focus.core o.sends).foldl (fun ls e => sendOn s.cycle e.1 e.2 ls) s.links } := by
  simp [State.commit, State.sendAll_eq, State.endTick, State.putCore]

end Sys2Proof.Machine
end

