-- ==== Sys2Proof/Laws/Stages.lean ====
section
/-! SUPPORT. What the shared stage operations do: one lemma when a stage goes through, one when it faults, and the
inversion that says what any instruction can do in any stage. -/

namespace Sys2Proof.Machine

/-! ## Running a stage -/

theorem runStages_ok {m : Stages} {s : State} {c : Core} {o : StageOut} (hc : s.cores[s.focus.core]? = some c)
    (h : m.fn s.focus.stage ⟨s.modes, s.focus.core⟩ c = .ok o) : runStages m s = .next (s.commit o) := by
  simp only [runStages, hc, h]

theorem runStages_error {m : Stages} {s : State} {c : Core} {f : FaultRecord}
    (hc : s.cores[s.focus.core]? = some c) (h : m.fn s.focus.stage ⟨s.modes, s.focus.core⟩ c = .error f) :
    runStages m s = .next (s.raise f) := by
  simp only [runStages, hc, h]

/-- All that running a stage can answer with a next state. -/
theorem runStages_next {m : Stages} {s t : State} (h : runStages m s = .next t) :
    ∃ c, s.cores[s.focus.core]? = some c ∧
      ((∃ o, m.fn s.focus.stage ⟨s.modes, s.focus.core⟩ c = .ok o ∧ t = s.commit o) ∨
        ∃ f, m.fn s.focus.stage ⟨s.modes, s.focus.core⟩ c = .error f ∧ t = s.raise f) := by
  unfold runStages at h
  split at h
  · cases h
  · rename_i c hc
    refine ⟨c, hc, ?_⟩
    split at h
    · rename_i o ho; injection h with h; exact .inl ⟨o, ho, h.symm⟩
    · rename_i f hf; injection h with h; exact .inr ⟨f, hf, h.symm⟩

/-- Running a stage answers a next state as soon as the focus names a core. -/
theorem runStages_isNext {m : Stages} {s : State} {c : Core} (hc : s.cores[s.focus.core]? = some c) :
    ∃ t, runStages m s = .next t := by
  unfold runStages
  rw [hc]
  dsimp only
  split <;> exact ⟨_, rfl⟩

@[simp] theorem Stages.fn_decode (m : Stages) : m.fn .decode = m.decode := rfl
@[simp] theorem Stages.fn_execute (m : Stages) : m.fn .execute = m.execute := rfl
@[simp] theorem Stages.fn_memory (m : Stages) : m.fn .memory = m.memory := rfl
@[simp] theorem Stages.fn_writeback (m : Stages) : m.fn .writeback = m.writeback := rfl

/-! ## The stage operations -/

theorem decodeStage_ok {cls : InstrClass} {u : Uses} {env : StageEnv} {c : Core}
    (h : decodeFault env.modes c u = none) :
    decodeStage cls u env c = .ok
      { core := { c with er := c.operands cls u, dr := { c.dr with update := false }, actD := c.actD + 1 } } := by
  simp only [decodeStage, h]

theorem decodeStage_error {cls : InstrClass} {u : Uses} {env : StageEnv} {c : Core} {f : FaultRecord}
    (h : decodeFault env.modes c u = some f) : decodeStage cls u env c = .error f := by
  simp only [decodeStage, h]

/-- Decode raises nothing when the used registers exist and, with STRICT, x[0] is not written and no source has a
pending write. -/
theorem decodeFault_none {m : Modes} {c : Core} {u : Uses} (hd : badRegister u.dest = false)
    (h1 : badRegister u.rs1 = false) (h2 : badRegister u.rs2 = false)
    (hx : m.strict = true → u.dest ≠ some (.x, 0))
    (hr1 : m.strict = true → ∀ r, u.rs1 = some r → c.pendingWrite r.1 r.2 = false)
    (hr2 : m.strict = true → ∀ r, u.rs2 = some r → c.pendingWrite r.1 r.2 = false) :
    decodeFault m c u = none := by
  have hraw : ∀ o : Option (RegFile × Word), (∀ r, o = some r → c.pendingWrite r.1 r.2 = false) →
      c.rawOn o = none := by
    intro o ho
    cases o with
    | none => rfl
    | some r => simp [Core.rawOn, ho r rfl]
  have hb : u.badField c.dr.record = none := by simp [Uses.badField, Uses.badFields, hd, h1, h2]
  unfold decodeFault
  rw [hb]
  dsimp only
  by_cases hs : m.strict = true
  · have hw : u.writesX0 = false := by simpa [Uses.writesX0] using hx hs
    simp [hs, hw, hraw _ (hr1 hs), hraw _ (hr2 hs)]
  · simp [hs]

theorem executeStage_ok {compute : StageEnv → Latch → Except FaultRecord Latch} {env : StageEnv} {c : Core}
    {out : Latch} (h : compute env c.er = .ok out) : executeStage compute env c = .ok { core := c.toMemory out } := by
  simp only [executeStage, h]

theorem loadStage_ok {compute : Core → Latch → Except FaultRecord Latch} {env : StageEnv} {c : Core}
    {out : Latch} (h : compute c c.mr = .ok out) : loadStage compute env c = .ok { core := c.toWriteback out } := by
  simp only [loadStage, h]

theorem storeStage_ok {address : Latch → Word} {bytes : Latch → List Byte} {env : StageEnv} {c : Core}
    (h : (address c.mr).toNat + (bytes c.mr).length ≤ c.dmemSize) :
    storeStage address bytes env c = .ok
      { core := Core.toWriteback
          { c with dmem := Memory.writeList c.cfg.dmemImage c.dmem (address c.mr).toNat (bytes c.mr) } c.mr } := by
  simp only [storeStage, Core.memWrite_inRange h]

theorem storeStage_error {address : Latch → Word} {bytes : Latch → List Byte} {env : StageEnv} {c : Core}
    (h : c.dmemSize < (address c.mr).toNat + (bytes c.mr).length) :
    storeStage address bytes env c = .error ⟨.dmemRange, .address (address c.mr).toNat⟩ := by
  simp only [storeStage, Core.memWrite_outOfRange h]

theorem copyStage_ok {port : CorePort} {n : Word} {event : Core → List Byte → Event} {env : StageEnv} {c : Core}
    (h : c.mr.a.toNat + n.toNat ≤ c.dmemSize) :
    copyStage port n event env c = .ok
      { core := c.toWriteback c.mr
        sends := [(port, event c (Memory.readList c.cfg.dmemImage c.dmem c.mr.a.toNat n.toNat))] } := by
  simp only [copyStage, Core.memRead_inRange h]

theorem copyStage_error {port : CorePort} {n : Word} {event : Core → List Byte → Event} {env : StageEnv} {c : Core}
    (h : c.dmemSize < c.mr.a.toNat + n.toNat) :
    copyStage port n event env c = .error ⟨.dmemRange, .address c.mr.a.toNat⟩ := by
  simp only [copyStage, Core.memRead_outOfRange h]

theorem dispatchStage_held {dev : Device} {dst sub : Word} {env : StageEnv} {c : Core} (h : c.rx.busy = true) :
    dispatchStage dev dst sub env c = .ok { core := c } := by
  simp [dispatchStage, h]

theorem dispatchStage_sent {dev : Device} {dst sub : Word} {env : StageEnv} {c : Core} (h : c.rx.busy = false) :
    dispatchStage dev dst sub env c = .ok
      { core := { c with dr := { c.dr with update := false }, actD := c.actD + 1 }
        sends := [(requestPort dev, .a c.dr.record.opcode dst sub [])] } := by
  simp [dispatchStage, h]

/-! ## Registers -/

/-- Reading a register after writing one. -/
theorem Core.readReg_writeReg (c : Core) (g h : RegFile) (r q v : Word) (hr : r.toNat < 32) :
    (c.writeReg g r v).readReg h q = if h = g ∧ q = r then v else c.readReg h q := by
  cases g <;> cases h <;>
    simp [Core.writeReg, Core.readReg, Vector.getElem?_setIfInBounds, hr, BitVec.toNat_inj, eq_comm (a := r)] <;>
    split <;> simp_all

/-! ## What any instruction can do in a stage -/

/-- What no stage of any instruction changes on its core, and what it keeps. -/
structure StageKeeps (c c' : Core) : Prop where
  cfg : c'.cfg = c.cfg
  imem : c'.imem = c.imem
  rx : c'.rx = c.rx
  memory : Memory.wf c.cfg.dmemImage c.dmem = true → Memory.wf c.cfg.dmemImage c'.dmem = true
  ended : c.ended = true → c'.ended = true

/-- Every result of a stage keeps that. -/
def StageFn.Kept (f : StageFn) : Prop := ∀ env c o, f env c = .ok o → StageKeeps c o.core

theorem StageKeeps.refl (c : Core) : StageKeeps c c := ⟨rfl, rfl, rfl, id, id⟩

theorem decodeStage_kept (cls : InstrClass) (u : Uses) : StageFn.Kept (decodeStage cls u) := by
  intro env c o h
  unfold decodeStage at h
  split at h
  · cases h
  · injection h with h; subst h; exact ⟨rfl, rfl, rfl, id, id⟩

theorem executeStage_kept (f : StageEnv → Latch → Except FaultRecord Latch) : StageFn.Kept (executeStage f) := by
  intro env c o h
  unfold executeStage at h
  split at h
  · injection h with h; subst h; exact ⟨rfl, rfl, rfl, id, id⟩
  · cases h

theorem loadStage_kept (f : Core → Latch → Except FaultRecord Latch) : StageFn.Kept (loadStage f) := by
  intro env c o h
  unfold loadStage at h
  split at h
  · injection h with h; subst h; exact ⟨rfl, rfl, rfl, id, id⟩
  · cases h

theorem executePass_kept : StageFn.Kept executePass := executeStage_kept _

theorem memoryPass_kept : StageFn.Kept memoryPass := loadStage_kept _

theorem storeStage_kept (a : Latch → Word) (b : Latch → List Byte) : StageFn.Kept (storeStage a b) := by
  intro env c o h
  unfold storeStage at h
  split at h
  · rename_i m hm
    injection h with h; subst h
    exact ⟨rfl, rfl, rfl, fun hw => Core.memWrite_wf hm hw, id⟩
  · cases h

theorem writebackStage_kept (f : Core → Core) (hf : ∀ c, StageKeeps c (f c)) : StageFn.Kept (writebackStage f) := by
  intro env c o h
  injection h with h; subst h
  exact ⟨(hf c).cfg, (hf c).imem, (hf c).rx, (hf c).memory, (hf c).ended⟩

theorem Core.writeReg_keeps (c : Core) (g : RegFile) (r v : Word) : StageKeeps c (c.writeReg g r v) := by
  cases g <;> exact ⟨rfl, rfl, rfl, id, id⟩

theorem copyStage_kept (p : CorePort) (n : Word) (e : Core → List Byte → Event) : StageFn.Kept (copyStage p n e) := by
  intro env c o h
  unfold copyStage at h
  split at h
  · injection h with h; subst h; exact ⟨rfl, rfl, rfl, id, id⟩
  · cases h

theorem dispatchStage_kept (dev : Device) (d sub : Word) : StageFn.Kept (dispatchStage dev d sub) := by
  intro env c o h
  unfold dispatchStage at h
  split at h <;> (injection h with h; subst h; exact ⟨rfl, rfl, rfl, id, id⟩)

theorem floatStage_kept (op : Word → Word → Option Word) : StageFn.Kept (floatStage op) := by
  intro env c o h
  unfold floatStage at h
  split at h <;> (injection h with h; subst h; exact ⟨rfl, rfl, rfl, id, id⟩)

theorem branchStage_kept (taken : Word → Word → Bool) (imm : Word) : StageFn.Kept (branchStage taken imm) := by
  intro env c o h
  unfold branchStage at h
  split at h
  · split at h
    · rename_i c' hc'
      injection h with h; subst h
      unfold Core.resetPipeline at hc'
      split at hc'
      · cases hc'
      · injection hc' with hc'; subst hc'; exact ⟨rfl, rfl, rfl, id, id⟩
    · cases h
  · injection h with h; subst h; exact ⟨rfl, rfl, rfl, id, id⟩

theorem writebackX_kept (rd : Word) : StageFn.Kept (writebackX rd) :=
  writebackStage_kept _ fun c => Core.writeReg_keeps c .x rd c.wr.a

theorem writebackF_kept (rd : Word) : StageFn.Kept (writebackF rd) :=
  writebackStage_kept _ fun c => Core.writeReg_keeps c .f rd c.wr.fa

theorem writebackNothing_kept : StageFn.Kept writebackNothing := writebackStage_kept _ fun c => StageKeeps.refl c

/-- A meaning all of whose stages keep it. -/
structure Stages.Kept (m : Stages) : Prop where
  decode : StageFn.Kept m.decode
  execute : StageFn.Kept m.execute
  memory : StageFn.Kept m.memory
  writeback : StageFn.Kept m.writeback

theorem Stages.Kept.fn {m : Stages} (h : m.Kept) (st : Stage) : StageFn.Kept (m.fn st) := by
  cases st
  · exact h.decode
  · exact h.execute
  · exact h.memory
  · exact h.writeback

/-- The four stages of each instruction, gathered from the meanings. -/
def meaningOf : Instr → Stages
  | .lbu rd rs1 imm => stagesLbu rd rs1 imm
  | .lw rd rs1 imm => stagesLw rd rs1 imm
  | .lwg rd rs1 rs2 imm => stagesLwg rd rs1 rs2 imm
  | .flw rd rs1 imm => stagesFlw rd rs1 imm
  | .sb rs1 rs2 imm => stagesSb rs1 rs2 imm
  | .sw rs1 rs2 imm => stagesSw rs1 rs2 imm
  | .fsw rs1 rs2 imm => stagesFsw rs1 rs2 imm
  | .addi rd rs1 imm => stagesAddi rd rs1 imm
  | .slli rd rs1 imm => stagesSlli rd rs1 imm
  | .muli rd rs1 imm => stagesMuli rd rs1 imm
  | .add rd rs1 rs2 => stagesAdd rd rs1 rs2
  | .sll rd rs1 rs2 => stagesSll rd rs1 rs2
  | .mul rd rs1 rs2 => stagesMul rd rs1 rs2
  | .fadd rd rs1 rs2 => stagesFadd rd rs1 rs2
  | .fsub rd rs1 rs2 => stagesFsub rd rs1 rs2
  | .fmac8 rd rs1 rs2 => stagesFmac8 rd rs1 rs2
  | .lui rd imm => stagesLui rd imm
  | .beq rs1 rs2 imm => stagesBeq rs1 rs2 imm
  | .bne rs1 rs2 imm => stagesBne rs1 rs2 imm
  | .ret => stagesRet
  | .cpyCam rd rs1 imm funct7 => stagesCpyCam rd rs1 imm funct7
  | .cpyMpe rd rs1 imm funct7 => stagesCpyMpe rd rs1 imm funct7
  | .cpyMmr rd rs1 imm funct7 => stagesCpyMmr rd rs1 imm funct7
  | .cpyUp rd rs1 imm funct7 => stagesCpyUp rd rs1 imm funct7
  | .camPre rd => stagesCamPre rd
  | .camSrch rd => stagesCamSrch rd
  | .mpeRst rd => stagesMpeRst rd
  | .mpeLdt rd => stagesMpeLdt rd
  | .mpeLdb rd => stagesMpeLdb rd
  | .mpeUpd rd => stagesMpeUpd rd
  | .mpePack rd => stagesMpePack rd
  | .mpeDec rd => stagesMpeDec rd
  | .mmrExt rd => stagesMmrExt rd

/-- Running an instruction is running its four stages. -/
theorem exec_eq (i : Instr) (s : State) : exec i s = runStages (meaningOf i) s := by
  cases i <;> rfl

/-- Every stage of every instruction keeps it. -/
theorem meaningOf_kept (i : Instr) : (meaningOf i).Kept := by
  cases i <;> constructor <;>
    dsimp only [meaningOf,
      stagesLbu, stagesLw, stagesLwg, stagesFlw, stagesSb, stagesSw, stagesFsw, stagesAddi, stagesSlli,
      stagesMuli, stagesAdd, stagesSll, stagesMul, stagesFadd, stagesFsub, stagesFmac8, stagesLui,
      stagesBeq, stagesBne, stagesRet, stagesCpyCam, stagesCpyMpe, stagesCpyMmr, stagesCpyUp,
      stagesCamPre, stagesCamSrch, stagesMpeRst, stagesMpeLdt, stagesMpeLdb, stagesMpeUpd,
      stagesMpePack, stagesMpeDec, stagesMmrExt] <;>
    first
      | exact decodeStage_kept _ _
      | exact dispatchStage_kept _ _ _
      | exact executePass_kept
      | exact memoryPass_kept
      | exact writebackNothing_kept
      | exact executeStage_kept _
      | exact branchStage_kept _ _
      | exact floatStage_kept _
      | exact loadStage_kept _
      | exact storeStage_kept _ _
      | exact copyStage_kept _ _ _
      | exact writebackX_kept _
      | exact writebackF_kept _
      | exact writebackStage_kept _ fun c => ⟨rfl, rfl, rfl, id, fun _ => rfl⟩

/-- Every instruction's meaning is four stages, and each keeps it. -/
theorem exec_stages (i : Instr) : ∃ m : Stages, m.Kept ∧ ∀ s, exec i s = runStages m s :=
  ⟨_, meaningOf_kept i, exec_eq i⟩

/-- All that an instruction can answer with a next state: a recorded fault and nothing else, or a committed stage. -/
theorem exec_next {i : Instr} {s t : State} (h : exec i s = .next t) :
    (∃ f, t = s.raise f) ∨
      ∃ c o, s.cores[s.focus.core]? = some c ∧ t = s.commit o ∧ StageKeeps c o.core := by
  obtain ⟨m, hm, he⟩ := exec_stages i
  rw [he] at h
  obtain ⟨c, hc, ⟨o, ho, rfl⟩ | ⟨f, -, rfl⟩⟩ := runStages_next h
  · exact .inr ⟨c, o, hc, rfl, hm.fn _ _ _ _ ho⟩
  · exact .inl ⟨f, rfl⟩

/-- An instruction answers a next state as soon as the focus names a core. -/
theorem exec_isNext {i : Instr} {s : State} {c : Core} (hc : s.cores[s.focus.core]? = some c) :
    ∃ t, exec i s = .next t := by
  obtain ⟨m, -, he⟩ := exec_stages i
  rw [he]
  exact runStages_isNext hc

theorem unmappedAt_kept (code : FaultCode) (cls : InstrClass) (latch : Core → Latch) :
    StageFn.Kept (unmappedAt code cls latch) := by
  intro env c o h; cases h

theorem dispatchUnmapped_kept : StageFn.Kept dispatchUnmapped := by
  intro env c o h
  unfold dispatchUnmapped at h
  split at h
  · injection h with h; subst h; exact StageKeeps.refl c
  · cases h

theorem unmappedFunct3_kept (cls : InstrClass) (r : Record) : (unmappedFunct3 cls r).Kept := by
  cases cls <;> (
    constructor
    · dsimp only [unmappedFunct3]
      first
        | exact decodeStage_kept _ _
        | exact dispatchUnmapped_kept
    · dsimp only [unmappedFunct3]
      first
        | exact executePass_kept
        | exact executeStage_kept _
        | exact unmappedAt_kept _ _ _
    · dsimp only [unmappedFunct3]
      first
        | exact memoryPass_kept
        | exact loadStage_kept _
        | exact unmappedAt_kept _ _ _
    · exact writebackNothing_kept)

/-- The same for a record that is no instruction of the table. -/
theorem execUnlisted_stages (u : Unlisted) (r : Record) :
    ∃ m : Stages, m.Kept ∧ ∀ s, execUnlisted u r s = runStages m s := by
  cases u with
  | opcode =>
    exact ⟨{ decode := decodeUnmapped }, ⟨(by intro env c o h; cases h), executePass_kept, memoryPass_kept, writebackNothing_kept⟩,
      fun _ => rfl⟩
  | funct3 cls => exact ⟨_, unmappedFunct3_kept cls r, fun _ => rfl⟩
  | subop dev =>
    exact ⟨{ decode := dispatchStage dev r.rd r.imm }, ⟨dispatchStage_kept _ _ _, executePass_kept, memoryPass_kept, writebackNothing_kept⟩,
      fun _ => rfl⟩

/-- Whatever a stage's register holds, running it is running four stages that keep it. -/
theorem runForm_stages (form : Except Unlisted Instr) (r : Record) :
    ∃ m : Stages, m.Kept ∧ ∀ s, runForm form r s = runStages m s := by
  cases form with
  | ok i => exact exec_stages i
  | error u => exact execUnlisted_stages u r

/-! ## One instruction through the four stages -/

theorem getElem?_set_core {s : State} {k : Nat} {c c' : Core} (hc : s.cores[k]? = some c) :
    (s.cores.set k c')[k]? = some c' := by
  have hk : k < s.cores.length := by
    rcases Nat.lt_or_ge k s.cores.length with h | h
    · exact h
    · rw [List.getElem?_eq_none h] at hc; cases hc
  simp [hk]

/-- A stage of core k that goes through, from any state whose focus will be set to it. -/
theorem exec_stage {i : Instr} {s : State} {k : Nat} {st : Stage} {c : Core} {o : StageOut}
    (hc : s.cores[k]? = some c) (h : (meaningOf i).fn st ⟨s.modes, k⟩ c = .ok o) :
    exec i (s.focusOn k st) = .next ((s.focusOn k st).commit o) := by
  rw [exec_eq]
  exact runStages_ok (s := s.focusOn k st) hc h

/-- A stage of core k that faults. -/
theorem exec_stage_error {i : Instr} {s : State} {k : Nat} {st : Stage} {c : Core} {f : FaultRecord}
    (hc : s.cores[k]? = some c) (h : (meaningOf i).fn st ⟨s.modes, k⟩ c = .error f) :
    exec i (s.focusOn k st) = .next ((s.focusOn k st).raise f) := by
  rw [exec_eq]
  exact runStages_error (s := s.focusOn k st) hc h

end Sys2Proof.Machine
end

