-- ==== Sys2Proof/Laws/Runs.lean ====
section
/-! SUPPORT. An instruction that goes through all four stages, put together from its stages. -/

namespace Sys2Proof.Machine

/-- Decode raises nothing on an accepted instruction. -/
theorem decodeFault_accepted {s : State} {k : Nat} {c : Core} {i : Instr} (u : Uses) (h : Accepted s k c i)
    (hd : u.dest = destOf i) (hs : u.rs1.toList ++ u.rs2.toList = sourcesOf i)
    (hw : i.wf = true → badRegister u.dest = false ∧ badRegister u.rs1 = false ∧ badRegister u.rs2 = false) :
    decodeFault s.modes c u = none := by
  obtain ⟨-, hwf, hst⟩ := h
  obtain ⟨h0, h1, h2⟩ := hw hwf
  refine decodeFault_none h0 h1 h2 (fun hx => hd ▸ (hst hx).1) (fun hx r hr => ?_) fun hx r hr => ?_
  · exact (hst hx).2 r (hs ▸ by simp [hr])
  · exact (hst hx).2 r (hs ▸ by simp [hr])

/-- Four stages that go through, of which at most memory sends, run the instruction through. -/
theorem runsThrough_of {i : Instr} {s : State} {k : Nat} {c c1 c2 c3 c4 : Core} {sends : List (CorePort × Event)} (hc : s.cores[k]? = some c)
    (h1 : (meaningOf i).decode ⟨s.modes, k⟩ c = .ok { core := c1 })
    (h2 : (meaningOf i).execute ⟨s.modes, k⟩ c1 = .ok { core := c2 })
    (h3 : (meaningOf i).memory ⟨s.modes, k⟩ c2 = .ok { core := c3, sends := sends })
    (h4 : (meaningOf i).writeback ⟨s.modes, k⟩ c3 = .ok { core := c4 }) :
    RunsThrough i k s (((s.focusOn k .writeback).putCore k c4).sendAll (coreSends k sends)) := by
  refine ⟨_, _, _, exec_stage hc h1, exec_stage (c := c1) ?_ h2, exec_stage (c := c2) ?_ h3, ?_⟩
  · simp [getElem?_set_core hc]
  · simp [getElem?_set_core hc]
  · rw [exec_stage (c := c3) (o := { core := c4 }) (by simp [getElem?_set_core hc]) (by simpa using h4)]
    simp [State.commit_eq, State.focusOn, coreSends, State.putCore, State.sendAll_eq]

/-- The register and byte frame of a core that has left the pipeline with one register written. -/
theorem LeftPipeline.written {c c' : Core} {g : RegFile} {r v : Word} (h : LeftPipeline (c.writeReg g r v) c')
    (hr : r.toNat < 32) : c'.readReg g r = v ∧ SameOtherRegisters c c' g r ∧ SameBytes c c' := by
  obtain ⟨er, mr, wr, -, -, -, rfl⟩ := h
  have hreg : ∀ h q, Core.readReg { c.writeReg g r v with
      dr := { (c.writeReg g r v).dr with update := false }
      er := er
      mr := mr
      wr := wr
      actD := (c.writeReg g r v).actD + 1
      actE := (c.writeReg g r v).actE + 1
      actM := (c.writeReg g r v).actM + 1
      actW := (c.writeReg g r v).actW + 1 } h q = if h = g ∧ q = r then v else c.readReg h q := by
    intro h q
    rw [← Core.readReg_writeReg c g h r q v hr]
    cases h <;> rfl
  refine ⟨by rw [hreg]; simp, fun h q hne => ?_, fun a => Core.byteAt_congr (by simp) (by simp) a⟩
  rw [hreg, if_neg]
  rintro ⟨rfl, rfl⟩
  exact hne rfl

/-- An instruction that runs through and leaves one register written writes its result. -/
theorem WritesResult.of {i : Instr} {s : State} {k : Nat} {c c' : Core} {g : RegFile} {r v : Word}
    (h : RunsThrough i k s ((s.focusOn k .writeback).putCore k c')) (hl : LeftPipeline (c.writeReg g r v) c')
    (hr : r.toNat < 32) : WritesResult i s k c g r v :=
  ⟨c', h, hl, hl.written hr⟩

/-- The destination of a well-formed instruction that names one first is below 32. -/
theorem wf_first {i : Instr} {r : Word} {l : List Word} (h : i.wf = true) (he : i.registerFields = r :: l) :
    r.toNat < 32 := by
  simp only [Instr.wf, he, List.all_cons, Bool.and_eq_true, isRegister, decide_eq_true_eq] at h
  exact h.1

end Sys2Proof.Machine
end

