-- ==== Sys2Proof/Tests/Slice0.lean ====
section
/-! SUPPORT. The model's own tests: the well-formedness smoke, the decoding of a written word per instruction, one small
run per instruction with the expected result of 95_test_vectors.md, and for every statement with hypotheses a state
that meets them. -/

namespace Sys2Proof.Tests

open Sys2Proof.Machine

/- One theorem after another: each parallel check takes a thread's stack. -/
set_option Elab.async false

/-! ## Well-formedness: a register field of 32 is refused, of 31 accepted (R112) -/

theorem test_wf_rd_refused : Instr.wf (.addi 32 0 0) = false := by decide
theorem test_wf_rs1_refused : Instr.wf (.lbu 0 32 0) = false := by decide
theorem test_wf_rs2_refused : Instr.wf (.sw 0 32 0) = false := by decide
theorem test_wf_float_rd_refused : Instr.wf (.fadd 32 0 0) = false := by decide
theorem test_wf_whole_field_checked : Instr.wf (.lui 0x80000001 0) = false := by decide
theorem test_wf_copy_base_refused : Instr.wf (.cpyUp 0 32 0 0) = false := by decide
theorem test_wf_last_register : Instr.wf (.fmac8 31 31 31) = true := by decide
theorem test_wf_event_dst_is_no_register : Instr.wf (.mpeDec 99) = true ∧ Instr.wf (.cpyCam 99 0 0 0) = true := by decide

/-! ## Decoding: one written record per instruction (R110, R114, R117, R124; records of 95_test_vectors.md) -/

theorem test_decode_lbu : decode .default [3, 6, 3, 0, 3, 0, 0] = .ok (.lbu 6 3 3) := by decide
theorem test_decode_lw : decode .default [3, 2, 1, 0, 1, 2, 0] = .ok (.lw 2 1 1) := by decide
theorem test_decode_lwg : decode .default [3, 7, 3, 5, 0, 4, 0] = .ok (.lwg 7 3 5 0) := by decide
theorem test_decode_flw : decode .default [7, 2, 0, 0, 4, 0, 0] = .ok (.flw 2 0 4) := by decide
theorem test_decode_sb : decode .default [35, 0, 0, 8, 20, 0, 0] = .ok (.sb 0 8 20) := by decide
theorem test_decode_sw : decode .default [35, 0, 1, 2, 3, 2, 0] = .ok (.sw 1 2 3) := by decide
theorem test_decode_fsw : decode .default [39, 0, 0, 3, 16, 0, 0] = .ok (.fsw 0 3 16) := by decide
theorem test_decode_addi : decode .default [19, 2, 1, 0, 4294967295, 0, 0] = .ok (.addi 2 1 0xFFFFFFFF) := by decide
theorem test_decode_slli : decode .default [19, 8, 6, 0, 4, 1, 0] = .ok (.slli 8 6 4) := by decide
theorem test_decode_muli : decode .default [19, 9, 2, 0, 3, 2, 0] = .ok (.muli 9 2 3) := by decide
theorem test_decode_add : decode .default [51, 4, 1, 2, 0, 0, 0] = .ok (.add 4 1 2) := by decide
theorem test_decode_sll : decode .default [51, 3, 1, 2, 0, 1, 0] = .ok (.sll 3 1 2) := by decide
theorem test_decode_mul : decode .default [51, 3, 1, 2, 0, 2, 0] = .ok (.mul 3 1 2) := by decide
theorem test_decode_fadd : decode .default [83, 3, 1, 2, 0, 0, 0] = .ok (.fadd 3 1 2) := by decide
theorem test_decode_fsub : decode .default [83, 7, 2, 1, 0, 1, 0] = .ok (.fsub 7 2 1) := by decide
theorem test_decode_fmac8 : decode .default [83, 6, 4, 5, 0, 2, 0] = .ok (.fmac8 6 4 5) := by decide
theorem test_decode_lui : decode .default [55, 5, 0, 0, 74565, 0, 0] = .ok (.lui 5 0x12345) := by decide
theorem test_decode_beq : decode .default [99, 0, 1, 2, 2053, 0, 0] = .ok (.beq 1 2 0x805) := by decide
theorem test_decode_bne : decode .default [99, 0, 2, 0, 2053, 1, 0] = .ok (.bne 2 0 0x805) := by decide
theorem test_decode_ret : decode .default [103, 0, 0, 0, 0, 0, 0] = .ok .ret := by decide
theorem test_decode_cpyCam : decode .default [43, 5, 1, 0, 0, 0, 9] = .ok (.cpyCam 5 1 0 9) := by decide
theorem test_decode_cpyMpe : decode .default [43, 0, 1, 0, 4, 1, 0] = .ok (.cpyMpe 0 1 4 0) := by decide
theorem test_decode_cpyMmr : decode .default [43, 0, 1, 0, 4, 2, 0] = .ok (.cpyMmr 0 1 4 0) := by decide
theorem test_decode_cpyUp : decode .default [43, 0, 1, 0, 4, 3, 7] = .ok (.cpyUp 0 1 4 7) := by decide
theorem test_decode_camPre : decode .default [11, 0, 0, 0, 0, 0, 0] = .ok (.camPre 0) := by decide
theorem test_decode_camSrch : decode .default [11, 3, 0, 0, 1, 0, 0] = .ok (.camSrch 3) := by decide
theorem test_decode_mpeRst : decode .default [11, 0, 0, 0, 0, 1, 0] = .ok (.mpeRst 0) := by decide
theorem test_decode_mpeLdt : decode .default [11, 0, 0, 0, 1, 1, 0] = .ok (.mpeLdt 0) := by decide
theorem test_decode_mpeLdb : decode .default [11, 0, 0, 0, 2, 1, 0] = .ok (.mpeLdb 0) := by decide
theorem test_decode_mpeUpd : decode .default [11, 0, 0, 0, 3, 1, 0] = .ok (.mpeUpd 0) := by decide
theorem test_decode_mpePack : decode .default [11, 0, 0, 0, 4, 1, 0] = .ok (.mpePack 0) := by decide
theorem test_decode_mpeDec : decode .default [11, 0, 0, 0, 5, 1, 0] = .ok (.mpeDec 0) := by decide
theorem test_decode_mmrExt : decode .default [11, 0, 0, 0, 0, 2, 0] = .ok (.mmrExt 0) := by decide

/-- V-INT 38: an unmapped opcode is an OPIMM record. -/
theorem test_decode_unmapped_opcode : decode .default [1, 1, 0, 0, 7, 0, 0] = .ok (.addi 1 0 7) := by decide

/-- V-INT 40: with UNMAPPED_OPCODE = FAULT it is none. -/
theorem test_decode_unmapped_faults :
    decode { Modes.default with unmappedOpcode := .fault } [1, 1, 0, 0, 7, 0, 0] =
      .error (.unlisted .opcode) := by decide

theorem test_decode_rejects_funct3 :
    decode .default [83, 3, 1, 2, 0, 3, 0] = .error (.unlisted (.funct3 .fop)) := by decide
theorem test_decode_rejects_subop :
    decode .default [11, 0, 0, 0, 9, 1, 0] = .error (.unlisted (.subop .mpe)) := by decide
theorem test_decode_rejects_length : decode .default [19, 1, 1, 0, 10, 0] = .error .wrongLength := by decide

/-- The bits of `ADDI x2, x1, 5` as one number, the record's first word lowest. -/
theorem test_decodeTableWord :
    decodeTableWord 224 (19 + 2 * 2 ^ 32 + 1 * 2 ^ 64 + 5 * 2 ^ 128) = some (.addi 2 1 5) := by decide

/-! ## A small core -/

/-- Sixteen bytes of data memory, no inbound port. -/
def coreConfig : CoreConfig where
  imemImage := []
  dmemImage := [0x78, 0x56, 0x34, 0x12, 0xAB, 0xF0, 0, 0, 0, 0, 0x80, 0x3F, 0x0A, 0x0B, 0x0C, 0x0D]
  coreId := 2
  rxLatency := 1
  rxRegions := []

/-- The core whose DR holds an instruction fetched at 10, with x1, x2 and f1, f2 as given. -/
def coreWith (i : Instr) (v1 v2 : Word) : Core :=
  let c := Core.boot coreConfig
  { c with
    pc := 11
    dr := ⟨true, i.record (defaultOpcode i.cls), 10⟩
    x := (c.x.set 1 v1).set 2 v2
    f := (c.f.set 1 v1).set 2 v2 }

/-- A link from each output port of the core. -/
def linksOut : List Link :=
  [.camReq, .mpeReq, .mmrReq, .camData, .mpeData, .mmrData, .up].map fun p => ⟨⟨.core 0 p, .rx 9 9, 3⟩, []⟩

/-- A system of one core, with nothing else but links from its ports. -/
def withCore (m : Modes) (c : Core) : State :=
  { State.boot { Config.default with modes := m, topology := [], cams := [], mpes := [], mmrs := [], routers := [] } with
    cores := [c], links := linksOut }

/-- A system of one core without links. -/
def alone (c : Core) : State := { withCore .default c with links := [] }

/-- The system of `coreWith`, default modes. -/
def small (i : Instr) (v1 v2 : Word) : State := withCore .default (coreWith i v1 v2)

/-- Run an instruction in the given stages of core 0. -/
def runIn (i : Instr) : List Stage → State → Option State
  | [], s => some s
  | st :: sts, s =>
    match exec i (s.focusOn 0 st) with
    | .next t => runIn i sts t
    | .fault _ => none
    | .refused _ => none

/-- An instruction run through the four stages on `small`. -/
def ran (i : Instr) (v1 v2 : Word) : Option State := runIn i [.decode, .execute, .memory, .writeback] (small i v1 v2)

/-- What is asked of core 0 of a system without a fault. -/
def ofCore {α : Type} (s : Option State) (ask : Core → α) : Option α :=
  match s with
  | some t => if t.fault = none then t.cores.head?.map ask else none
  | none => none

/-- Register 3 of a file after an instruction has run through. -/
def x3After (i : Instr) (v1 v2 : Word) : Option Word := ofCore (ran i v1 v2) fun c => c.readReg .x 3
def f3After (i : Instr) (v1 v2 : Word) : Option Word := ofCore (ran i v1 v2) fun c => c.readReg .f 3

/-- Bytes 8 to 15 after an instruction has run through. -/
def bytesAfter (i : Instr) (v1 v2 : Word) : Option (List Byte) :=
  ofCore (ran i v1 v2) fun c => (List.range 8).map fun j => c.byteAt (8 + j)

/-- The events on the links after an instruction has run in some stages, each with its port. -/
def sentIn (i : Instr) (sts : List Stage) (v1 : Word) : Option (List (OutPort × Event)) :=
  (runIn i sts (small i v1 0)).map fun t => t.links.flatMap fun l => l.queue.map fun e => (l.cfg.src, e.2)

/-- The fault recorded after an instruction has run in some stages. -/
def faultIn (i : Instr) (sts : List Stage) (v1 v2 : Word) : Option FaultRecord :=
  (runIn i sts (small i v1 v2)).bind fun t => t.fault

/-! ## One run per instruction (the numbers are those of 95_test_vectors.md) -/

/-- V-INT 2. -/
theorem test_addi_wraps : x3After (.addi 3 1 1) 0xFFFFFFFF 0 = some 0 := by decide +kernel
/-- V-INT 5 and 7. -/
theorem test_slli : x3After (.slli 3 1 31) 3 0 = some 0x80000000 := by decide +kernel
theorem test_slli_traps :
    faultIn (.slli 3 1 32) [.decode, .execute] 3 0 = some ⟨.shiftRange, .shift 10 32⟩ := by decide +kernel
/-- V-INT 10. -/
theorem test_muli : x3After (.muli 3 1 0xFFFFFFFF) 5 0 = some 0xFFFFFFFB := by decide +kernel
/-- V-INT 11. -/
theorem test_add : x3After (.add 3 1 2) 0xFFFFFFFF 2 = some 1 := by decide +kernel
/-- V-INT 12 and 13: the whole register is the amount. -/
theorem test_sll : x3After (.sll 3 1 2) 1 31 = some 0x80000000 := by decide +kernel
theorem test_sll_traps :
    faultIn (.sll 3 1 2) [.decode, .execute] 1 0x100 = some ⟨.shiftRange, .shift 10 0x100⟩ := by decide +kernel
/-- V-INT 14. -/
theorem test_mul : x3After (.mul 3 1 2) 0xFFFFFFFF 0xFFFFFFFF = some 1 := by decide +kernel
/-- V-INT 18. -/
theorem test_lui : x3After (.lui 3 0x100001) 0 0 = some 0x00001000 := by decide +kernel
/-- V-INT 19. -/
theorem test_lbu : x3After (.lbu 3 1 1) 4 0 = some 0x000000F0 := by decide +kernel
/-- V-INT 22 and 23. -/
theorem test_lw_wraps_address : x3After (.lw 3 1 0xFFFFFFFF) 1 0 = some 0x12345678 := by decide +kernel
theorem test_lw_traps :
    faultIn (.lw 3 1 0) [.decode, .execute, .memory] 13 0 = some ⟨.dmemRange, .address 13⟩ := by decide +kernel
/-- V-INT 24 and 26. -/
theorem test_lwg : x3After (.lwg 3 1 2 0) 12 0x00010203 = some 0x0A0B0C0D := by decide +kernel
theorem test_lwg_traps :
    faultIn (.lwg 3 1 2 0) [.decode, .execute, .memory] 0 0xFF000000 = some ⟨.dmemRange, .address 255⟩ := by
  decide +kernel
/-- V-INT 27 and 29. -/
theorem test_sb : bytesAfter (.sb 1 2 0) 8 0x1234 = some [0x34, 0, 0x80, 0x3F, 0x0A, 0x0B, 0x0C, 0x0D] := by
  decide +kernel
theorem test_sw : bytesAfter (.sw 1 2 3) 8 0x11223344 = some [0, 0, 0x80, 0x44, 0x33, 0x22, 0x11, 0x0D] := by
  decide +kernel
/-- V-FP 1, 4, 5, 14 and the FSUB of -0.0. -/
theorem test_fadd_tie_to_even : f3After (.fadd 3 1 2) 0x3F800000 0x33800000 = some 0x3F800000 := by decide +kernel
theorem test_fadd_overflows : f3After (.fadd 3 1 2) 0x7F7FFFFF 0x7F7FFFFF = some 0x7F800000 := by decide +kernel
theorem test_fsub_subnormal : f3After (.fsub 3 1 2) 0x00800000 0x00000001 = some 0x007FFFFF := by decide +kernel
theorem test_fsub_negative_zero : f3After (.fsub 3 1 2) 0x80000000 0 = some 0x80000000 := by decide +kernel
/-- V-FP 15 and 17. -/
theorem test_fmac8 : f3After (.fmac8 3 1 2) 0x38383838 0x44403C38 = some 0x40F00000 := by decide +kernel
theorem test_fmac8_order : f3After (.fmac8 3 1 2) 0x0101017F 0x0101017F = some 0x48610000 := by decide +kernel
/-- V-FP 24 and 26 (the bytes of 1.0 lie at 8). -/
theorem test_flw : f3After (.flw 3 1 0) 8 0 = some 0x3F800000 := by decide +kernel
theorem test_fsw : bytesAfter (.fsw 1 2 0) 8 0x40C00000 = some [0, 0, 0xC0, 0x40, 0x0A, 0x0B, 0x0C, 0x0D] := by
  decide +kernel
/-- V-INT 30 and 31: fetched at 10, the next instruction fetched, so pc is 12 when the branch executes. -/
theorem test_beq_taken :
    ofCore (runIn (.beq 1 2 0x805) [.decode, .execute] (withCore .default { coreWith (.beq 1 2 0x805) 4 4 with pc := 12 }))
      (fun c => (c.pc, c.dr.update, c.mr.update)) = some (7, false, false) := by decide +kernel
theorem test_beq_not_taken :
    ofCore (ran (.beq 1 2 0x805) 4 5) (fun c => (c.pc, c.actW)) = some (11, 1) := by decide +kernel
/-- V-INT 32 and 36. -/
theorem test_bne_taken :
    ofCore (runIn (.bne 2 0 0x805) [.decode, .execute] (withCore .default { coreWith (.bne 2 0 0x805) 0 2 with pc := 8 }))
      (fun c => c.pc) = some 3 := by decide +kernel
theorem test_bne_not_taken : ofCore (ran (.bne 0 0 0) 0 0) (fun c => (c.pc, c.actW)) = some (11, 1) := by decide +kernel
/-- V-INT 37. -/
theorem test_ret : ofCore (ran .ret 0 0) (fun c => c.ended) = some true := by decide +kernel

/-- V-COPY 1 to 5 and 6: sent in the memory stage, not before. -/
theorem test_cpyCam : sentIn (.cpyCam 5 1 4 9) [.decode, .execute, .memory] 12 =
    some [(.core 0 .camData, .a 43 5 9 [0x0A, 0x0B, 0x0C, 0x0D])] := by decide +kernel
theorem test_cpyCam_traps :
    faultIn (.cpyCam 0 1 4 0) [.decode, .execute, .memory] 14 0 = some ⟨.dmemRange, .address 14⟩ := by decide +kernel
theorem test_cpyMpe : sentIn (.cpyMpe 0 1 2 0) [.decode, .execute, .memory] 0 =
    some [(.core 0 .mpeData, .a 43 0 0 [0x78, 0x56])] := by decide +kernel
theorem test_cpyMmr : sentIn (.cpyMmr 0 1 0 1) [.decode, .execute, .memory] 16 =
    some [(.core 0 .mmrData, .a 43 0 1 [])] := by decide +kernel
theorem test_cpyUp : sentIn (.cpyUp 0 1 4 7) [.decode, .execute, .memory] 8 =
    some [(.core 0 .up, .b 43 0 2 0 7 [0, 0, 0x80, 0x3F])] := by decide +kernel
theorem test_cpyUp_not_before_memory : sentIn (.cpyUp 0 1 4 7) [.decode, .execute] 8 = some [] := by decide +kernel

/-- V-CUSTOM 1 to 5: sent at decode. -/
theorem test_camPre : sentIn (.camPre 0) [.decode] 0 = some [(.core 0 .camReq, .a 11 0 0 [])] := by decide +kernel
theorem test_camSrch : sentIn (.camSrch 3) [.decode] 0 = some [(.core 0 .camReq, .a 11 3 1 [])] := by decide +kernel
theorem test_mpeRst : sentIn (.mpeRst 0) [.decode] 0 = some [(.core 0 .mpeReq, .a 11 0 0 [])] := by decide +kernel
theorem test_mpeLdt : sentIn (.mpeLdt 0) [.decode] 0 = some [(.core 0 .mpeReq, .a 11 0 1 [])] := by decide +kernel
theorem test_mpeLdb : sentIn (.mpeLdb 0) [.decode] 0 = some [(.core 0 .mpeReq, .a 11 0 2 [])] := by decide +kernel
theorem test_mpeUpd : sentIn (.mpeUpd 0) [.decode] 0 = some [(.core 0 .mpeReq, .a 11 0 3 [])] := by decide +kernel
theorem test_mpePack : sentIn (.mpePack 0) [.decode] 0 = some [(.core 0 .mpeReq, .a 11 0 4 [])] := by decide +kernel
theorem test_mpeDec : sentIn (.mpeDec 0) [.decode] 0 = some [(.core 0 .mpeReq, .a 11 0 5 [])] := by decide +kernel
theorem test_mmrExt : sentIn (.mmrExt 0) [.decode] 0 = some [(.core 0 .mmrReq, .a 11 0 0 [])] := by decide +kernel

/-! ## Devices, router, receive, queues -/

/-- A device command or data event. -/
def cmd (imm : Word) : Event := .a 11 0 imm []

/-- The CAM of V-CAM 13 to 24, NIBBLE_ENERGY(v) = v. -/
def camConfig : CamConfig where
  nRows := 2
  nCols := 2
  latency := 2
  rowImage := [[⟨3, 7, false, false⟩, ⟨8, 9, false, false⟩], [⟨5, 10, false, false⟩, ⟨0, 0, true, true⟩]]
  kCd := 1
  kSa := 2
  kPc := 3
  kCell := 4
  kReg := 5
  nibbleEnergy := #v[0, 1, 2, 3, 4, 5, 6, 7, 8, 9, 10, 11, 12, 13, 14, 15]
  pStaticReg := 1
  fClk := 1

/-- The match vector of a query payload. -/
def searched (q : List Byte) : Option (List Byte) :=
  match (Cam.boot camConfig).latchQuery q with
  | .ok cam => match cam.perform (cmd 1) with
    | .ok (_, some ev) => some ev.payload
    | _ => none
  | .error _ => none

/-- V-CAM 13 to 17. -/
theorem test_cam_search : searched [5, 9, 1, 1] = some [1, 0] ∧ searched [5, 9, 1, 0] = some [1, 0] ∧
    searched [6, 0, 1, 0] = some [1, 1] ∧ searched [0, 0, 0, 0] = some [1, 1] ∧
    searched [8, 9, 1, 1] = some [0, 1] := by decide +kernel

/-- V-CAM 19 and 21: leakage, column drive, sense, precharge, cell and register energy. -/
theorem test_cam_energy :
    let cam := (Cam.boot camConfig).searchEnergy [true, true]
    [cam.eLeak, cam.eCd, cam.eSa, cam.ePc, cam.eCell, cam.eReg, cam.precharge.ePc] = [42, 2, 4, 6, 16, 10, 12] := by
  decide +kernel

/-- V-CAM 22. -/
theorem test_cam_teardown : ((Cam.boot camConfig).teardown 22).eStatic = 88 := by decide +kernel

/-- The MPE of V-MPE with t and b loaded and n, s and p updated (vectors 2, 3 and 6). -/
def mpeUpdated : List MpeRow :=
  List.map (fun (tb : Byte × Byte) => MpeRow.update ⟨tb.1, tb.2, 0, 0, 1, 1, 1⟩) [(1, 1), (0, 1), (1, 0), (0, 0)]

/-- V-MPE 6, 7 and 8. -/
theorem test_mpe : mpeUpdated.map MpeRow.p = [1, 1, 1, 0] ∧ mpeUpdated.map MpeRow.packed = [0, 8, 9, 0] ∧
    (decideRows mpeUpdated).map MpeRow.up = [0, 0, 1, 1] ∧ (decideRows mpeUpdated).map MpeRow.down = [0, 1, 0, 1] := by
  decide +kernel

/-- V-MPE 11 and 12: the counts wrap, pack keeps three bits. -/
theorem test_mpe_wraps : (MpeRow.update ⟨1, 0, 255, 0, 1, 1, 1⟩).n = 0 ∧ (MpeRow.packed ⟨1, 0, 9, 0, 1, 1, 1⟩) = 8 := by
  decide +kernel

/-- V-MMR 3 and 4: eight slots, the rest stay for the next extract. -/
theorem test_mmr_scan : (scan (List.replicate 10 1)).1 = [0, 1, 2, 3, 4, 5, 6, 7] ∧
    (scan (scan (List.replicate 10 1)).2).1 = [8, 9, 255, 255, 255, 255, 255, 255] := by decide +kernel

/-- V-MMR 6: any non-zero byte is set. -/
theorem test_mmr_nonzero : (scan [0, 2, 0, 0x80]).1 = [1, 3, 255, 255, 255, 255, 255, 255] := by decide +kernel

/-- A child's event with a tag and a binary32 payload. -/
def leaf (tag v : Word) : Event := .b 43 0 0 0 tag (leBytes 4 v)

/-- V-RT 2 and 3: tags 1, 2, 1. -/
theorem test_router_groups :
    (groupScan .adjacent [leaf 1 1, leaf 2 2, leaf 1 3]).map AggRequest.tag = [1, 2, 1] ∧
      (groupScan .byTag [leaf 1 1, leaf 2 2, leaf 1 3]).map AggRequest.tag = [1, 2] := by decide +kernel

/-- V-RT 4 and 5: the sum is left to right. -/
theorem test_router_sum : exactSum 0 [0x4B800000, 0x3F800000, 0x3F800000] = some 0x4B800000 ∧
    exactSum 0 [0x4CBEBC20, 0x3F800000, 0xCCBEBC20] = some 0 := by decide +kernel

/-- The core of V-RX on sixteen bytes: flag 0, selector 1, buffers 2 and 6 of four bytes. -/
def rxCore (sel : Byte) : Core := Core.boot { coreConfig with
  dmemImage := [0, sel, 0, 0, 0, 0, 0, 0, 0, 0, 0, 0, 0, 0, 0, 0]
  rxRegions := [⟨0, 1, 2, 6, 4⟩] }

/-- Bytes 0 to 9 after an inbound event. -/
def stored (sel : Byte) (payload : List Byte) : Option (List Byte) :=
  match (rxCore sel).rxStore 0 (.a 11 0 0 payload) with
  | .ok c => some ((List.range 10).map c.byteAt)
  | .error _ => none

/-- V-RX 1 to 4. -/
theorem test_receive : stored 0 [1, 0] = some [1, 0, 1, 0, 0, 0, 0, 0, 0, 0] ∧
    stored 1 [0xAA, 0xBB, 0xCC, 0xDD] = some [1, 1, 0, 0, 0, 0, 0xAA, 0xBB, 0xCC, 0xDD] ∧
    stored 2 [0x11] = some [1, 2, 0x11, 0, 0, 0, 0, 0, 0, 0] ∧ stored 0 [1, 2, 3, 4, 5] = none := by decide +kernel

/-- V-DQ 1 and 3. -/
theorem test_queue_chains :
    (((DelayQueue.empty : DelayQueue Nat).pushChained 10 3 0).pushChained 11 3 1).items = [(13, 0), (16, 1)] ∧
      (((DelayQueue.empty : DelayQueue Nat).pushChained 7 0 0).pushChained 9 0 1).items = [(7, 0), (7, 1)] := by
  decide +kernel

/-- V-DQ 6 and 7. -/
theorem test_queue_throttled :
    let q := (((DelayQueue.empty : DelayQueue Nat).pushThrottled 0 5 0).pushThrottled 1 5 1).pushThrottled 2 5 2
    q.items.map Prod.fst = [0, 5, 10] ∧ q.nextAvail = 5 ∧
      (DelayQueue.pushThrottled ⟨[], 5⟩ 20 5 3).items = [(20, 3)] := by decide +kernel

/-! ## The host step -/

/-- The first step after placing an instruction runs it: its decode, and its fetch stage as already done. -/
theorem test_step_runs_placed_instruction :
    (match step (State.reset.withFetchWord 224 (19 + 3 * 2 ^ 32 + 5 * 2 ^ 128)) with
      | .next t => t.cores.head?.map fun c => (c.er.update, c.er.imm, c.er.rd, c.actD)
      | .fault _ => none
      | .refused _ => none) = some (true, 5, 3, 1) := by decide +kernel

/-- V-FAULT 3: a program that ends without RET faults, with the record of the first out-of-range pc; here the empty
program of the default configuration, at cycle 0. -/
theorem test_step_records_fault :
    (match step State.reset with
      | .next t => t.fault.map fun f => (f, t.cycle)
      | .fault _ => none
      | .refused _ => none) = some (⟨.pcRange, .pc 0⟩, 0) := by decide +kernel

/-- A halted system takes no step. -/
theorem test_step_halted (f : FaultRecord) : step (State.reset.raise f) = .fault (.halted f) := rfl

/-- A configuration out of range is refused. -/
theorem test_step_refuses :
    (match step (State.boot { Config.default with mpes := [⟨1, 0⟩] }) with
      | .next _ => none
      | .fault _ => none
      | .refused r => some r) = some (.config (.mpeLatency 0)) := by decide +kernel

/-- A refusal names the parameter that is out of range: COLS, not ROWS, and UP, not DOWN. -/
theorem test_refusal_names_parameter :
    configProblem { Config.default with cams := [{ camConfig with nCols := 0, rowImage := [[], []] }] } = some (.camCols 0) ∧
      configProblem { Config.default with routers := [⟨1, 0, 1⟩] } = some (.routerLatencyUp 0) := by decide +kernel

/-- An input port in two links is refused (R162: a port has one link). -/
theorem test_refuses_shared_input_port :
    configProblem { Config.default with topology := [⟨.camOut 0, .mpeData 0, 1⟩, ⟨.mmrOut 0, .mpeData 0, 1⟩] } =
      some .topology := by decide +kernel

/-- The samples at teardown: five of the core, seven of the CAM, with the static energy of V-CAM 22 in them. -/
theorem test_finish_samples :
    let s := { alone (Core.boot coreConfig) with cams := [Cam.boot camConfig], cycle := 22 }
    s.finish.2.length = 12 ∧ s.finish.2.getLast? = some ⟨.cam 0, .eStatic, 88⟩ ∧
      s.finish.2.head? = some ⟨.core 0, .actF, 0⟩ := by decide +kernel

/-! ## Witnesses: for every statement with hypotheses, states and operands that meet them, clause by clause -/

/-- Decode accepts the instruction held on `small`. -/
abbrev Ready (i : Instr) (v1 v2 : Word) : Prop := Accepted (small i v1 v2) 0 (coreWith i v1 v2) i

theorem witness_AnyOpcodeMapDecodesItsRecords :
    (Modes.default.classify 19 = some (Instr.cls (.addi 1 2 3))) ∧ classOf Modes.default.opcodeMap 1 = none ∧
      Modes.default.unmappedOpcode = .asOpimm ∧
      UnmappedOpcode.fault = ({ Modes.default with unmappedOpcode := .fault }).unmappedOpcode := by decide

theorem witness_ListedRecordsAreTheInstructions :
    decodeAs .custom ⟨11, 7, 0, 0, 5, 1, 0⟩ = .ok (.mpeDec 7) ∧
      decodeAs .load ⟨3, 31, 31, 31, 0xFFFFFFFF, 4, 0⟩ = .ok (.lwg 31 31 31 0xFFFFFFFF) := by decide

theorem witness_ImmediateArithmeticWritesResult :
    Ready (.addi 31 1 0xFFFFFFFF) 1 0 ∧ Ready (.muli 31 1 0xFFFFFFFF) 5 0 := by decide +kernel

theorem witness_RegisterArithmeticWritesResult :
    Ready (.add 1 1 2) 0xFFFFFFFF 2 ∧ Ready (.mul 2 1 2) 0xFFFFFFFF 0xFFFFFFFF := by decide +kernel

theorem witness_ShiftsWriteResult :
    (Ready (.slli 3 1 31) 3 0 ∧ (31 : Word).toNat < 32) ∧
      (Ready (.sll 3 1 2) 1 31 ∧ ((coreWith (.sll 3 1 2) 1 31).readReg .x 2).toNat < 32) := by decide +kernel

theorem witness_OversizedShiftsTrap :
    let c := { Core.boot coreConfig with er := { Latch.blank with b := 32 } }
    (withCore .default c).cores[0]? = some c ∧ 32 ≤ (32 : Word).toNat ∧ 32 ≤ c.er.b.toNat := by decide +kernel

theorem witness_LoadUpperImmediateWritesResult : Ready (.lui 3 0xFFFFFFFF) 0 0 := by decide +kernel

theorem witness_LoadsReadLittleEndianBytes :
    (Ready (.lbu 3 1 1) 14 0 ∧ ((coreWith (.lbu 3 1 1) 14 0).readReg .x 1 + 1).toNat + 1 ≤ coreConfig.dmemImage.length) ∧
      (Ready (.lw 3 1 0xFFFFFFFF) 13 0 ∧
        ((coreWith (.lw 3 1 0xFFFFFFFF) 13 0).readReg .x 1 + 0xFFFFFFFF).toNat + 4 ≤ coreConfig.dmemImage.length) ∧
      Ready (.flw 3 1 0) 12 0 ∧ ((coreWith (.flw 3 1 0) 12 0).readReg .x 1 + 0).toNat + 4 ≤ coreConfig.dmemImage.length := by
  decide +kernel

theorem witness_GatherLoadReadsFourBytes :
    Ready (.lwg 3 1 2 0) 12 0x03020100 ∧ ∀ j, j < 4 → gatherAddress
      ((coreWith (.lwg 3 1 2 0) 12 0x03020100).readReg .x 1 + 0)
      ((coreWith (.lwg 3 1 2 0) 12 0x03020100).readReg .x 2) j + 1 ≤ coreConfig.dmemImage.length := by decide +kernel

/-- The core whose MR holds the given operands. -/
def inMemory (a b : Word) : Core := { Core.boot coreConfig with mr := { Latch.blank with a := a, b := b } }

theorem witness_GatherTrapsOnFirstBadByte :
    (withCore .default (inMemory 16 0)).cores[0]? = some (inMemory 16 0) ∧
      (inMemory 16 0).dmemSize < gatherAddress ((inMemory 16 0).mr.a + 0) (inMemory 16 0).mr.b 0 + 1 ∧
      (∀ i, i < 3 → gatherAddress ((inMemory 15 0x01000000).mr.a + 0) (inMemory 15 0x01000000).mr.b i + 1 ≤
        (inMemory 15 0x01000000).dmemSize) ∧
      (inMemory 15 0x01000000).dmemSize <
        gatherAddress ((inMemory 15 0x01000000).mr.a + 0) (inMemory 15 0x01000000).mr.b 3 + 1 := by decide +kernel

theorem witness_StoresWriteTheirBytes :
    (Ready (.sb 1 2 0) 15 7 ∧ ((coreWith (.sb 1 2 0) 15 7).readReg .x 1 + 0).toNat + 1 ≤ coreConfig.dmemImage.length) ∧
      (Ready (.sw 1 2 0) 12 7 ∧ ((coreWith (.sw 1 2 0) 12 7).readReg .x 1 + 0).toNat + 4 ≤ coreConfig.dmemImage.length) ∧
      Ready (.fsw 1 2 0) 12 7 ∧ ((coreWith (.fsw 1 2 0) 12 7).readReg .x 1 + 0).toNat + 4 ≤ coreConfig.dmemImage.length := by
  decide +kernel

theorem witness_AccessesOutsideMemoryTrap :
    (withCore .default (inMemory 16 0)).cores[0]? = some (inMemory 16 0) ∧
      (inMemory 16 0).dmemSize < ((inMemory 16 0).mr.a + 0).toNat + 1 ∧
      (inMemory 13 0).dmemSize < ((inMemory 13 0).mr.a + 0).toNat + 4 ∧
      (inMemory 13 0).dmemSize < (inMemory 13 0).mr.a.toNat + (4 : Word).toNat := by decide +kernel

theorem witness_FloatArithmeticWritesResult :
    (Ready (.fadd 0 1 2) 0x3F800000 0x40000000 ∧ f32Add 0x3F800000 0x40000000 = some 0x40400000) ∧
      (Ready (.fsub 3 1 2) 0x40400000 0x3F800000 ∧ f32Sub 0x40400000 0x3F800000 = some 0x40000000) ∧
      Ready (.fmac8 3 1 2) 0x7F7F7F7F 0x7F7F7F7F ∧ fmac8 0x7F7F7F7F 0x7F7F7F7F = some 0x49610000 := by decide +kernel

theorem witness_FloatNaNResultIsSomeNaN :
    (Ready (.fadd 3 1 2) 0x7F800000 0xFF800000 ∧ f32Add 0x7F800000 0xFF800000 = none) ∧
      Ready (.fsub 3 1 2) 0x7F800000 0x7F800000 ∧ f32Sub 0x7F800000 0x7F800000 = none := by decide +kernel

theorem witness_FloatAdditionRoundsToNearest : IsFinite 0x7F7FFFFF ∧ IsFinite 0x80000001 := by
  unfold IsFinite; decide

theorem witness_FloatMultiplicationRoundsToNearest : IsFinite 0xFF7FFFFF ∧ IsFinite 0x00000001 := by
  unfold IsFinite; decide

theorem witness_InfinitiesAndNaNsFollowIeee :
    f32Add 0x7F800000 0x00000001 = some 0x7F800000 ∧ isInf 0x7F800000 = true ∧
      f32Mul 0xFF800000 0x3F800000 = some 0xFF800000 ∧ isInf 0xFF800000 = true ∧
      f32Sub 0x00000001 0x7F800000 = some 0xFF800000 := by decide +kernel

theorem witness_BranchNotTakenPassesThrough :
    (Ready (.beq 1 2 0x805) 4 5 ∧
        (coreWith (.beq 1 2 0x805) 4 5).readReg .x 1 ≠ (coreWith (.beq 1 2 0x805) 4 5).readReg .x 2) ∧
      Ready (.bne 1 1 0) 4 5 ∧ (coreWith (.bne 1 1 0) 4 5).readReg .x 1 = (coreWith (.bne 1 1 0) 4 5).readReg .x 1 := by
  decide +kernel

/-- `coreWith` with an instruction of a class in WR. -/
def withWr (c : Core) (cls : InstrClass) : Core := { c with wr := { Latch.blank with update := true, cls := cls } }

theorem witness_TakenBranchResetsPipeline :
    (Ready (.beq 1 2 0x805) 4 4 ∧
        (coreWith (.beq 1 2 0x805) 4 4).readReg .x 1 = (coreWith (.beq 1 2 0x805) 4 4).readReg .x 2 ∧
        Modes.default.strict = true ∧ Modes.default.flushScope = .all) ∧
      Accepted (withCore .default (withWr (coreWith (.bne 1 2 0) 4 5) .store)) 0 (withWr (coreWith (.bne 1 2 0) 4 5) .store)
        (.bne 1 2 0) ∧
      ¬ InstrClass.store ∈ [InstrClass.load, .fload, .opimm, .op, .fop, .lui, .ret] ∧
      (coreWith (.bne 1 2 0) 4 5).readReg .x 1 ≠ (coreWith (.bne 1 2 0) 4 5).readReg .x 2 := by decide +kernel

/-- A core with operands in ER and an instruction in WR. -/
def flushing (a b : Word) (cls : InstrClass) : Core :=
  withWr { Core.boot coreConfig with er := { Latch.blank with a := a, b := b } } cls

theorem witness_TakenBranchOverPendingWriteTraps :
    (withCore .default (flushing 4 4 .load)).cores[0]? = some (flushing 4 4 .load) ∧ Modes.default.strict = true ∧
      Modes.default.flushScope = .all ∧ (flushing 4 4 .load).wr.update = true ∧ losesByFlush .load ∧
      losesByFlush .ret ∧ (flushing 4 4 .load).er.a = (flushing 4 4 .load).er.b ∧
      (flushing 4 5 .ret).er.a ≠ (flushing 4 5 .ret).er.b := by
  unfold losesByFlush; decide +kernel

theorem witness_ReturnRaisesEnded : Ready .ret 0 0 := by decide +kernel

theorem witness_CopiesSendTheirBytes : ∀ i ∈ [Instr.cpyCam 0 1 4 0, .cpyMpe 99 1 4 0, .cpyMmr 0 1 4 0, .cpyUp 0 1 4 7],
    Ready i 12 0 ∧ ((coreWith i 12 0).readReg .x 1).toNat + (4 : Word).toNat ≤ (coreWith i 12 0).dmemSize := by
  decide +kernel

theorem witness_CopiesSendTheirBytes_empty :
    Ready (.cpyCam 0 1 0 0) 16 0 ∧ ((coreWith (.cpyCam 0 1 0 0) 16 0).readReg .x 1).toNat + (0 : Word).toNat ≤
      (coreWith (.cpyCam 0 1 0 0) 16 0).dmemSize := by decide +kernel

/-- A latch with a record of a class and funct3. -/
def latchOf (cls : InstrClass) (funct3 : Word) : Latch := { Latch.blank with update := true, cls := cls, funct3 := funct3 }

/-- A core with a latch in ER. -/
def inExecute (l : Latch) : Core := { Core.boot coreConfig with er := l }

/-- A core with a latch in MR. -/
def latchInMemory (l : Latch) : Core := { Core.boot coreConfig with mr := l }

/-- A core with a record in DR. -/
def inDecode (r : Record) : Core := { Core.boot coreConfig with dr := ⟨true, r, 0⟩ }

/-- The core storing an inbound event, its completion due at a cycle. -/
def storing (c : Core) (due : Nat) : Core := { c with rx := ⟨true, .empty, ⟨[(due, 0, cmd 1)], 0⟩⟩ }

/-- The nine device commands. -/
def commands (rd : Word) : List Instr :=
  [.camPre rd, .camSrch rd, .mpeRst rd, .mpeLdt rd, .mpeLdb rd, .mpeUpd rd, .mpePack rd, .mpeDec rd, .mmrExt rd]

theorem witness_DeviceCommandsAreSentAtDecode : ∀ i ∈ commands 99,
    (coreWith i 0 0).rx.busy = false ∧ Held (small i 0 0) 0 (coreWith i 0 0) i := by decide +kernel

theorem witness_core_of_alone (c : Core) : (alone c).cores[0]? = some c := rfl

/-- The first sub-opcode no device lists: 2 of the CAM, 6 of the MPE, 1 of the MMR. -/
theorem witness_DeviceCommandsAreSentAtDecode_unlisted :
    ∀ e ∈ [((0 : Nat), (2 : Word)), (1, 6), (2, 1)],
      let c := inDecode ⟨11, 0, 0, 0, e.2, BitVec.ofNat 32 e.1, 0⟩
      c.canRun .decode = true ∧ c.rx.busy = false ∧ Modes.default.classify 11 = some .custom ∧
        c.dr.record.funct3.toNat = e.1 ∧ subopListed e.1 e.2.toNat = false := by decide +kernel

theorem witness_DeviceCommandsAreHeldWhileBusy :
    let c := storing (coreWith (.camSrch 0) 0 0) 5
    let d := storing (inDecode ⟨11, 0, 0, 0, 9, 3, 0⟩) 5
    ((withCore .default c).cores[0]? = some c ∧ c.rx.busy = true) ∧
      (alone d).cores[0]? = some d ∧ d.rx.busy = true ∧ d.canRun .decode = true ∧
      Modes.default.classify d.dr.record.opcode = some .custom := by decide +kernel

theorem witness_BadRegisterFieldTraps :
    (Held (small (.addi 32 0 0) 0 0) 0 (coreWith (.addi 32 0 0) 0 0) (.addi 32 0 0) ∧ Instr.wf (.addi 32 0 0) = false) ∧
      Held (small (.flw 31 32 0) 0 0) 0 (coreWith (.flw 31 32 0) 0 0) (.flw 31 32 0) ∧ Instr.wf (.flw 31 32 0) = false ∧
      Held (small (.sw 40 0xFFFFFFFF 0) 0 0) 0 (coreWith (.sw 40 0xFFFFFFFF 0) 0 0) (.sw 40 0xFFFFFFFF 0) ∧
      Instr.wf (.sw 40 0xFFFFFFFF 0) = false := by decide +kernel

theorem witness_WriteOfX0TrapsUnderStrict :
    Held (small (.addi 0 0 1) 0 0) 0 (coreWith (.addi 0 0 1) 0 0) (.addi 0 0 1) ∧ Instr.wf (.addi 0 0 1) = true ∧
      Modes.default.strict = true ∧ destOf (.addi 0 0 1) = some (.x, 0) := by decide +kernel

theorem witness_PendingSourceTrapsUnderStrict :
    let c := withWr (coreWith (.add 3 0 1) 0 0) .op
    let d := { coreWith (.fsw 1 2 0) 0 0 with er := { Latch.blank with update := true, cls := .fload, rd := 2 } }
    (Held (withCore .default c) 0 c (.add 3 0 1) ∧ Instr.wf (.add 3 0 1) = true ∧ Modes.default.strict = true ∧
        destOf (.add 3 0 1) ≠ some (.x, 0) ∧
        (sourcesOf (.add 3 0 1)).find? (fun e => c.pendingWrite e.1 e.2) = some (.x, 0)) ∧
      Held (withCore .default d) 0 d (.fsw 1 2 0) ∧ destOf (.fsw 1 2 0) ≠ some (.x, 0) ∧
      (sourcesOf (.fsw 1 2 0)).find? (fun e => d.pendingWrite e.1 e.2) = some (.f, 2) := by decide +kernel

/-- A core whose program is one RET, at a given pc. -/
def fetching (pc : Int) : Core := { Core.boot coreConfig with pc := pc, imem := [⟨103, 0, 0, 0, 0, 0, 0⟩] }

theorem witness_FetchReadsTheRecordAtPc :
    (fetching 0).dr.update = false ∧ (fetching 0).fetchHalted = false ∧ (fetching (-1)).pc < 0 ∧
      ((fetching 1).imem.length : Int) ≤ (fetching 1).pc ∧ (fetching 0).pc = (0 : Nat) ∧
      (fetching 0).imem[0]? = some ⟨103, 0, 0, 0, 0, 0, 0⟩ := by decide +kernel

theorem witness_UnlistedRecordsFaultInTheirStage :
    (∀ e ∈ [(InstrClass.opimm, (3 : Word)), (.op, 3), (.fop, 3), (.branch, 2)],
        (inExecute (latchOf e.1 e.2)).canRun .execute = true ∧ funct3Listed e.1 e.2.toNat = false) ∧
      (∀ e ∈ [(InstrClass.load, (1 : Word)), (.store, 1), (.copy, 4)],
        (inExecute (latchOf e.1 e.2)).canRun .execute = true ∧
          (latchInMemory (latchOf e.1 e.2)).canRun .memory = true ∧ funct3Listed e.1 e.2.toNat = false) ∧
      ((inDecode ⟨11, 0, 0, 0, 0, 3, 0⟩).canRun .decode = true ∧ Modes.default.classify 11 = some .custom ∧
        (inDecode ⟨11, 0, 0, 0, 0, 3, 0⟩).rx.busy = false ∧ funct3Listed .custom 3 = false) ∧
      Modes.classify { Modes.default with unmappedOpcode := .fault } 1 = none := by decide +kernel

/-- Decode of an unlisted funct3: accepted at the last register, out of range, naming x[0], reading a pending rs2. -/
theorem witness_UnlistedRecordsFaultInTheirStage_decode :
    let p := withWr (inDecode ⟨51, 3, 1, 0, 0, 3, 0⟩) .op
    (∀ e ∈ [(InstrClass.copy, (43 : Word), (4 : Word)), (.load, 3, 1), (.store, 35, 1), (.opimm, 19, 3), (.op, 51, 3),
        (.fop, 83, 3), (.branch, 99, 2)],
      let r : Record := ⟨e.2.1, 31, 31, 31, 0, e.2.2, 0⟩
      let out : Record := ⟨e.2.1, 31, 32, 31, 0, e.2.2, 0⟩
      (inDecode r).canRun .decode = true ∧ Modes.default.classify e.2.1 = some e.1 ∧
        funct3Listed e.1 e.2.2.toNat = false ∧ (classFields e.1).all (fun f => decide ((fieldOf r f).toNat < 32)) = true ∧
        classDest e.1 r ≠ some (.x, 0) ∧
        (classSources e.1 r).all (fun q => !(inDecode r).pendingWrite q.1 q.2) = true ∧
        (classFields e.1).all (fun f => decide ((fieldOf out f).toNat < 32)) = false) ∧
      Modes.default.strict = true ∧ classDest .opimm ⟨19, 0, 1, 0, 0, 3, 0⟩ = some (.x, 0) ∧
      p.canRun .decode = true ∧ classDest .op p.dr.record ≠ some (.x, 0) ∧
      (classSources .op p.dr.record).find? (fun q => p.pendingWrite q.1 q.2) = some (.x, 0) := by decide +kernel

theorem witness_StagesOwnTheirState : ∃ t,
    (small (.addi 3 1 1) 0 0).cores[0]? = some (coreWith (.addi 3 1 1) 0 0) ∧
      exec (.addi 3 1 1) ((small (.addi 3 1 1) 0 0).focusOn 0 .decode) = .next t := ⟨_, by decide +kernel, rfl⟩

theorem witness_StepRunsDecodedInstruction :
    let c := coreWith (.addi 3 1 1) 0 0
    let w := { Core.boot coreConfig with wr := { latchOf .ret 0 with opcode := 103 } }
    ((alone c).fault = none ∧ (alone c).problem = none ∧ (alone c).focus = .rest ∧ (alone c).cores = [c] ∧
        (alone c).cams = [] ∧ (alone c).mpes = [] ∧ (alone c).mmrs = [] ∧ (alone c).routers = [] ∧
        (alone c).links = [] ∧ c.rx.busy = false ∧ c.rx.inq.items = [] ∧
        [Stage.decode, .execute, .memory, .writeback].map c.holds = [true, false, false, false] ∧
        c.stageForm Modes.default .decode = .ok (.addi 3 1 1)) ∧
      [Stage.decode, .execute, .memory, .writeback].map w.holds = [false, false, false, true] ∧
      w.stageForm Modes.default .writeback = .ok .ret ∧ (alone w).problem = none := by decide +kernel

theorem witness_StagesRunTheirInstruction :
    let c := coreWith (.addi 3 1 1) 0 0
    c.canRun .decode = true ∧ c.stageForm Modes.default .decode = .ok (.addi 3 1 1) ∧
      (alone c).cores[0]? = some c ∧ c.canRun .execute = false := by decide +kernel

theorem witness_TickOrderDoesNotMatter :
    State.reset.fault = none ∧ State.reset.ticks.reverse.Perm State.reset.ticks := ⟨rfl, List.reverse_perm _⟩

/-- Whether an outcome is a next state that keeps a test. -/
def nextWith {α : Type} (ask : α → Bool) : Host.Outcome α Fault Refusal → Bool
  | .next t => ask t
  | .fault _ => false
  | .refused _ => false

/-- A core and a CAM, with a query of one byte under way to the CAM; the core's program is one RET. -/
def querying (due : Nat) : State := { alone (fetching 0) with
  cams := [Cam.boot camConfig], links := [⟨⟨.core 0 .camData, .camData 0, 3⟩, [(due, .a 43 0 0 [1])]⟩] }

/-- A delivery that faults, ticks that run, ticks that fault, and one tick of each kind. -/
theorem witness_HostStepDeliversThenTicks :
    ((querying 0).fault = none ∧ (querying 0).problem = none ∧ (querying 0).deliver.1 ≠ []) ∧
      ((querying 1).problem = none ∧ (querying 1).deliver = ([], querying 1) ∧
        nextWith (fun e => e.1.isEmpty) (runTicks (querying 1).ticks [] (querying 1)) = true) ∧
      (State.reset.problem = none ∧ State.reset.deliver = ([], State.reset) ∧
        nextWith (fun e => !e.1.isEmpty) (runTicks State.reset.ticks [] State.reset) = true) ∧
      nextWith (fun t => t.fault.isNone) (tickCore 0 (querying 1)) = true ∧
      nextWith (fun t => t.fault.isSome) (tickCore 0 State.reset) = true := by decide +kernel

theorem witness_StepIsACycleOrARecordedFault :
    ((State.reset.raise ⟨.pcRange, .pc 0⟩).fault = some ⟨.pcRange, .pc 0⟩) ∧
      (State.reset.fault = none ∧
        (State.boot { Config.default with mpes := [⟨0, 1⟩] }).problem = some (.mpeRows 0)) ∧
      State.reset.problem = none := by decide +kernel

/-- A returning core: RET in writeback, `ended` already set by an earlier one. -/
def returning : State := alone { coreWith .ret 0 0 with ended := true, fetchHalted := true }

theorem witness_ConfigurationNeverChanges : (∃ t, step returning = .next t) ∧ returning.Shaped := by
  refine ⟨?_, by unfold State.Shaped; decide⟩
  have h : (match step returning with | .next _ => true | .fault _ => false | .refused _ => false) = true := by
    decide +kernel
  split at h <;> simp_all

theorem witness_EndedIsNeverCleared : (∃ t, step returning = .next t) ∧
    returning.cores[0]? = some { coreWith .ret 0 0 with ended := true, fetchHalted := true } :=
  ⟨witness_ConfigurationNeverChanges.1, by decide +kernel⟩

theorem witness_StepKeepsMemoryCanonical : (∃ t, step returning = .next t) ∧ returning.Canonical :=
  ⟨witness_ConfigurationNeverChanges.1, by unfold State.Canonical; decide +kernel⟩

theorem idle_timely {α : Type} (n L : Nat) : (Discipline.idle : Discipline α).Timely n L :=
  ⟨fun h => absurd h Bool.false_ne_true, fun _ => ⟨rfl, rfl⟩, .nil, fun _ h => absurd h List.not_mem_nil⟩

theorem returning_lists : returning.cores.map Core.rx = [.idle] ∧ returning.cams = [] ∧ returning.mpes = [] ∧
    returning.mmrs = [] ∧ returning.routers = [] ∧ returning.links = [] := by decide +kernel

theorem witness_StepKeepsQueuesTimely : (∃ t, step returning = .next t) ∧ returning.Timely := by
  obtain ⟨h, h1, h2, h3, h4, h5⟩ := returning_lists
  refine ⟨witness_ConfigurationNeverChanges.1, ⟨fun c hc => ?_, ?_, ?_, ?_, ?_, ?_⟩⟩
  · have : c.rx = .idle := List.mem_singleton.mp (h ▸ List.mem_map_of_mem hc)
    rw [this]
    exact idle_timely _ _
  · simp [h1]
  · simp [h2]
  · simp [h3]
  · simp [h4]
  · simp [h5]

theorem witness_QueueKeepsReadyOrder : DelayQueue.Sorted ⟨[(3, 0), (3, 1), (7, 2)], 9⟩ := by
  unfold DelayQueue.Sorted; decide

theorem witness_RequestsAreServedEveryLatency : 0 < 1 ∧ (Discipline.idle : Discipline Event).busy = false ∧
    (Discipline.idle : Discipline Event).inq.items = [] ∧ (Discipline.idle : Discipline Event).doneq.items = [] := by
  decide

/-- A discipline performing one command, due at cycle 5. -/
def performing (imm : Word) : Discipline Event := ⟨true, .empty, ⟨[(5, cmd imm)], 0⟩⟩

theorem witness_regular : (Discipline.idle : Discipline Event).Regular ∧ (performing 1).Regular :=
  ⟨⟨fun h => absurd h Bool.false_ne_true, fun _ => rfl⟩, ⟨fun _ => ⟨_, rfl⟩, fun h => absurd h (by decide)⟩⟩

/-- The devices with a command due at cycle 5, the CAM with a query latched or not. -/
def camDoing (imm : Word) (query : Option (List Byte × List Bool)) : Cam :=
  { Cam.boot camConfig with disc := performing imm, query := query }
def mpeDoing (imm : Word) : Mpe := { Mpe.boot ⟨4, 1⟩ with disc := performing imm }
def mmrDoing (half : Option (List Byte)) : Mmr := { Mmr.boot ⟨2, 1⟩ with disc := performing 0, pos := half, neg := half }

/-- Nothing served one cycle before, the command served when it is due, performed or a fault. -/
theorem witness_RequestsAreServedEveryLatency_ticks :
    ((camDoing 1 none).disc.serve 4 2).1 = [] ∧ ((camDoing 1 none).disc.serve 5 2).1 = [cmd 1] ∧
      (camDoing 1 none).perform (cmd 1) = .error ⟨.deviceData, .data .cam none⟩ ∧
      ((camDoing 1 (some ([5, 9], [true, true]))).perform (cmd 1)).toBool = true ∧
      ((mpeDoing 4).disc.serve 4 1).1 = [] ∧ ((mpeDoing 4).disc.serve 5 1).1 = [cmd 4] ∧
      (mpeDoing 1).perform (cmd 1) = .error ⟨.deviceData, .data .mpe none⟩ ∧
      ((mpeDoing 4).perform (cmd 4)).toBool = true ∧
      ((mmrDoing none).disc.serve 4 1).1 = [] ∧ ((mmrDoing none).disc.serve 5 1).1 = [cmd 0] ∧
      (mmrDoing none).perform (cmd 0) = .error ⟨.deviceData, .data .mmr none⟩ ∧
      ((mmrDoing (some [0, 1])).perform (cmd 0)).toBool = true := by decide +kernel

/-- What a tick emits: nothing, an event, or the fault (none), on which port. -/
def emitted {α β : Type} (ask : β → Bool) : Except FaultRecord (α × β) → Option Bool
  | .ok e => some (ask e.2)
  | .error _ => none

theorem witness_ticks_send :
    emitted Option.isSome ((camDoing 1 none).tick 4) = some false ∧
      emitted Option.isSome ((camDoing 1 (some ([5, 9], [true, true]))).tick 5) = some true ∧
      emitted Option.isSome ((camDoing 1 none).tick 5) = none ∧
      emitted Option.isSome ((mpeDoing 4).tick 4) = some false ∧
      emitted (fun e => decide (e.map Prod.fst = some .resp)) ((mpeDoing 4).tick 5) = some true ∧
      emitted (fun e => decide (e.map Prod.fst = some .out)) ((mpeDoing 5).tick 5) = some true ∧
      emitted Option.isSome ((mpeDoing 1).tick 5) = none ∧
      emitted Option.isSome ((mmrDoing none).tick 4) = some false ∧
      emitted Option.isSome ((mmrDoing (some [0, 1])).tick 5) = some true ∧
      emitted Option.isSome ((mmrDoing none).tick 5) = none := by decide +kernel

theorem witness_SendReachesTheLinkedPort :
    let l : Link := ⟨⟨.core 0 .up, .rx 9 9, 3⟩, [(4, cmd 1)]⟩
    let m : Link := ⟨⟨.core 0 .camReq, .rx 9 9, 3⟩, []⟩
    let s := { alone (Core.boot coreConfig) with links := [m, l] }
    (∀ l ∈ s.links, l.cfg.src ≠ .core 1 .up) ∧ s.links = [m] ++ l :: [] ∧ (∀ m' ∈ [m], m'.cfg.src ≠ .core 0 .up) ∧
      l.cfg.src = .core 0 .up := by decide +kernel

theorem witness_DeliveryHandsOverDueEvents :
    Link.Timely ⟨⟨.core 0 .up, .childUp 0 0, 2⟩, [(5, cmd 1), (6, cmd 2)]⟩ 5 ∧
      State.reset.cores[0]?.isSome ∧ State.reset.cams[0]?.isSome ∧ State.reset.mpes[0]?.isSome ∧
      State.reset.mmrs[0]?.isSome ∧ State.reset.routers[0]?.isSome ∧
      (Router.boot ⟨1, 1, 1⟩).childIn[0]? = some [] := by
  unfold Link.Timely; decide +kernel

/-- Events handed over, and one whose handler faults. -/
theorem witness_DeliveryHandsOverDueEvents_handOver :
    (handOver [(.camData 0, .a 43 0 0 [5, 9, 1, 0]), (.camReq 0, cmd 1)] (querying 9)).toBool = true ∧
      (handOver [(.camReq 0, cmd 1), (.camData 0, .a 43 0 0 [1])] (querying 9)).toBool = false ∧
      ((Cam.boot camConfig).latchQuery [5, 9, 1, 0]).toBool = true ∧
      ((Cam.boot camConfig).latchQuery [1]).toBool = false ∧
      ((Mmr.boot ⟨2, 1⟩).latchHalves [0, 1, 1, 0]).toBool = true ∧
      ((Mmr.boot ⟨2, 1⟩).latchHalves []).toBool = false := by decide +kernel

theorem witness_CamRowMatchesColumnwise :
    ([1, 2] : List Byte).length = ([⟨3, 7, false, false⟩, ⟨0, 0, true, true⟩] : List CamCell).length ∧
      [true, false].length = ([⟨3, 7, false, false⟩, ⟨0, 0, true, true⟩] : List CamCell).length := by decide

theorem witness_CamSearchReportsEveryRow : (cmd 1).imm = 1 ∧ (Cam.boot camConfig).query = none ∧
    ({ Cam.boot camConfig with query := some ([5, 9], [true, true]) }).query = some ([5, 9], [true, true]) := by
  decide +kernel

theorem witness_PrechargeAndUnknownCommands : (cmd 0).imm = 0 ∧ 1 < (cmd 2).imm.toNat ∧ 5 < (cmd 6).imm.toNat ∧
    0 < (cmd 1).imm.toNat := by decide

theorem witness_DataLatchesSplitTheirPayload :
    ([5, 9, 1, 0] : List Byte).length = 2 * (Cam.boot camConfig).cfg.nCols ∧
      ([5, 9, 1] : List Byte).length ≠ 2 * (Cam.boot camConfig).cfg.nCols ∧
      ([0, 1, 1, 0] : List Byte).length = 2 * (Mmr.boot ⟨2, 1⟩).cfg.nRows ∧
      ([] : List Byte).length ≠ 2 * (Mmr.boot ⟨2, 1⟩).cfg.nRows := by decide +kernel

theorem witness_MpeCommandsUpdateRows :
    (Mpe.boot ⟨4, 1⟩).rows.length = (Mpe.boot ⟨4, 1⟩).cfg.nRows ∧ (cmd 0).imm = 0 ∧ (cmd 1).imm = 1 ∧ (cmd 2).imm = 2 ∧
      (cmd 3).imm = 3 ∧ (Mpe.boot ⟨4, 1⟩).data = none ∧ ([1, 0, 1, 0] : List Byte).length = (Mpe.boot ⟨4, 1⟩).cfg.nRows ∧
      ([1, 0, 1] : List Byte).length ≠ (Mpe.boot ⟨4, 1⟩).cfg.nRows := by decide +kernel

theorem witness_MpePacksAndDecides : (cmd 4).imm = 4 ∧ (cmd 5).imm = 5 := by decide

theorem witness_MmrExtractSendsBothHalves : (cmd 0).imm = 0 ∧ (Mmr.boot ⟨2, 1⟩).pos = none ∧
    ({ Mmr.boot ⟨2, 1⟩ with pos := some [0, 1], neg := some [1, 0] }).pos = some [0, 1] := by decide

/-- A router with a request to aggregate due at cycle 5, of a whole word or not. -/
def aggregating (buf : List Byte) : Router := { Router.boot ⟨2, 1, 1⟩ with
  up := ⟨true, .empty, ⟨[(5, ⟨43, 0, 0, 0, 7, buf⟩)], 0⟩⟩ }

theorem witness_RouterGroupsScanByTag :
    ∀ e ∈ ((Router.boot ⟨2, 1, 1⟩).up.enqueue 3 ⟨43, 0, 0, 0, 7, []⟩).inq.items, e.1 ≤ 5 := by decide +kernel

theorem witness_RouterSumsUpAndBroadcastsDown :
    ([1, 2, 3] : List Byte).length % 4 ≠ 0 ∧
      ([0, 0, 0x80, 0x3F] : List Byte) = (([0x3F800000] : List Word).map (leBytes 4)).flatten ∧
      exactSum 0 [0x3F800000] = some 0x3F800000 ∧ exactSum 0 [0x7F800000, 0xFF800000] = none ∧
      (aggregating []).up.dueNow 4 = none ∧ (aggregating []).up.dueNow 5 = some ⟨43, 0, 0, 0, 7, []⟩ ∧
      emitted List.isEmpty (Router.tick .adjacent 0 (aggregating []) 4) = some true ∧
      emitted List.isEmpty (Router.tick .adjacent 0 (aggregating [0, 0, 0x80, 0x3F]) 5) = some false ∧
      emitted List.isEmpty (Router.tick .adjacent 0 (aggregating [1]) 5) = none := by decide +kernel

theorem witness_RouterSumsUpAndBroadcastsDown_regular :
    (aggregating []).up.Regular ∧ (aggregating []).down.Regular :=
  ⟨⟨fun _ => ⟨_, rfl⟩, fun h => absurd h (by decide)⟩, ⟨fun h => absurd h (by decide), fun _ => rfl⟩⟩

/-- The receive step before, at and after the due cycle of an event it stores, and of one that does not fit. -/
theorem witness_ReceiveStoresPayloadAndFlag :
    ((rxCore 1).cfg.rxRegions[0]? = some ⟨0, 1, 2, 6, 4⟩ ∧ regionFits (rxCore 1).dmemSize ⟨0, 1, 2, 6, 4⟩ = true ∧
        4 < ([1, 2, 3, 4, 5] : List Byte).length ∧ ([1, 2, 3, 4] : List Byte).length ≤ 4) ∧
      (alone (storing (rxCore 1) 5)).cores[0]? = some (storing (rxCore 1) 5) ∧
      0 < (storing (rxCore 1) 5).cfg.rxLatency ∧ (storing (rxCore 1) 5).rx.dueNow 4 = none ∧
      (storing (rxCore 1) 5).rx.dueNow 5 = some (0, cmd 1) ∧ ((storing (rxCore 1) 5).rxStore 0 (cmd 1)).toBool = true ∧
      ((storing (rxCore 1) 5).rxStep 5).toBool = true ∧
      ({ rxCore 1 with rx := ⟨true, .empty, ⟨[(5, 0, .a 11 0 0 [1, 2, 3, 4, 5])], 0⟩⟩ }.rxStep 5).toBool = false := by
  decide +kernel

theorem witness_ReceiveStoresPayloadAndFlag_regular : (storing (rxCore 1) 5).rx.Regular :=
  ⟨fun _ => ⟨_, rfl⟩, fun h => absurd h (by decide)⟩

end Sys2Proof.Tests
end

section
/-! PROOFS. The fetch step (41_pipeline.md R196): what the program holds at a program counter, and what fetch answers in
each case. -/

namespace Sys2Proof.Machine

/-! ## The record at a program counter -/

/-- No record stands at a pc outside the program, on either side of it (R33, R34). -/
theorem Core.recordAt_eq_none (c : Core) {pc : Int} (outside : pc < 0 ∨ (c.imem.length : Int) ≤ pc) :
    c.recordAt pc = none := by
  unfold Core.recordAt
  split
  case isTrue => rfl
  case isFalse nonneg =>
    have past : c.imem.length ≤ pc.toNat := by omega
    exact List.getElem?_eq_none past

@[simp] theorem Core.recordAt_natCast (c : Core) (n : Nat) : c.recordAt n = c.imem[n]? :=
  if_neg (Int.natCast_nonneg n).not_gt

/-! ## Fetch, when DR is empty and fetch is not halted -/

section
variable {c : Core} (m : Modes) (empty : c.dr.update = false) (going : c.fetchHalted = false)
include empty going

theorem Core.fetch_of_recordAt_none (none_at : c.recordAt c.pc = none) :
    c.fetch m = .error ⟨.pcRange, .pc c.pc⟩ := by
  simp [Core.fetch, empty, going, none_at]

theorem Core.fetch_of_recordAt_some {r : Record} (some_at : c.recordAt c.pc = some r) :
    c.fetch m = .ok { c with
      dr := ⟨true, r, c.pc⟩
      pc := c.pc + 1
      actF := c.actF + 1
      fetchHalted := decide (m.classify r.opcode = some .ret) } := by
  simp [Core.fetch, empty, going, some_at]

end

/-- Settles O31: fetch turns on the record at pc, which is none outside the program and the n-th record at pc = n. -/
theorem fetchReadsTheRecordAtPc : Obligations.FetchReadsTheRecordAtPc := by
  intro m c empty going
  constructor
  · intro outside
    exact Core.fetch_of_recordAt_none m empty going (c.recordAt_eq_none outside)
  · intro n r pc_eq at_n
    have some_at : c.recordAt c.pc = some r := by rw [pc_eq, Core.recordAt_natCast, at_n]
    exact Core.fetch_of_recordAt_some m empty going some_at

end Sys2Proof.Machine
end

section
/-! PROOFS. The integer arithmetic of 42_integer.md, R240, R242, R243, R245 and R248: what an accepted instruction's
decode leaves, how an instruction that writes a register leaves the pipeline, and the results of ADDI, MULI, ADD, MUL
and LUI. -/

namespace Sys2Proof.Machine

/-! ## Decode of an accepted instruction (41_pipeline.md R194, R215) -/

/-- The register an instruction writes stands in one of the fields decode checks (R112). -/
theorem destOf_mem_registerFields {i : Instr} {g : RegFile} {r : Word} (names : destOf i = some (g, r)) :
    r ∈ i.registerFields := by
  cases i <;> simp_all [destOf, Instr.registerFields]

/-- The registers an instruction reads stand in fields decode checks (R112). -/
theorem sourcesOf_mem_registerFields {i : Instr} {g : RegFile} {r : Word} (reads : (g, r) ∈ sourcesOf i) :
    r ∈ i.registerFields := by
  cases i <;> grind [sourcesOf, Instr.registerFields]

theorem isRegister_of_wf {i : Instr} (wf : i.wf = true) {r : Word} (field : r ∈ i.registerFields) :
    isRegister r = true :=
  List.all_eq_true.mp wf r field

theorem badRegister_eq_false {o : Option (RegFile × Word)} (good : ∀ g r, o = some (g, r) → isRegister r = true) :
    badRegister o = false := by
  cases o with
  | none => rfl
  | some q => simp [badRegister, good q.1 q.2 rfl]

/-- The core after decode: the operands stand in ER, DR is empty and decode is counted (R194). -/
def Core.decoded (c : Core) (cls : InstrClass) (u : Uses) : Core :=
  { c with er := c.operands cls u, dr := { c.dr with update := false }, actD := c.actD + 1 }

section
variable {s : State} {k : Nat} {c : Core} {i : Instr} {u : Uses} (accepted : Accepted s k c i)
include accepted

theorem Accepted.core_eq : s.cores[k]? = some c := by
  obtain ⟨⟨at_k, -⟩, -⟩ := accepted
  exact at_k

theorem Accepted.dest_lt {g : RegFile} {r : Word} (names : destOf i = some (g, r)) : r.toNat < 32 := by
  obtain ⟨-, wf, -⟩ := accepted
  exact of_decide_eq_true (isRegister_of_wf wf (destOf_mem_registerFields names))

variable (dest : u.dest = destOf i) (sources : u.rs1.toList ++ u.rs2.toList = sourcesOf i)
include dest sources

/-- The registers an accepted instruction uses pass every check of decode. -/
theorem Accepted.decodeFault_eq_none : decodeFault s.modes c u = none := by
  refine decodeFault_accepted u accepted dest sources fun wf => ?_
  have written (g r) (used : u.dest = some (g, r)) : isRegister r = true :=
    isRegister_of_wf wf (destOf_mem_registerFields (dest ▸ used))
  have read (g r) (used : (g, r) ∈ u.rs1.toList ++ u.rs2.toList) : isRegister r = true :=
    isRegister_of_wf wf (sourcesOf_mem_registerFields (sources ▸ used))
  exact ⟨badRegister_eq_false written, badRegister_eq_false fun g r used => read g r (by simp [used]),
    badRegister_eq_false fun g r used => read g r (by simp [used])⟩

theorem Accepted.decodeStage_eq (cls : InstrClass) :
    decodeStage cls u ⟨s.modes, k⟩ c = .ok { core := c.decoded cls u } :=
  decodeStage_ok (accepted.decodeFault_eq_none dest sources)

end

/-! ## The integer operands (30_encoding.md R119) -/

/-- The second operand never overwrites the first: a comes from rs1 alone. -/
@[simp] theorem Core.loadRs2_a (c : Core) (l : Latch) (o : Option (RegFile × Word)) : (c.loadRs2 l o).a = l.a := by
  rcases o with _ | ⟨_ | _, _⟩ <;> rfl

@[simp] theorem Core.operands_a (c : Core) (cls : InstrClass) (d o : Option (RegFile × Word)) (r : Word) :
    (c.operands cls ⟨d, some (.x, r), o⟩).a = c.readReg .x r :=
  c.loadRs2_a _ o

@[simp] theorem Core.operands_b (c : Core) (cls : InstrClass) (d o : Option (RegFile × Word)) (r : Word) :
    (c.operands cls ⟨d, o, some (.x, r)⟩).b = c.readReg .x r := rfl

/-! ## What the stages of an ALU instruction answer (41_pipeline.md R197, R198, R200) -/

theorem aluStage_eq (result : StageEnv → Latch → Word) (env : StageEnv) (c : Core) :
    aluStage result env c = .ok { core := c.toMemory { c.er with a := result env c.er } } := rfl

theorem memoryPass_eq (env : StageEnv) (c : Core) : memoryPass env c = .ok { core := c.toWriteback c.mr } := rfl

theorem writebackX_eq (rd : Word) (env : StageEnv) (c : Core) :
    writebackX rd env c = .ok { core := (c.writeReg .x rd c.wr.a).retire } := rfl

/-! ## An instruction that writes one register -/

/-- Decoded, handed on twice and written back, an instruction leaves the core with the register written and its four
pipeline registers empty, whatever the latches hold. -/
theorem leftPipeline_writeReg (c : Core) (cls : InstrClass) (u : Uses) (computed loaded : Latch) (g : RegFile)
    (r v : Word) :
    LeftPipeline (c.writeReg g r v)
      ((((c.decoded cls u).toMemory computed).toWriteback loaded).writeReg g r v).retire := by
  cases g <;> exact ⟨_, _, _, rfl, rfl, rfl, rfl⟩

/-- An accepted instruction whose execute and memory stages hand latches on and whose writeback writes its destination
runs through and writes that value. -/
theorem WritesResult.of_stages {s : State} {k : Nat} {c : Core} {i : Instr} {cls : InstrClass} {u : Uses}
    {exe mem wb : StageFn} {computed loaded : Latch} {g : RegFile} {r v : Word} (accepted : Accepted s k c i)
    (meaning : meaningOf i = { decode := decodeStage cls u, execute := exe, memory := mem, writeback := wb })
    (names : destOf i = some (g, r)) (dest : u.dest = destOf i)
    (sources : u.rs1.toList ++ u.rs2.toList = sourcesOf i)
    (executes : exe ⟨s.modes, k⟩ (c.decoded cls u) = .ok { core := (c.decoded cls u).toMemory computed })
    (loads : mem ⟨s.modes, k⟩ ((c.decoded cls u).toMemory computed) =
      .ok { core := ((c.decoded cls u).toMemory computed).toWriteback loaded })
    (writes : wb ⟨s.modes, k⟩ (((c.decoded cls u).toMemory computed).toWriteback loaded) =
      .ok { core := ((((c.decoded cls u).toMemory computed).toWriteback loaded).writeReg g r v).retire }) :
    WritesResult i s k c g r v := by
  have decodes := accepted.decodeStage_eq dest sources cls
  have runs : RunsThrough i k s ((s.focusOn k .writeback).putCore k
      ((((c.decoded cls u).toMemory computed).toWriteback loaded).writeReg g r v).retire) :=
    runsThrough_of accepted.core_eq (by rwa [meaning]) (by rwa [meaning]) (by rwa [meaning]) (by rwa [meaning])
  exact .of runs (leftPipeline_writeReg ..) (accepted.dest_lt names)

/-- What an ALU instruction computes from its operands is what it writes (R197, R198). -/
theorem WritesResult.of_aluStage {s : State} {k : Nat} {c : Core} {i : Instr} {cls : InstrClass} {u : Uses} {rd : Word}
    {result : StageEnv → Latch → Word} (accepted : Accepted s k c i)
    (meaning : meaningOf i =
      { decode := decodeStage cls u, execute := aluStage result, writeback := writebackX rd })
    (names : destOf i = some (.x, rd)) (dest : u.dest = destOf i)
    (sources : u.rs1.toList ++ u.rs2.toList = sourcesOf i) :
    WritesResult i s k c .x rd (result ⟨s.modes, k⟩ (c.operands cls u)) :=
  .of_stages accepted meaning names dest sources (aluStage_eq ..) (memoryPass_eq ..) (writebackX_eq ..)

/-! ## The results of the arithmetic instructions -/

section
variable {s : State} {k : Nat} {c : Core} {rd rs1 rs2 imm : Word}

theorem writesResult_addi (accepted : Accepted s k c (.addi rd rs1 imm)) :
    WritesResult (.addi rd rs1 imm) s k c .x rd (c.readReg .x rs1 + imm) := by
  simpa using WritesResult.of_aluStage accepted rfl rfl rfl rfl

theorem writesResult_muli (accepted : Accepted s k c (.muli rd rs1 imm)) :
    WritesResult (.muli rd rs1 imm) s k c .x rd (c.readReg .x rs1 * imm) := by
  simpa using WritesResult.of_aluStage accepted rfl rfl rfl rfl

theorem writesResult_add (accepted : Accepted s k c (.add rd rs1 rs2)) :
    WritesResult (.add rd rs1 rs2) s k c .x rd (c.readReg .x rs1 + c.readReg .x rs2) := by
  simpa using WritesResult.of_aluStage accepted rfl rfl rfl rfl

theorem writesResult_mul (accepted : Accepted s k c (.mul rd rs1 rs2)) :
    WritesResult (.mul rd rs1 rs2) s k c .x rd (c.readReg .x rs1 * c.readReg .x rs2) := by
  simpa using WritesResult.of_aluStage accepted rfl rfl rfl rfl

theorem writesResult_lui (accepted : Accepted s k c (.lui rd imm)) :
    WritesResult (.lui rd imm) s k c .x rd (imm <<< s.modes.luiShift) :=
  WritesResult.of_aluStage accepted rfl rfl rfl rfl

end

/-- A left shift is the product with the power of two, modulo 2^32. -/
theorem shiftLeft_eq_ofNat_mul_two_pow (w : Word) (n : Nat) : w <<< n = BitVec.ofNat 32 (w.toNat * 2 ^ n) := by
  apply BitVec.eq_of_toNat_eq
  rw [BitVec.toNat_shiftLeft, BitVec.toNat_ofNat, Nat.shiftLeft_eq]

/-- Settles O5: ADDI and MULI are ALU instructions on rs1 and the immediate. -/
theorem immediateArithmeticWritesResult : Obligations.ImmediateArithmeticWritesResult :=
  fun _ _ _ _ _ _ => ⟨writesResult_addi, writesResult_muli⟩

/-- Settles O6: ADD and MUL are ALU instructions on the two registers, read before rd is written. -/
theorem registerArithmeticWritesResult : Obligations.RegisterArithmeticWritesResult :=
  fun _ _ _ _ _ _ => ⟨writesResult_add, writesResult_mul⟩

/-- Settles O9: LUI's shift is the product with a power of two. -/
theorem loadUpperImmediateWritesResult : Obligations.LoadUpperImmediateWritesResult := by
  intro s k c rd imm accepted
  rw [← shiftLeft_eq_ofNat_mul_two_pow]
  exact writesResult_lui accepted

end Sys2Proof.Machine
end

section
/-! PROOFS. The inbound receive (44_device_ops.md R317, R318): one tick of a regular discipline, what storing an inbound
event leaves in data memory, and the receive step at the head of a core's tick. -/

namespace Sys2Proof.Machine

/-! ## One tick of a regular discipline (40_delay_queue.md R164, R166)

A regular discipline holds at most one completion, so `complete` and `accept` of the model are `released` and
`accepted`, and a second tick in the same cycle finds nothing left to do. -/

namespace Discipline
variable {α : Type} {d : Discipline α} {n L : Nat} {req : α}

theorem released_of_not_due (not_due : d.dueNow n = none) : d.released n = d := by
  rw [released, not_due]

/-- What is due is the head of a busy discipline's completions, ready by now (R153). -/
theorem dueNow_eq_some_iff :
    d.dueNow n = some req ↔ d.busy = true ∧ ∃ r rest, d.doneq.items = (r, req) :: rest ∧ r ≤ n := by
  unfold dueNow
  split
  case h_1 r req' rest busy items => simp [busy, items, and_comm]
  case h_2 not_head =>
    exact ⟨nofun, fun ⟨busy, r, rest, items, _⟩ => absurd items (not_head r req rest busy)⟩

theorem released_of_due (due : d.dueNow n = some req) :
    d.released n = ⟨false, d.inq, ⟨[], d.doneq.nextAvail⟩⟩ := by
  rw [released, due]

theorem complete_of_not_due (not_due : d.dueNow n = none) : d.complete n = none := by
  by_contra completes
  obtain ⟨⟨req, d'⟩, completed⟩ := Option.ne_none_iff_exists'.mp completes
  obtain ⟨busy, r, rest, items, ready, -⟩ := complete_some completed
  have due : d.dueNow n = some req := dueNow_eq_some_iff.mpr ⟨busy, r, rest, items, ready⟩
  simp [due] at not_due

theorem complete_of_due (regular : d.Regular) (due : d.dueNow n = some req) :
    d.complete n = some (req, d.released n) := by
  rw [released_of_due due]
  obtain ⟨busy, r, rest, items, ready⟩ := dueNow_eq_some_iff.mp due
  obtain ⟨e, single⟩ := regular.1 busy
  have alone : rest = [] := by simp_all
  simp [complete, busy, DelayQueue.pop, items, ready, alone]

theorem released_regular (regular : d.Regular) : (d.released n).Regular := by
  cases due : d.dueNow n with
  | none => rwa [released_of_not_due due]
  | some req => rw [released_of_due due]; simp [Regular]

/-- A busy discipline accepts nothing. -/
theorem accepted_of_busy (busy : d.busy = true) : d.accepted n L = d := by
  simp [accepted, busy]

/-- Acceptance leaves the discipline as it is, or makes an idle one busy until L cycles on. -/
theorem accepted_cases (d : Discipline α) (n L : Nat) :
    d.accepted n L = d ∨ d.busy = false ∧ ∃ rest req,
      d.accepted n L = ⟨true, ⟨rest, d.inq.nextAvail⟩, ⟨[(n + L, req)], d.doneq.nextAvail⟩⟩ := by
  unfold accepted
  split
  case h_1 r req rest idle items =>
    split
    · exact .inr ⟨idle, rest, req, rfl⟩
    · exact .inl rfl
  case h_2 => exact .inl rfl

theorem accept_eq_accepted (regular : d.Regular) : d.accept n L = d.accepted n L := by
  cases busy : d.busy with
  | true => rw [accepted_of_busy busy]; simp [accept, busy]
  | false =>
    have none_done : d.doneq.items = [] := regular.2 busy
    cases waiting : d.inq.items with
    | nil => simp [accept, accepted, busy, DelayQueue.pop, waiting]
    | cons e rest =>
      by_cases ready : e.1 ≤ n <;>
        simp [accept, accepted, busy, DelayQueue.pop, waiting, ready, DelayQueue.pushChained,
          DelayQueue.lastReady, none_done]

theorem accepted_regular (regular : d.Regular) : (d.accepted n L).Regular := by
  obtain kept | ⟨-, rest, req, taken⟩ := d.accepted_cases n L
  · rwa [kept]
  · rw [taken]; simp [Regular]

theorem afterTick_regular (regular : d.Regular) : (d.afterTick n L).Regular :=
  accepted_regular (released_regular regular)

theorem accepted_accepted (d : Discipline α) (n L : Nat) : (d.accepted n L).accepted n L = d.accepted n L := by
  obtain kept | ⟨-, rest, req, taken⟩ := d.accepted_cases n L
  · rw [kept, kept]
  · exact accepted_of_busy (by rw [taken])

theorem released_not_due (d : Discipline α) (n : Nat) : (d.released n).dueNow n = none := by
  cases due : d.dueNow n with
  | none => rwa [released_of_not_due due]
  | some req => rw [released_of_due due]; rfl

/-- With a latency of at least one cycle, nothing accepted in a cycle is due in it. -/
theorem afterTick_not_due (d : Discipline α) (n : Nat) (latency_pos : 0 < L) : (d.afterTick n L).dueNow n = none := by
  unfold afterTick
  obtain kept | ⟨-, rest, req, taken⟩ := (d.released n).accepted_cases n L
  · rw [kept]; exact d.released_not_due n
  · rw [taken]; simp [dueNow, Nat.pos_iff_ne_zero.mp latency_pos]

theorem afterTick_afterTick (d : Discipline α) (n : Nat) (latency_pos : 0 < L) :
    (d.afterTick n L).afterTick n L = d.afterTick n L := by
  have not_due := d.afterTick_not_due n latency_pos
  calc (d.afterTick n L).afterTick n L
      = (d.afterTick n L).accepted n L := by rw [afterTick, released_of_not_due not_due]
    _ = d.afterTick n L := accepted_accepted ..

end Discipline

/-! ## Storing an inbound event (R318) -/

/-- The core with bytes written from an address on. -/
def Core.withBytes (c : Core) (a : Nat) (bytes : List Byte) : Core :=
  { c with dmem := Memory.writeList c.cfg.dmemImage c.dmem a bytes }

theorem Core.byteAt_withBytes (c : Core) (a b : Nat) (bytes : List Byte) :
    (c.withBytes a bytes).byteAt b =
      if a ≤ b ∧ b < a + bytes.length then bytes.getD (b - a) 0 else c.byteAt b :=
  c.byteAt_writeList _ a b bytes rfl rfl

/-- A one-byte write changes one byte. -/
theorem Core.byteAt_withBytes_singleton (c : Core) (a b : Nat) (v : Byte) :
    (c.withBytes a [v]).byteAt b = if b = a then v else c.byteAt b := by
  rw [Core.byteAt_withBytes]
  by_cases here : b = a
  · simp [here]
  · have elsewhere : ¬ (a ≤ b ∧ b < a + [v].length) := by simp only [List.length_singleton]; omega
    rw [if_neg here, if_neg elsewhere]

/-- A region that fits holds its flag byte and the buffer the selector chooses inside data memory (R90). -/
theorem Core.region_inRange {c : Core} {g : RxRegion} (fits : regionFits c.dmemSize g = true) :
    g.flagAddr + 1 ≤ c.dmemSize ∧ c.rxBuffer g + g.bufSize ≤ c.dmemSize := by
  simp only [regionFits, rxRanges, List.all_cons, List.all_nil, Bool.and_true, Bool.and_eq_true,
    decide_eq_true_eq] at fits
  obtain ⟨flag, -, buf0, buf1⟩ := fits
  refine ⟨flag, ?_⟩
  unfold Core.rxBuffer
  split
  · exact buf1
  · exact buf0

section
variable {c : Core} {p : Nat} {ev : Event} {g : RxRegion} (at_p : c.cfg.rxRegions[p]? = some g)
include at_p

theorem Core.rxStore_overflow (long : g.bufSize < ev.payload.length) :
    c.rxStore p ev = .error ⟨.rxOverflow, .rx p ev.payload.length⟩ := by
  simp [Core.rxStore, at_p, Nat.not_le.mpr long]

theorem Core.rxStore_fits (fits : regionFits c.dmemSize g = true) (short : ev.payload.length ≤ g.bufSize) :
    c.rxStore p ev = .ok ((c.withBytes (c.rxBuffer g) ev.payload).withBytes g.flagAddr [1]) := by
  obtain ⟨flag, buffer⟩ := Core.region_inRange fits
  have payload_fits : c.rxBuffer g + ev.payload.length ≤ c.dmemSize := by omega
  have flag_written : (c.withBytes (c.rxBuffer g) ev.payload).memWrite g.flagAddr [1] = _ :=
    Core.memWrite_inRange flag
  simp only [Core.rxStore, at_p, if_pos short, Core.memWrite_inRange payload_fits]
  rw [Core.withBytes] at flag_written
  rw [flag_written]
  rfl

end

/-- Storing an event changes data memory alone. -/
theorem Core.rxStore_eq_withMemory {c c' : Core} {p : Nat} {ev : Event} (stored : c.rxStore p ev = .ok c') :
    ∃ m, c' = { c with dmem := m } := by
  unfold Core.rxStore at stored
  split at stored
  case h_1 => cases stored; exact ⟨c.dmem, rfl⟩
  case h_2 =>
    split at stored
    case isFalse => cases stored
    case isTrue =>
      split at stored
      case h_1 => cases stored
      case h_2 =>
        split at stored
        case h_1 => cases stored
        case h_2 m _ => cases stored; exact ⟨m, rfl⟩

/-- Storing an event neither reads nor changes the receive discipline. -/
theorem Core.rxStore_withRx (c : Core) (d : Discipline (Nat × Event)) (p : Nat) (ev : Event) :
    Core.rxStore { c with rx := d } p ev = (c.rxStore p ev).map fun c' => { c' with rx := d } := by
  unfold Core.rxStore
  cases c.cfg.rxRegions[p]? with
  | none => rfl
  | some g =>
    by_cases short : ev.payload.length ≤ g.bufSize
    case neg => simp only [if_neg short]; rfl
    case pos =>
      have payload_write : Core.memWrite { c with rx := d } (Core.rxBuffer { c with rx := d } g) ev.payload =
        c.memWrite (c.rxBuffer g) ev.payload := rfl
      simp only [if_pos short, payload_write]
      cases c.memWrite (c.rxBuffer g) ev.payload with
      | error f => rfl
      | ok m =>
        have flag_write : Core.memWrite { c with rx := d, dmem := m } g.flagAddr [1] =
          Core.memWrite { c with dmem := m } g.flagAddr [1] := rfl
        simp only [flag_write]
        cases Core.memWrite { c with dmem := m } g.flagAddr [1] <;> rfl

/-! ## The receive step (R317) -/

section
variable {c : Core} {n : Nat}

theorem Core.rxStep_of_not_due (regular : c.rx.Regular) (not_due : c.rx.dueNow n = none) :
    c.rxStep n = .ok { c with rx := c.rx.afterTick n c.cfg.rxLatency } := by
  rw [Discipline.afterTick, Discipline.released_of_not_due not_due, ← Discipline.accept_eq_accepted regular]
  simp [Core.rxStep, Discipline.complete_of_not_due not_due, Core.rxAccept]

variable {p : Nat} {ev : Event}

theorem Core.rxStep_of_store_error {f : FaultRecord} (regular : c.rx.Regular) (due : c.rx.dueNow n = some (p, ev))
    (fault : c.rxStore p ev = .error f) : c.rxStep n = .error f := by
  simp [Core.rxStep, Discipline.complete_of_due regular due, Core.rxStore_withRx, fault, Except.map]

theorem Core.rxStep_of_store_ok {c' : Core} (regular : c.rx.Regular) (due : c.rx.dueNow n = some (p, ev))
    (stored : c.rxStore p ev = .ok c') :
    c.rxStep n = .ok { c' with rx := c.rx.afterTick n c.cfg.rxLatency } := by
  obtain ⟨m, rfl⟩ := Core.rxStore_eq_withMemory stored
  rw [Discipline.afterTick, ← Discipline.accept_eq_accepted (Discipline.released_regular regular)]
  simp [Core.rxStep, Discipline.complete_of_due regular due, Core.rxStore_withRx, stored, Except.map, Core.rxAccept]

/-- A receive step that goes through changes data memory and the receive discipline alone. -/
theorem Core.rxStep_ok {c' : Core} (regular : c.rx.Regular) (stepped : c.rxStep n = .ok c') :
    ∃ m, c' = { c with dmem := m, rx := c.rx.afterTick n c.cfg.rxLatency } := by
  cases due : c.rx.dueNow n with
  | none =>
    rw [Core.rxStep_of_not_due regular due] at stepped
    cases stepped
    exact ⟨c.dmem, rfl⟩
  | some e =>
    cases store : c.rxStore e.1 e.2 with
    | error f => rw [Core.rxStep_of_store_error regular due store] at stepped; cases stepped
    | ok stored =>
      rw [Core.rxStep_of_store_ok regular due store] at stepped
      obtain ⟨m, rfl⟩ := Core.rxStore_eq_withMemory store
      cases stepped
      exact ⟨m, rfl⟩

/-- A second receive step in the same cycle changes nothing. -/
theorem Core.rxStep_again {c' : Core} (regular : c.rx.Regular) (latency_pos : 0 < c.cfg.rxLatency)
    (stepped : c.rxStep n = .ok c') : c'.rxStep n = .ok c' := by
  obtain ⟨m, rfl⟩ := Core.rxStep_ok regular stepped
  rw [Core.rxStep_of_not_due (Discipline.afterTick_regular regular) (c.rx.afterTick_not_due n latency_pos)]
  simp only [c.rx.afterTick_afterTick n latency_pos]

end

/-! ## The receive step at the head of a core's tick (R190) -/

section
variable {s : State} {k : Nat} {c c' : Core} (at_k : s.cores[k]? = some c)
include at_k

theorem runReceive_ok (stepped : c.rxStep s.cycle = .ok c') : runReceive k s = .next (s.putCore k c') := by
  simp [runReceive, at_k, stepped, State.putResult]

theorem runReceive_error {f : FaultRecord} (fault : c.rxStep s.cycle = .error f) :
    runReceive k s = .next (s.raise f) := by
  simp [runReceive, at_k, fault, State.putResult]

end

/-- What a core's tick does is fixed by what its receive step leaves. -/
theorem tickCore_congr {s t : State} {k : Nat} (same : runReceive k s.unfocus = runReceive k t.unfocus) :
    tickCore k s = tickCore k t := by
  simp only [tickCore, same]

/-- Nothing of a tick runs after a fault (R442). -/
theorem proceed_of_fault {s : State} (faulted : s.fault.isSome = true)
    (f : State → Host.Outcome State Fault Refusal) : proceed (.next s) f = .next s := by
  simp [proceed, faulted]

theorem tickCore_of_rxStep_error {s : State} {k : Nat} {c : Core} {f : FaultRecord} (at_k : s.cores[k]? = some c)
    (fault : c.rxStep s.cycle = .error f) : tickCore k s = .next { s.raise f with focus := .rest } := by
  have received : runReceive k s.unfocus = .next (s.unfocus.raise f) := runReceive_error (s := s.unfocus) at_k fault
  simp only [tickCore, received, proceed_of_fault (s := s.unfocus.raise f) rfl]
  rfl

theorem State.putCore_putCore (s : State) (k : Nat) (c c' : Core) :
    (s.putCore k c).putCore k c' = s.putCore k c' := by
  simp [State.putCore]

/-- Once the receive step has run, a tick goes on as it would from the state that step leaves. -/
theorem tickCore_of_rxStep_ok {s : State} {k : Nat} {c c' : Core} (at_k : s.cores[k]? = some c)
    (regular : c.rx.Regular) (latency_pos : 0 < c.cfg.rxLatency) (stepped : c.rxStep s.cycle = .ok c') :
    tickCore k s = tickCore k (s.putCore k c') := by
  have received : (s.putCore k c').cores[k]? = some c' := getElem?_set_core at_k
  have stepped_again : c'.rxStep s.cycle = .ok c' := Core.rxStep_again regular latency_pos stepped
  apply tickCore_congr
  calc runReceive k s.unfocus
      = .next (s.unfocus.putCore k c') := runReceive_ok (s := s.unfocus) at_k stepped
    _ = .next ((s.putCore k c').unfocus.putCore k c') := by
        rw [← State.putCore_putCore s.unfocus k c' c']
        rfl
    _ = runReceive k (s.putCore k c').unfocus :=
        (runReceive_ok (s := (s.putCore k c').unfocus) received stepped_again).symm

/-- Settles O58: the store is a write of the payload and then of the flag byte, and the receive step, run again in the
same cycle, does nothing. -/
theorem receiveStoresPayloadAndFlag : Obligations.ReceiveStoresPayloadAndFlag := by
  refine ⟨fun c p ev g at_p fits => ⟨Core.rxStore_overflow at_p, fun short => ?_⟩, fun c n regular => ?_,
    fun s k c at_k regular latency_pos => ?_⟩
  · refine ⟨_, Core.rxStore_fits at_p fits short, fun a => ?_⟩
    calc Core.byteAt ((c.withBytes (c.rxBuffer g) ev.payload).withBytes g.flagAddr [1]) a
        = if a = g.flagAddr then 1 else (c.withBytes (c.rxBuffer g) ev.payload).byteAt a :=
          Core.byteAt_withBytes_singleton ..
      _ = _ := by rw [Core.byteAt_withBytes]; rfl
  · exact ⟨Core.rxStep_of_not_due regular, fun p ev due =>
      ⟨fun f => Core.rxStep_of_store_error regular due, fun c' => Core.rxStep_of_store_ok regular due⟩⟩
  · exact ⟨fun f => tickCore_of_rxStep_error at_k, fun c' => tickCore_of_rxStep_ok at_k regular latency_pos⟩

end Sys2Proof.Machine
end

section
/-! PROOFS. The CAM of 45_cam.md, R330 to R335 and R340: the column and row tests, the leakage of a search, what each
command does at its completion, and what a CAM's tick leaves in the system. Beside it the commands no device lists. -/

namespace Sys2Proof.Machine

/-! ## The row test (R332, R333) -/

/-- The two bounds are tested separately, and each is met when it is don't-care. -/
theorem cellPasses_iff (cell : CamCell) (d : Byte) :
    cellPasses cell d = true ↔
      (cell.lowX = false → cell.low.toNat < d.toNat) ∧ (cell.highX = false → d.toNat ≤ cell.high.toNat) := by
  cases low : cell.lowX <;> cases high : cell.highX <;>
    simp [cellPasses, low, high, BitVec.lt_def, BitVec.le_def]

theorem rowMatches_cons (cell : CamCell) (row : List CamCell) (d : Byte) (data : List Byte) (active : Bool)
    (mask : List Bool) :
    rowMatches (cell :: row) (d :: data) (active :: mask) = true ↔
      (active = true → cellPasses cell d = true) ∧ rowMatches row data mask = true := by
  cases active <;> simp [rowMatches]

/-- A row whose lists agree in length matches when every active column passes; the others are skipped. -/
theorem rowMatches_iff_columns {row : List CamCell} {data : List Byte} {mask : List Bool}
    (data_length : data.length = row.length) (mask_length : mask.length = row.length) :
    rowMatches row data mask = true ↔
      ∀ (j : Nat) (cell : CamCell) (d : Byte), row[j]? = some cell → data[j]? = some d → mask[j]? = some true →
        cellPasses cell d = true := by
  induction row generalizing data mask with
  | nil => simp [rowMatches]
  | cons cell row ih =>
    obtain ⟨d, data, rfl⟩ := List.exists_cons_of_length_eq_add_one data_length
    obtain ⟨active, mask, rfl⟩ := List.exists_cons_of_length_eq_add_one mask_length
    have later_columns := ih (Nat.succ.inj data_length) (Nat.succ.inj mask_length)
    rw [← Nat.and_forall_add_one, rowMatches_cons, later_columns]
    simp

/-- Settles O48, by the row test column by column. -/
theorem camRowMatchesColumnwise : Obligations.CamRowMatchesColumnwise := by
  intro row data mask data_length mask_length
  simp only [rowMatches_iff_columns data_length mask_length, cellPasses_iff]

/-! ## The leakage of a search (R340) -/

/-- The nibbles of a threshold byte, by division as in the model, are its upper and lower four bits. -/
theorem Cam.byteLeak_eq_nibbles (cam : Cam) (b : Byte) :
    cam.byteLeak b =
      cam.cfg.nibbleEnergy[(b >>> 4).toNat]?.getD 0 + cam.cfg.nibbleEnergy[(b &&& 15).toNat]?.getD 0 := by
  have upper : (b >>> 4).toNat = b.toNat / 16 := by
    rw [BitVec.toNat_ushiftRight, Nat.shiftRight_eq_div_pow]
  have lower : (b &&& 15).toNat = b.toNat % 16 := by
    rw [BitVec.toNat_and]
    exact Nat.and_two_pow_sub_one_eq_mod b.toNat 4
  rw [Cam.byteLeak, upper, lower]

theorem Cam.cellLeak_eq_nibbleSum (cam : Cam) : cam.cellLeak = nibbleSum cam.cfg := by
  funext cell
  rw [Cam.cellLeak, nibbleSum, cam.byteLeak_eq_nibbles, cam.byteLeak_eq_nibbles, ← add_assoc]

/-- The leakage is summed row by row, which is the sum over all cells. -/
theorem Cam.totalLeak_eq_sum_nibbleSum (cam : Cam) :
    cam.totalLeak = (cam.rows.flatten.map (nibbleSum cam.cfg)).sum := by
  rw [Cam.totalLeak, cam.cellLeak_eq_nibbleSum, List.map_flatten, List.sum_flatten, List.map_map]
  rfl

/-! ## The match vector (R334) -/

@[simp] theorem Cam.matchVector_length (cam : Cam) (data : List Byte) (mask : List Bool) :
    (cam.matchVector data mask).length = cam.rows.length :=
  List.length_map _

theorem Cam.matchVector_getElem? {cam : Cam} {r : Nat} {row : List CamCell} (at_r : cam.rows[r]? = some row)
    (data : List Byte) (mask : List Bool) :
    (cam.matchVector data mask)[r]? = some (if rowMatches row data mask then 1 else 0) := by
  rw [Cam.matchVector, List.getElem?_map, at_r, Option.map_some]

/-! ## What a device does at a command's completion (R330, R334, R335, R360, R390) -/

section
variable {req : Event}

theorem Cam.perform_precharge (cam : Cam) (imm : req.imm = 0) : cam.perform req = .ok (cam.precharge, none) := by
  simp [Cam.perform, imm]

theorem Cam.perform_search_of_no_query {cam : Cam} (imm : req.imm = 1) (none_latched : cam.query = none) :
    cam.perform req = .error ⟨.deviceData, .data .cam none⟩ := by
  simp [Cam.perform, imm, none_latched]

theorem Cam.perform_search_of_query {cam : Cam} {data : List Byte} {mask : List Bool} (imm : req.imm = 1)
    (latched : cam.query = some (data, mask)) :
    cam.perform req = .ok (cam.searchEnergy mask, some (replyTo req (cam.matchVector data mask))) := by
  simp [Cam.perform, imm, latched]

theorem Cam.perform_unlisted (cam : Cam) (unlisted : 1 < req.imm.toNat) :
    cam.perform req = .error ⟨.deviceSubop, .subop .cam req.imm⟩ := by
  obtain ⟨k, beyond⟩ := Nat.exists_eq_add_of_le' unlisted
  simp [Cam.perform, beyond]

theorem Mpe.perform_unlisted (mpe : Mpe) (unlisted : 5 < req.imm.toNat) :
    mpe.perform req = .error ⟨.deviceSubop, .subop .mpe req.imm⟩ := by
  obtain ⟨k, beyond⟩ := Nat.exists_eq_add_of_le' unlisted
  simp [Mpe.perform, beyond]

theorem Mmr.perform_unlisted (mmr : Mmr) (unlisted : 0 < req.imm.toNat) :
    mmr.perform req = .error ⟨.deviceSubop, .subop .mmr req.imm⟩ := by
  obtain ⟨k, beyond⟩ := Nat.exists_eq_add_of_le' unlisted
  simp [Mmr.perform, beyond]

end

/-- Settles O50: each range of the command number is one case of the device's command table. -/
theorem prechargeAndUnknownCommands : Obligations.PrechargeAndUnknownCommands :=
  fun _ => ⟨fun cam => ⟨cam.perform_precharge, cam.perform_unlisted⟩, fun mpe => mpe.perform_unlisted,
    fun mmr => mmr.perform_unlisted⟩

/-! ## What a CAM's tick leaves in the system (R165, R442) -/

section
variable {s : State} {j : Nat} {cam : Cam} (at_j : s.cams[j]? = some cam)
include at_j

theorem tickCam_error {f : FaultRecord} (fault : cam.tick s.cycle = .error f) : tickCam j s = .next (s.raise f) := by
  simp [tickCam, at_j, fault]

theorem tickCam_ok {cam' : Cam} {out : Option Event} (ticked : cam.tick s.cycle = .ok (cam', out)) :
    tickCam j s = .next ((s.putCam j cam').sendOpt (.camOut j) out) := by
  simp [tickCam, at_j, ticked]

end

/-- Settles O49: the search leaves `searchEnergy`, whose leakage term is the sum over all cells, and answers with the
match vector; the tick sends what it emits. -/
theorem camSearchReportsEveryRow : Obligations.CamSearchReportsEveryRow := by
  refine ⟨fun cam req imm => ⟨Cam.perform_search_of_no_query imm, fun data mask latched => ?_⟩, fun s j cam at_j => ?_⟩
  · have leakage : (cam.searchEnergy mask).eLeak = cam.eLeak + (cam.rows.flatten.map (nibbleSum cam.cfg)).sum :=
      congrArg (cam.eLeak + ·) cam.totalLeak_eq_sum_nibbleSum
    exact ⟨cam.searchEnergy mask, cam.matchVector data mask, Cam.perform_search_of_query imm latched,
      cam.matchVector_length data mask, fun r row at_r => Cam.matchVector_getElem? at_r data mask, leakage,
      rfl, rfl, rfl, rfl, rfl, rfl, rfl, rfl, rfl, rfl⟩
  · exact ⟨fun f => tickCam_error at_j, fun cam' => tickCam_ok at_j, fun cam' ev => tickCam_ok at_j⟩

end Sys2Proof.Machine
end

section
/-! PROOFS. The match-processing element of 46_mpe.md, R363 to R368: what each command does to one row, to all rows and
to the element, and what an MPE's tick leaves in the system. -/

namespace Sys2Proof.Machine

/-! ## One row: update and pack (R366, R367) -/

/-- The lowest bit of a byte as a byte. -/
theorem and_one_eq_ite_getLsbD (x : Byte) : x &&& 1 = if x.getLsbD 0 then 1 else 0 := by
  change x &&& 1#8 = _
  rw [BitVec.and_one_eq_setWidth_ofBool_getLsbD]
  cases x.getLsbD 0 <;> rfl

theorem add_and_one_toNat (x y : Byte) :
    (x + (y &&& 1)).toNat = (x.toNat + if y.getLsbD 0 then 1 else 0) % 256 := by
  rw [and_one_eq_ite_getLsbD, BitVec.toNat_add]
  split <;> rfl

theorem mul_and_one (x y : Byte) : x * (y &&& 1) = if y.getLsbD 0 then x else 0 := by
  rw [and_one_eq_ite_getLsbD, mul_ite, mul_one, mul_zero]

theorem MpeRow.update_n_toNat (row : MpeRow) :
    row.update.n.toNat = (row.n.toNat + if row.t.getLsbD 0 = row.b.getLsbD 0 then 0 else 1) % 256 := by
  rw [MpeRow.update, add_and_one_toNat, BitVec.getLsbD_xor]
  cases row.t.getLsbD 0 <;> cases row.b.getLsbD 0 <;> rfl

theorem MpeRow.update_s_toNat (row : MpeRow) :
    row.update.s.toNat = (row.s.toNat + if row.t.getLsbD 0 && !row.b.getLsbD 0 then 1 else 0) % 256 := by
  rw [MpeRow.update, add_and_one_toNat, BitVec.getLsbD_and, BitVec.getLsbD_not]
  rfl

theorem MpeRow.update_p (row : MpeRow) :
    row.update.p = if row.t.getLsbD 0 || row.b.getLsbD 0 then row.p else 0 := by
  rw [MpeRow.update, mul_and_one, BitVec.getLsbD_or]

/-- The two three-bit fields of the packed byte do not overlap, so their `|||` is a sum. -/
theorem MpeRow.packed_toNat (row : MpeRow) : row.packed.toNat = 8 * (row.n.toNat % 8) + row.s.toNat % 8 := by
  have low_bits (x : Byte) : (x &&& 7).toNat = x.toNat % 8 := by
    rw [BitVec.toNat_and]
    exact Nat.and_two_pow_sub_one_eq_mod x.toNat 3
  have upper : ((row.n &&& 7) <<< 3).toNat = 2 ^ 3 * (row.n.toNat % 8) := by
    rw [BitVec.toNat_shiftLeft, low_bits, Nat.shiftLeft_eq]
    omega
  have lower_lt : row.s.toNat % 8 < 2 ^ 3 := Nat.mod_lt _ (by decide)
  rw [MpeRow.packed, BitVec.toNat_or, upper, low_bits, ← Nat.two_pow_add_eq_or_of_lt lower_lt]

/-! ## All rows: decide and its sentinel (R368) -/

@[simp] theorem decideRows_length (rows : List MpeRow) : (decideRows rows).length = rows.length := by
  fun_induction decideRows rows with
  | case1 => rfl
  | case2 => rfl
  | case3 r r' rs ih => rw [List.length_cons, ih, List.length_cons (as := r' :: rs)]

/-- The last row becomes the sentinel, every other row is decided. -/
theorem decideRows_getElem? {rows : List MpeRow} {r : Nat} {row : MpeRow} (at_r : rows[r]? = some row) :
    (decideRows rows)[r]? = some (if r + 1 = rows.length then row.sentinel else row.decide) := by
  fun_induction decideRows rows generalizing r with
  | case1 => simp at at_r
  | case2 last =>
    obtain ⟨rfl, rfl⟩ : r = 0 ∧ last = row := by simpa [List.getElem?_singleton] using at_r
    rfl
  | case3 first next rest ih =>
    cases r with
    | zero =>
      cases at_r
      simp
    | succ r =>
      rw [List.getElem?_cons_succ] at at_r ⊢
      simpa using ih at_r

/-! ## The loaded payload (R364, R365) -/

section
variable {mpe : Mpe}

theorem Mpe.loadData_of_none (none_latched : mpe.data = none) :
    mpe.loadData = .error ⟨.deviceData, .data .mpe none⟩ := by
  rw [Mpe.loadData, none_latched]

variable {d : List Byte} (latched : mpe.data = some d)
include latched

theorem Mpe.loadData_of_length (whole : d.length = mpe.cfg.nRows) : mpe.loadData = .ok d := by
  simp [Mpe.loadData, latched, whole]

theorem Mpe.loadData_of_length_ne (not_whole : d.length ≠ mpe.cfg.nRows) :
    mpe.loadData = .error ⟨.deviceData, .data .mpe (some d.length)⟩ := by
  simp [Mpe.loadData, latched, not_whole]

end

/-! ## What a command does at its completion (R360, R363 to R368) -/

section
variable {req : Event}

theorem Mpe.perform_reset (mpe : Mpe) (imm : req.imm = 0) :
    mpe.perform req = .ok (mpe.withRows (mpe.rows.map MpeRow.reset), none) := by
  simp [Mpe.perform, imm]

theorem Mpe.perform_loadT {mpe : Mpe} {d : List Byte} (imm : req.imm = 1) (loads : mpe.loadData = .ok d) :
    mpe.perform req = .ok (mpe.withRows (mpe.rows.zipWith (fun row v => { row with t := v }) d), none) := by
  simp [Mpe.perform, imm, loads]

theorem Mpe.perform_loadB {mpe : Mpe} {d : List Byte} (imm : req.imm = 2) (loads : mpe.loadData = .ok d) :
    mpe.perform req = .ok (mpe.withRows (mpe.rows.zipWith (fun row v => { row with b := v }) d), none) := by
  simp [Mpe.perform, imm, loads]

theorem Mpe.perform_load_error {mpe : Mpe} {f : FaultRecord} (imm : req.imm = 1 ∨ req.imm = 2)
    (fault : mpe.loadData = .error f) : mpe.perform req = .error f := by
  obtain imm | imm := imm <;> simp [Mpe.perform, imm, fault]

theorem Mpe.perform_update (mpe : Mpe) (imm : req.imm = 3) :
    mpe.perform req = .ok (mpe.withRows (mpe.rows.map MpeRow.update), none) := by
  simp [Mpe.perform, imm]

theorem Mpe.perform_pack (mpe : Mpe) (imm : req.imm = 4) :
    mpe.perform req = .ok (mpe, some (.resp, replyTo req (mpe.rows.map MpeRow.packed))) := by
  simp [Mpe.perform, imm]

theorem Mpe.perform_decide (mpe : Mpe) (imm : req.imm = 5) :
    mpe.perform req = .ok (mpe.withRows (decideRows mpe.rows),
      some (.out, replyTo req ((decideRows mpe.rows).map MpeRow.up ++ (decideRows mpe.rows).map MpeRow.down))) := by
  simp [Mpe.perform, imm]

end

/-- Every payload byte meets its row, and no row is lost (R364, R365). -/
theorem zipWith_rowwise {rows : List MpeRow} {d : List Byte} (f : MpeRow → Byte → MpeRow)
    (whole : d.length = rows.length) :
    (rows.zipWith f d).length = rows.length ∧
      ∀ (r : Nat) (row : MpeRow) (v : Byte), rows[r]? = some row → d[r]? = some v →
        (rows.zipWith f d)[r]? = some (f row v) := by
  refine ⟨by rw [List.length_zipWith, whole, min_self], fun r row v at_row at_byte => ?_⟩
  rw [List.getElem?_zipWith, at_row, at_byte]

/-- Settles O52: every command is one map over the rows, a load under the condition on its payload. -/
theorem mpeCommandsUpdateRows : Obligations.MpeCommandsUpdateRows := by
  intro mpe req row_count
  refine ⟨fun imm => ?reset, fun d latched whole => ⟨fun imm => ?loadT, fun imm => ?loadB⟩,
    fun imm => ⟨fun none_latched => ?noPayload, fun d latched not_whole => ?wrongLength⟩, fun imm => ?update⟩
  case reset =>
    refine ⟨_, mpe.perform_reset imm, List.length_map _, fun r row at_r => ?_⟩
    rw [List.getElem?_map, at_r]
    rfl
  case loadT =>
    exact ⟨_, Mpe.perform_loadT imm (Mpe.loadData_of_length latched whole),
      zipWith_rowwise _ (whole.trans row_count.symm)⟩
  case loadB =>
    exact ⟨_, Mpe.perform_loadB imm (Mpe.loadData_of_length latched whole),
      zipWith_rowwise _ (whole.trans row_count.symm)⟩
  case noPayload => exact Mpe.perform_load_error imm (Mpe.loadData_of_none none_latched)
  case wrongLength => exact Mpe.perform_load_error imm (Mpe.loadData_of_length_ne latched not_whole)
  case update =>
    refine ⟨_, mpe.perform_update imm, List.length_map _, fun r row at_r =>
      ⟨row.update.n, row.update.s, row.update.p, ?_, row.update_n_toNat, row.update_s_toNat, row.update_p⟩⟩
    rw [List.getElem?_map, at_r]
    rfl

/-! ## What an MPE's tick leaves in the system (R165, R442) -/

section
variable {s : State} {j : Nat} {mpe : Mpe} (at_j : s.mpes[j]? = some mpe)
include at_j

theorem tickMpe_error {f : FaultRecord} (fault : mpe.tick s.cycle = .error f) : tickMpe j s = .next (s.raise f) := by
  simp [tickMpe, at_j, fault]

theorem tickMpe_ok {mpe' : Mpe} {out : Option (MpePort × Event)} (ticked : mpe.tick s.cycle = .ok (mpe', out)) :
    tickMpe j s = .next ((s.putMpe j mpe').sendMpe j out) := by
  simp [tickMpe, at_j, ticked]

end

/-- Settles O53: the packed bytes and the decided rows stand at their row's index, and the tick sends on the port the
command names. -/
theorem mpePacksAndDecides : Obligations.MpePacksAndDecides := by
  refine ⟨fun mpe req => ⟨fun imm => ?pack, fun imm => ?decide⟩, fun s j mpe at_j => ?tick⟩
  case pack =>
    refine ⟨_, mpe.perform_pack imm, List.length_map _, fun r row at_r => ?_⟩
    rw [List.getElem?_map, at_r, Option.map_some, Option.map_some, row.packed_toNat]
  case decide =>
    exact ⟨_, mpe.perform_decide imm, decideRows_length _, fun r row at_r => decideRows_getElem? at_r⟩
  case tick =>
    exact ⟨fun f => tickMpe_error at_j, fun mpe' => tickMpe_ok at_j, fun mpe' ev => tickMpe_ok at_j,
      fun mpe' ev => tickMpe_ok at_j⟩

end Sys2Proof.Machine
end

section
/-! PROOFS. The match register of 47_mmr.md, R392, R393 and R395: what one scan finds and clears, what an extract sends,
and what an MMR's tick leaves in the system. -/

namespace Sys2Proof.Machine

/-! ## The set entries of a half and their indices -/

/-- The indices of the set entries of `v`, ascending, the first entry standing at index `start`. -/
def setIndices (v : List Byte) (start : Nat) : List Byte :=
  ((v.zipIdx start).filter fun e : Byte × Nat => e.1 != 0).map fun e : Byte × Nat => BitVec.ofNat 8 e.2

theorem setIndices_append (a b : List Byte) (start : Nat) :
    setIndices (a ++ b) start = setIndices a start ++ setIndices b (start + a.length) := by
  simp only [setIndices, List.zipIdx_append, List.filter_append, List.map_append]

theorem setIndices_zero_cons (b : List Byte) (start : Nat) :
    setIndices (0 :: b) start = setIndices b (start + 1) := rfl

theorem setIndices_cons_of_set {x : Byte} (set : (x != 0) = true) (b : List Byte) (start : Nat) :
    setIndices (x :: b) start = BitVec.ofNat 8 start :: setIndices b (start + 1) := by
  simp only [setIndices, List.zipIdx_cons, List.filter_cons, set, if_true, List.map_cons]

theorem setIndices_of_zeros {a : List Byte} (zeros : ∀ e ∈ a, e = 0) (start : Nat) : setIndices a start = [] := by
  induction a generalizing start with
  | nil => rfl
  | cons x a ih =>
    obtain ⟨rfl, rest⟩ := List.forall_mem_cons.mp zeros
    rw [setIndices_zero_cons, ih rest]

theorem setIndices_zeros_append {a : List Byte} (zeros : ∀ e ∈ a, e = 0) (b : List Byte) :
    setIndices (a ++ b) 0 = setIndices b a.length := by
  rw [setIndices_append, setIndices_of_zeros zeros, List.nil_append, Nat.zero_add]

/-- Zeros in front add nothing to the count of the set entries before a place behind them. -/
theorem countP_take_zeros_append {a : List Byte} (zeros : ∀ e ∈ a, e = 0) (b : List Byte) (i : Nat) :
    (((a ++ b).take (a.length + i)).countP fun b => b != 0) = (b.take i).countP fun b => b != 0 := by
  have none_set : (a.countP fun b => b != 0) = 0 :=
    List.countP_eq_zero.mpr fun e member => by simp [zeros e member]
  rw [List.take_length_add_append, List.countP_append, none_set, Nat.zero_add]

/-- A half has no set entry, or a first one behind zeros only. -/
theorem zeros_or_first_set (v : List Byte) :
    (∀ e ∈ v, e = 0) ∨ ∃ a x b, v = a ++ x :: b ∧ (∀ e ∈ a, e = 0) ∧ (x != 0) = true := by
  induction v with
  | nil => exact .inl (by simp)
  | cons y v ih =>
    by_cases zero : y = 0
    · obtain zeros | ⟨a, x, b, rfl, zeros, set⟩ := ih
      · exact .inl (List.forall_mem_cons.mpr ⟨zero, zeros⟩)
      · exact .inr ⟨y :: a, x, b, rfl, List.forall_mem_cons.mpr ⟨zero, zeros⟩, set⟩
    · exact .inr ⟨[], y, v, rfl, by simp, bne_iff_ne.mpr zero⟩

/-! ## One slot of the scan (R393) -/

theorem scanSlots_of_zeros {v : List Byte} (zeros : ∀ e ∈ v, e = 0) (k : Nat) :
    scanSlots k v = (List.replicate k 255, v) := by
  have unset : (v.findIdx? fun b => b != 0) = none :=
    List.findIdx?_eq_none_iff.mpr fun e member => by simp [zeros e member]
  cases k with
  | zero => rfl
  | succ k => rw [scanSlots, unset]

theorem scanSlots_succ_of_first_set {a : List Byte} {x : Byte} (zeros : ∀ e ∈ a, e = 0) (set : (x != 0) = true)
    (b : List Byte) (k : Nat) :
    scanSlots (k + 1) (a ++ x :: b) =
      (BitVec.ofNat 8 a.length :: (scanSlots k (a ++ 0 :: b)).1, (scanSlots k (a ++ 0 :: b)).2) := by
  have before : (a.findIdx? fun b => b != 0) = none :=
    List.findIdx?_eq_none_iff.mpr fun e member => by simp [zeros e member]
  have found : ((a ++ x :: b).findIdx? fun b => b != 0) = some a.length := by
    simp only [List.findIdx?_append, before, List.findIdx?_cons, set, if_true, Option.map_some, Option.none_or,
      Nat.zero_add]
  have cleared : (a ++ x :: b).set a.length 0 = a ++ 0 :: b := by simp
  simp only [scanSlots, found, cleared]

/-! ## All slots of the scan -/

/-- The slots record the set indices from the front and hold the sentinel where these run out (R393). -/
theorem scanSlots_fst {k m : Nat} (room : k ≤ m) (v : List Byte) :
    (scanSlots k v).1 = (setIndices v 0 ++ List.replicate m 255).take k := by
  induction k generalizing v with
  | zero => rfl
  | succ k ih =>
    obtain zeros | ⟨a, x, b, rfl, zeros, set⟩ := zeros_or_first_set v
    · rw [scanSlots_of_zeros zeros, setIndices_of_zeros zeros, List.nil_append, List.take_replicate,
        Nat.min_eq_left room]
    · rw [scanSlots_succ_of_first_set zeros set, ih (Nat.le_of_succ_le room), setIndices_zeros_append zeros,
        setIndices_zeros_append zeros, setIndices_zero_cons, setIndices_cons_of_set set, List.cons_append,
        List.take_succ_cons]

theorem scanSlots_fst_length (k : Nat) (v : List Byte) : (scanSlots k v).1.length = k := by
  rw [scanSlots_fst k.le_refl, List.length_take, List.length_append, List.length_replicate]
  omega

/-- An entry is cleared when fewer set entries than slots stand before it (R393, R395). -/
theorem scanSlots_snd_getElem? (k : Nat) (v : List Byte) (j : Nat) :
    (scanSlots k v).2[j]? = v[j]?.map fun e => if ((v.take j).countP fun b => b != 0) < k then 0 else e := by
  induction k generalizing v with
  | zero => simp [scanSlots]
  | succ k ih =>
    obtain zeros | ⟨a, x, b, rfl, zeros, set⟩ := zeros_or_first_set v
    · rw [scanSlots_of_zeros zeros]
      cases at_j : v[j]? with
      | none => rfl
      | some e => simp [zeros e (List.mem_of_getElem? at_j)]
    · rw [scanSlots_succ_of_first_set zeros set, ih]
      obtain before | behind := Nat.lt_or_ge j a.length
      · have zero : a[j] = 0 := zeros _ (List.getElem_mem before)
        simp [List.getElem?_append_left before, List.getElem?_eq_getElem before, zero]
      · obtain ⟨i, rfl⟩ := Nat.exists_eq_add_of_le behind
        simp only [countP_take_zeros_append zeros, List.getElem?_append_right behind, Nat.add_sub_cancel_left]
        cases i with
        | zero =>
          simp only [List.getElem?_cons_zero, Option.map_some, ite_self]
          exact congrArg some (if_pos k.succ_pos).symm
        | succ i =>
          simp only [List.take_succ_cons, List.countP_cons, List.getElem?_cons_succ, set, bne_self_eq_false, if_true,
            Bool.false_eq_true, if_false, Nat.add_zero, Nat.add_lt_add_iff_right]

/-- Settles O54: the scan is `scanSlots` with eight slots, read off slot by slot and entry by entry. -/
theorem mmrScanFindsFirstEight : Obligations.MmrScanFindsFirstEight := by
  intro v
  refine ⟨scanSlots_fst (Nat.le_refl 8) v, List.ext_getElem? fun j => ?_⟩
  rw [List.getElem?_map, List.getElem?_zipIdx, Option.map_map, Nat.zero_add]
  exact scanSlots_snd_getElem? 8 v j

/-! ## What an extract does at its completion (R392) -/

theorem Mmr.perform_extract {mmr : Mmr} {req : Event} {p n : List Byte} (imm : req.imm = 0)
    (pos : mmr.pos = some p) (neg : mmr.neg = some n) :
    mmr.perform req = .ok ({ mmr with pos := some (scan p).2, neg := some (scan n).2 },
      some (replyTo req ((scan p).1 ++ (scan n).1))) := by
  simp [Mmr.perform, imm, pos, neg]

theorem Mmr.perform_extract_of_no_vector {mmr : Mmr} {req : Event} (imm : req.imm = 0)
    (missing : mmr.pos = none ∨ mmr.neg = none) : mmr.perform req = .error ⟨.deviceData, .data .mmr none⟩ := by
  obtain pos | neg := missing
  · simp [Mmr.perform, imm, pos]
  · simp [Mmr.perform, imm, neg]

/-! ## What an MMR's tick leaves in the system (R165, R442) -/

section
variable {s : State} {j : Nat} {mmr : Mmr} (at_j : s.mmrs[j]? = some mmr)
include at_j

theorem tickMmr_error {f : FaultRecord} (fault : mmr.tick s.cycle = .error f) : tickMmr j s = .next (s.raise f) := by
  simp [tickMmr, at_j, fault]

theorem tickMmr_ok {mmr' : Mmr} {out : Option Event} (ticked : mmr.tick s.cycle = .ok (mmr', out)) :
    tickMmr j s = .next ((s.putMmr j mmr').sendOpt (.mmrOut j) out) := by
  simp [tickMmr, at_j, ticked]

end

/-- Settles O55: an extract answers with the eight slots of each half's scan, and the tick sends what it emits. -/
theorem mmrExtractSendsBothHalves : Obligations.MmrExtractSendsBothHalves := by
  refine ⟨fun mmr req imm => ⟨fun p n pos neg => ⟨Mmr.perform_extract imm pos neg, ?length⟩,
    Mmr.perform_extract_of_no_vector imm⟩, fun s j mmr at_j => ?tick⟩
  case length => rw [List.length_append, scan, scan, scanSlots_fst_length, scanSlots_fst_length, mmrSlots]
  case tick => exact ⟨fun f => tickMmr_error at_j, fun mmr' => tickMmr_ok at_j, fun mmr' ev => tickMmr_ok at_j⟩

end Sys2Proof.Machine
end

section
/-! PROOFS. The router of 48_router.md, R416, R421 and R422: what an aggregation sums and sends up, and what one tick
does in each direction and leaves in the system. -/

namespace Sys2Proof.Machine

/-! ## The pattern of a NaN (43_float.md R273) -/

theorem f32Frac_eq_toNat_and (w : Word) : f32Frac w = (w &&& 0x007FFFFF).toNat := by
  rw [f32Frac, BitVec.toNat_and]
  exact (Nat.and_two_pow_sub_one_eq_mod w.toNat 23).symm

theorem f32Exp_eq_toNat_and (w : Word) : f32Exp w = (w >>> 23 &&& 255).toNat := by
  rw [f32Exp, BitVec.toNat_and, BitVec.toNat_ushiftRight, Nat.shiftRight_eq_div_pow]
  exact (Nat.and_two_pow_sub_one_eq_mod _ 8).symm

/-- All bits of the exponent set and some bit of the fraction: a NaN. -/
theorem isNaN_of_bits {w : Word} (exponent : w &&& 0x7F800000 = 0x7F800000) (fraction : w &&& 0x007FFFFF ≠ 0) :
    isNaN w = true := by
  have exp_eq : f32Exp w = 255 :=
    calc f32Exp w = ((w &&& 0x7F800000) >>> 23).toNat := by
          rw [f32Exp_eq_toNat_and, BitVec.ushiftRight_and_distrib]; rfl
      _ = 255 := by rw [exponent]; rfl
  have frac_ne : f32Frac w ≠ 0 := by
    rw [f32Frac_eq_toNat_and]
    exact fun zero => fraction (BitVec.eq_of_toNat_eq zero)
  simp [isNaN, exp_eq, frac_ne]

/-- Absorption of `|||` by `&&&` on words. -/
theorem or_and_cancel (w mask : Word) : (w ||| mask) &&& mask = mask := by
  ext i lt
  simpa using Or.inr

/-- Whatever is drawn, the pattern it stands for is a NaN. -/
theorem isNaN_nanPattern (raw : Word) : isNaN (nanPattern raw) = true := by
  generalize bits : raw ||| 0x7F800000 = w
  have exponent : w &&& 0x7F800000 = 0x7F800000 := by rw [← bits]; exact or_and_cancel raw _
  simp only [nanPattern, bits]
  split
  case isTrue no_fraction =>
    apply isNaN_of_bits
    · rw [BitVec.and_or_distrib_right, exponent]; rfl
    · rw [BitVec.and_or_distrib_right, no_fraction]; decide
  case isFalse fraction => exact isNaN_of_bits exponent fraction

theorem f32Add_of_isNaN {a : Word} (nan : isNaN a = true) (b : Word) : f32Add a b = none := by
  simp [f32Add, nan]

/-! ## The words of a buffer (20_memory.md R82) -/

/-- A word is its low byte under its upper three. -/
theorem setWidth_or_shiftLeft (w : Word) : (w.setWidth 8).setWidth 32 ||| (w >>> 8) <<< 8 = w := by
  ext i lt
  by_cases low : i < 8
  · simp [low, BitVec.getLsbD_eq_getElem lt]
  · simp [low, BitVec.getLsbD_eq_getElem lt, Nat.add_sub_cancel' (Nat.le_of_not_lt low)]

/-- The bytes of a word spell it again, if they are enough to hold it. -/
theorem leWord_leBytes {n : Nat} {w : Word} (enough : w.toNat < 2 ^ (8 * n)) : leWord (leBytes n w) = w := by
  induction n generalizing w with
  | zero => exact (BitVec.eq_of_toNat_eq (Nat.lt_one_iff.mp enough)).symm
  | succ n ih =>
    have upper : (w >>> 8).toNat < 2 ^ (8 * n) := by
      rw [BitVec.toNat_ushiftRight, Nat.shiftRight_eq_div_pow]
      exact Nat.div_lt_of_lt_mul (by rwa [← Nat.pow_add, Nat.add_comm])
    rw [leBytes, leWord, ih upper, setWidth_or_shiftLeft]

theorem wordsOf_leBytes_append (w : Word) (rest : List Byte) : wordsOf (leBytes 4 w ++ rest) = w :: wordsOf rest := by
  have spelled : leWord (leBytes 4 w) = w := leWord_leBytes w.isLt
  exact congrArg (· :: wordsOf rest) spelled

theorem wordsOf_flatten_leBytes (words : List Word) : wordsOf (words.map (leBytes 4)).flatten = words := by
  induction words with
  | nil => rfl
  | cons w words ih => rw [List.map_cons, List.flatten_cons, wordsOf_leBytes_append, ih]

theorem flatten_leBytes_length (words : List Word) :
    (words.map (leBytes 4)).flatten.length = words.length * 4 := by
  simp [List.length_flatten, Function.comp_def]

/-! ## The sum of the words (R416) -/

/-- While no partial sum is a NaN the model's sum is the exact one, and no pattern is drawn. -/
theorem sumWords_of_exactSum_some {acc v : Word} {words : List Word} (exact_sum : exactSum acc words = some v)
    (drawer : NanDrawer) (draws : Nat) : sumWords drawer acc draws words = (v, draws) := by
  induction words generalizing acc with
  | nil => cases exact_sum; rfl
  | cons w words ih =>
    cases partial_sum : f32Add acc w with
    | none => simp [exactSum, partial_sum] at exact_sum
    | some s =>
      simp only [exactSum, partial_sum] at exact_sum
      simp only [sumWords, partial_sum, ih exact_sum]

/-- A NaN stays a NaN to the end of the sum. -/
theorem isNaN_sumWords_of_isNaN {acc : Word} (nan : isNaN acc = true) (drawer : NanDrawer) (draws : Nat)
    (words : List Word) : isNaN (sumWords drawer acc draws words).1 = true := by
  induction words generalizing acc draws with
  | nil => exact nan
  | cons w words ih =>
    simp only [sumWords, f32Add_of_isNaN nan]
    exact ih (isNaN_nanPattern _) _

/-- From the first partial sum that is a NaN on, the model's sum is one. -/
theorem isNaN_sumWords_of_exactSum_none {acc : Word} {words : List Word} (no_sum : exactSum acc words = none)
    (drawer : NanDrawer) (draws : Nat) : isNaN (sumWords drawer acc draws words).1 = true := by
  induction words generalizing acc with
  | nil => cases no_sum
  | cons w words ih =>
    cases partial_sum : f32Add acc w with
    | none =>
      simp only [sumWords, partial_sum]
      exact isNaN_sumWords_of_isNaN (isNaN_nanPattern _) ..
    | some s =>
      simp only [exactSum, partial_sum] at no_sum
      simp only [sumWords, partial_sum]
      exact ih no_sum

/-! ## Aggregation (R416) -/

section
variable (j : Nat) (r : Router) {g : AggRequest}

theorem Router.aggregate_of_not_whole (not_whole : g.buf.length % 4 ≠ 0) :
    r.aggregate j g = .error ⟨.routerPayload, .router g.tag g.buf.length⟩ :=
  if_neg not_whole

/-- The sum and the draw counter of an aggregation, and the event it sends up. -/
theorem Router.aggregate_of_words {words : List Word} (spells : g.buf = (words.map (leBytes 4)).flatten) :
    r.aggregate j g = .ok ({ r with nanDraws := (sumWords (.router j) 0 r.nanDraws words).2 },
      [(.parentUp, .b g.opcode g.dst g.src1 g.src2 g.tag
        (leBytes 4 (sumWords (.router j) 0 r.nanDraws words).1))]) := by
  have whole : g.buf.length % 4 = 0 := by rw [spells, flatten_leBytes_length, Nat.mul_mod_left]
  rw [Router.aggregate, if_pos whole, spells, wordsOf_flatten_leBytes]

/-- An aggregation that goes through changes the draw counter alone. -/
theorem Router.aggregate_ok {r' : Router} {sends : List (RouterPort × Event)}
    (aggregated : r.aggregate j g = .ok (r', sends)) : ∃ draws, r' = { r with nanDraws := draws } := by
  unfold Router.aggregate at aggregated
  split at aggregated
  case isTrue => cases aggregated; exact ⟨_, rfl⟩
  case isFalse => cases aggregated

end

/-! ## The steps of the tick (R422) -/

/-- Queueing requests does not touch the completions. -/
theorem Discipline.enqueueAll_regular {α : Type} {d : Discipline α} (regular : d.Regular) (n : Nat) (reqs : List α) :
    (reqs.foldl (fun d req => d.enqueue n req) d).Regular := by
  induction reqs generalizing d with
  | nil => exact regular
  | cons req reqs ih => exact ih (d := d.enqueue n req) regular

/-- How the tick of the router r ends, from the router q its scan leaves: a request accepted upward, and a whole tick of
the downward discipline. -/
def Router.closed (r q : Router) (n : Nat) : Router :=
  { q with up := q.up.accepted n q.cfg.latencyUp, down := r.down.afterTick n r.cfg.latencyDown }

/-- The events a tick broadcasts to the children. -/
def Router.sendsDown (r : Router) (n : Nat) : List (RouterPort × Event) :=
  (r.down.dueNow n).toList.flatMap r.broadcast

section
variable {r : Router} {n : Nat}

theorem Router.upAccept_scanTick (regular : r.up.Regular) (mode : RouterGrouping) :
    (Router.scanTick mode r n).upAccept n =
      { Router.scanTick mode r n with up := (Router.scanTick mode r n).up.accepted n r.cfg.latencyUp } := by
  have scanned_regular : (Router.scanTick mode r n).up.Regular := Discipline.enqueueAll_regular regular n _
  rw [Router.upAccept, Discipline.accept_eq_accepted scanned_regular]
  rfl

theorem Router.downComplete_eq (regular : r.down.Regular) :
    r.downComplete n = ({ r with down := r.down.released n }, r.sendsDown n) := by
  unfold Router.downComplete Router.sendsDown
  cases due : r.down.dueNow n with
  | none => rw [Discipline.complete_of_not_due due, Discipline.released_of_not_due due]; rfl
  | some ev => rw [Discipline.complete_of_due regular due]; simp

/-- Completion and acceptance downward are the tick of the downward discipline. -/
theorem Router.downAccept_downComplete (regular : r.down.Regular) :
    (r.downComplete n).1.downAccept n = { r with down := r.down.afterTick n r.cfg.latencyDown } := by
  rw [Router.downComplete_eq regular, Router.downAccept,
    Discipline.accept_eq_accepted (Discipline.released_regular regular)]
  rfl

variable (j : Nat)

theorem Router.upComplete_of_not_due (not_due : r.up.dueNow n = none) : r.upComplete j n = .ok (r, []) := by
  rw [Router.upComplete, Discipline.complete_of_not_due not_due]

theorem Router.upComplete_of_due {g : AggRequest} (regular : r.up.Regular) (due : r.up.dueNow n = some g) :
    r.upComplete j n = Router.aggregate j { r with up := r.up.released n } g := by
  rw [Router.upComplete, Discipline.complete_of_due regular due]

end

/-! ## The whole tick (R422) -/

section
variable {r : Router} {j n : Nat} (mode : RouterGrouping)

theorem Router.tick_of_upComplete_error {f : FaultRecord} (fault : r.upComplete j n = .error f) :
    Router.tick mode j r n = .error f := by
  rw [Router.tick, fault]

theorem Router.tick_of_upComplete_ok {r1 : Router} {sends : List (RouterPort × Event)}
    (completed : r.upComplete j n = .ok (r1, sends)) (up : r1.up.Regular) (down : r1.down.Regular) :
    Router.tick mode j r n = .ok (r1.closed (Router.scanTick mode r1 n) n, sends ++ r1.sendsDown n) := by
  have accepted_down : ((Router.scanTick mode r1 n).upAccept n).down.Regular := down
  rw [Router.tick, completed]
  simp only [Router.downAccept_downComplete accepted_down]
  rw [Router.downComplete_eq accepted_down, Router.upAccept_scanTick up]
  rfl

variable (up : r.up.Regular) (down : r.down.Regular)
include up down

theorem Router.tick_of_not_due (not_due : r.up.dueNow n = none) :
    Router.tick mode j r n = .ok (r.closed (Router.scanTick mode r n) n, r.sendsDown n) :=
  Router.tick_of_upComplete_ok mode (Router.upComplete_of_not_due j not_due) up down

theorem Router.tick_of_aggregate_ok {g : AggRequest} {r1 : Router} {sends : List (RouterPort × Event)}
    (due : r.up.dueNow n = some g)
    (aggregated : Router.aggregate j { r with up := r.up.released n } g = .ok (r1, sends)) :
    Router.tick mode j r n = .ok (r.closed (Router.scanTick mode r1 n) n, sends ++ r.sendsDown n) := by
  have completed := (Router.upComplete_of_due j up due).trans aggregated
  obtain ⟨draws, rfl⟩ := Router.aggregate_ok j _ aggregated
  exact Router.tick_of_upComplete_ok mode completed (Discipline.released_regular up) down

end

/-! ## What a router's tick leaves in the system (R422, R442) -/

theorem State.sendAll_eq_foldl (s : State) (evs : List (OutPort × Event)) :
    s.sendAll evs = evs.foldl (fun t e => t.send e.1 e.2) s := by
  induction evs generalizing s with
  | nil => rfl
  | cons e evs ih => exact ih (s.send e.1 e.2)

/-- A router's events go to its own ports, in order. -/
theorem State.sendAll_routerSends (s : State) (j : Nat) (evs : List (RouterPort × Event)) :
    s.sendAll (routerSends j evs) = evs.foldl (fun t e => t.send (routerOutPort j e.1) e.2) s := by
  rw [State.sendAll_eq_foldl, routerSends, List.foldl_map]

section
variable {s : State} {j : Nat} {r : Router} (at_j : s.routers[j]? = some r)
include at_j

theorem tickRouter_error {f : FaultRecord} (fault : Router.tick s.modes.routerGrouping j r s.cycle = .error f) :
    tickRouter j s = .next (s.raise f) := by
  simp [tickRouter, at_j, fault]

theorem tickRouter_ok {r' : Router} {sends : List (RouterPort × Event)}
    (ticked : Router.tick s.modes.routerGrouping j r s.cycle = .ok (r', sends)) :
    tickRouter j s =
      .next (sends.foldl (fun t e => t.send (routerOutPort j e.1) e.2) (s.putRouter j r')) := by
  rw [← State.sendAll_routerSends]
  simp [tickRouter, at_j, ticked]

end

/-- Settles O57: the model's sum agrees with the exact one up to the first NaN and is a NaN from there on; each half of
the tick is a half of one discipline's tick. -/
theorem routerSumsUpAndBroadcastsDown : Obligations.RouterSumsUpAndBroadcastsDown := by
  refine fun r j => ⟨fun g => ⟨r.aggregate_of_not_whole j, fun words spells => ?aggregate⟩, fun ev => rfl,
    fun mode n up down => ?tick, fun s at_j => ⟨fun f => tickRouter_error at_j, fun r' sends => tickRouter_ok at_j⟩⟩
  case aggregate =>
    refine ⟨_, _, r.aggregate_of_words j spells, rfl, fun w exact_sum => ?_, fun no_sum => ?_⟩
    · rw [sumWords_of_exactSum_some exact_sum]
      exact ⟨rfl, rfl⟩
    · exact isNaN_sumWords_of_exactSum_none no_sum ..
  case tick =>
    refine ⟨Router.tick_of_not_due mode up down, fun g due => ⟨fun f fault => ?_, fun r1 sends aggregated => ?_⟩⟩
    · exact Router.tick_of_upComplete_error mode ((Router.upComplete_of_due j up due).trans fault)
    · exact Router.tick_of_aggregate_ok mode up down due aggregated

end Sys2Proof.Machine
end

section
/-! PROOFS. The reset state of 70_reset_and_hazards.md R480: what each kind of component reads as at reset, and the
system as the reset of its components. -/

namespace Sys2Proof.Machine

/-! ## A core at reset (R33 to R44) -/

section
variable (cc : CoreConfig)

@[simp] theorem Core.readReg_boot (g : RegFile) (r : Word) : (Core.boot cc).readReg g r = 0 := by
  cases g <;> simp only [Core.readReg, Core.boot, Vector.getElem?_replicate] <;> split <;> rfl

@[simp] theorem Core.byteAt_boot (a : Nat) : (Core.boot cc).byteAt a = imageByte cc.dmemImage a := rfl

/-- Data memory at reset is DMEM_IMAGE (R37). -/
theorem Core.dmemImage_getElem?_eq_byteAt_boot {a : Nat} (inside : a < cc.dmemImage.length) :
    cc.dmemImage[a]? = some ((Core.boot cc).byteAt a) := by
  simp [imageByte, inside]

@[simp] theorem Core.holds_boot (st : Stage) : (Core.boot cc).holds st = false := by
  cases st <;> rfl

end

/-! ## The components of the system at reset -/

/-- Where a configuration lists a component, the mapped list holds what its reset makes of it. -/
theorem exists_getElem?_map {α β : Type} {l : List α} {k : Nat} {a : α} {reset : α → β} {P : β → Prop}
    (at_k : l[k]? = some a) (holds : P (reset a)) : ∃ b, (l.map reset)[k]? = some b ∧ P b :=
  ⟨reset a, by rw [List.getElem?_map, at_k, Option.map_some], holds⟩

theorem State.boot_links_empty (cfg : Config) : ∀ l ∈ (State.boot cfg).links, l.queue = [] := by
  intro l mem
  obtain ⟨lc, -, rfl⟩ := List.mem_map.mp mem
  rfl

/-- Settles O43: every list of components is its configurations' resets, and each reset has R480's values. -/
theorem bootStateIsReset : Obligations.BootStateIsReset := by
  refine fun cfg => ⟨rfl, rfl, State.boot_links_empty cfg, fun k cc at_k => exists_getElem?_map at_k ?core,
    fun j cc at_j => exists_getElem?_map at_j ?cam, fun j mc at_j => exists_getElem?_map at_j ?mpe,
    fun j mc at_j => exists_getElem?_map at_j ?mmr, fun j rc at_j => exists_getElem?_map at_j ?router⟩
  case core =>
    exact ⟨rfl, rfl, rfl, Core.readReg_boot cc, fun a => Core.dmemImage_getElem?_eq_byteAt_boot cc,
      Core.holds_boot cc, rfl, rfl, rfl, rfl, rfl, rfl, rfl, rfl⟩
  case cam => exact ⟨rfl, rfl, rfl, rfl, rfl, rfl, rfl, rfl, rfl, rfl, rfl⟩
  case mpe => exact ⟨rfl, rfl, rfl, List.length_replicate, fun row => List.eq_of_mem_replicate⟩
  case mmr => exact ⟨rfl, rfl, rfl, rfl⟩
  case router => exact ⟨rfl, List.length_replicate, fun q => List.eq_of_mem_replicate, rfl, rfl⟩

end Sys2Proof.Machine
end

section
/-! PROOFS. One tick of a core (41_pipeline.md R190, R191, R204) as a function of that core alone: the stages of
whatever a register holds, the six steps in turn, and what they leave in the system. -/

namespace Sys2Proof.Machine

/-! ## The stages of what a register holds -/

/-- The four stages of a decoded record, listed or not. -/
def formStages (form : Except Unlisted Instr) (r : Record) : Stages :=
  match form with
  | .ok i => meaningOf i
  | .error .opcode => { decode := decodeUnmapped }
  | .error (.funct3 cls) => unmappedFunct3 cls r
  | .error (.subop dev) => { decode := dispatchStage dev r.rd r.imm }

theorem runForm_eq_runStages (form : Except Unlisted Instr) (r : Record) (s : State) :
    runForm form r s = runStages (formStages form r) s := by
  match form with
  | .ok i => exact exec_eq i s
  | .error .opcode | .error (.funct3 _) | .error (.subop _) => rfl

theorem decodeUnmapped_kept : StageFn.Kept decodeUnmapped := by
  intro env c o answers
  cases answers

theorem formStages_kept (form : Except Unlisted Instr) (r : Record) : (formStages form r).Kept := by
  match form with
  | .ok i => exact meaningOf_kept i
  | .error .opcode => exact ⟨decodeUnmapped_kept, executePass_kept, memoryPass_kept, writebackNothing_kept⟩
  | .error (.funct3 cls) => exact unmappedFunct3_kept cls r
  | .error (.subop dev) => exact ⟨dispatchStage_kept _ _ _, executePass_kept, memoryPass_kept, writebackNothing_kept⟩

/-! ## The steps of a tick in turn (R190, R204) -/

/-- A tick that goes on from an answer: nothing more after a fault or a taken branch. -/
def continueTurn (acts : List (State → Host.Outcome State Fault Refusal)) :
    Host.Outcome State Fault Refusal → Host.Outcome State Fault Refusal
  | .next t => if t.fault = none ∧ t.focus.tickEnded = false then inTurn acts t else .next t.unfocus
  | .fault r => .fault r
  | .refused r => .refused r

theorem inTurn_cons (act : State → Host.Outcome State Fault Refusal)
    (acts : List (State → Host.Outcome State Fault Refusal)) (s : State) :
    inTurn (act :: acts) s = continueTurn acts (act s) := by
  unfold inTurn continueTurn
  cases act s <;> rfl

theorem continueTurn_proceed (act : State → Host.Outcome State Fault Refusal)
    (acts : List (State → Host.Outcome State Fault Refusal)) (o : Host.Outcome State Fault Refusal) :
    continueTurn acts (proceed o act) = continueTurn (act :: acts) o := by
  cases o with
  | fault r | refused r => rfl
  | next t =>
    by_cases going : t.fault = none ∧ t.focus.tickEnded = false
    · obtain ⟨no_fault, not_ended⟩ := going
      simp [continueTurn, proceed, no_fault, not_ended, inTurn_cons]
    · have stopped : (t.fault.isSome || t.focus.tickEnded) = true := by
        rw [← Bool.not_eq_false]
        simpa using going
      simp [continueTurn, proceed, stopped, going]

theorem settle_eq_continueTurn (o : Host.Outcome State Fault Refusal) : settle o = continueTurn [] o := by
  cases o with
  | fault r | refused r => rfl
  | next t =>
    change _ = ite _ _ _
    split <;> rfl

theorem continueTurn_going {acts : List (State → Host.Outcome State Fault Refusal)} {t : State}
    (no_fault : t.fault = none) (not_ended : t.focus.tickEnded = false) :
    continueTurn acts (.next t) = inTurn acts t :=
  if_pos ⟨no_fault, not_ended⟩

/-- The six steps of a core's tick. -/
def coreActs (k : Nat) : List (State → Host.Outcome State Fault Refusal) :=
  [runReceive k, runStage k .writeback, runStage k .memory, runStage k .execute, runStage k .decode, runFetch k]

theorem tickCore_eq_inTurn (k : Nat) (s : State) : tickCore k s = inTurn (coreActs k) s.unfocus := by
  simp only [tickCore, settle_eq_continueTurn, continueTurn_proceed, coreActs, inTurn_cons]

section
variable {s : State} {k : Nat} {c : Core} {st : Stage} (at_k : s.cores[k]? = some c)
include at_k

theorem runStage_of_canRun (can_run : c.canRun st = true) :
    runStage k st s = runForm (c.stageForm s.modes st) (c.stageRecord st) (s.focusOn k st) := by
  simp [runStage, at_k, can_run]

theorem runStage_of_not_canRun (cannot_run : c.canRun st = false) : runStage k st s = .next s := by
  simp [runStage, at_k, cannot_run]

end

/-- Settles O35: a stage runs what its register decodes to, and the tick is the six steps in turn. -/
theorem stagesRunTheirInstruction : Obligations.StagesRunTheirInstruction := by
  refine ⟨fun s k c st at_k => ⟨fun i can_run decodes => ?_, runStage_of_not_canRun at_k⟩,
    fun s k => tickCore_eq_inTurn k s⟩
  rw [runStage_of_canRun at_k can_run, decodes]
  rfl

/-! ## The same steps on the core alone -/

/-- A step of a core's tick, on the core alone. -/
abbrev CoreStep := Core → Except FaultRecord StageOut

/-- A step that neither sends nor ends the tick. -/
def CoreStep.ofUpdate (update : Core → Except FaultRecord Core) : CoreStep := fun c =>
  (update c).map fun c' => { core := c' }

/-- A stage of the core, when it can run (R191). -/
def Core.stageStep (env : StageEnv) (st : Stage) : CoreStep := fun c =>
  if c.canRun st then (formStages (c.stageForm env.modes st) (c.stageRecord st)).fn st env c else .ok { core := c }

/-- Steps one after another, up to a fault or the end of the tick. -/
def CoreStep.inTurn : List CoreStep → CoreStep
  | [], c => .ok { core := c }
  | step :: steps, c =>
    match step c with
    | .error f => .error f
    | .ok o =>
      if o.tickEnded then .ok o
      else (inTurn steps o.core).map fun o' => { o' with sends := o.sends ++ o'.sends }

/-- The six steps of a tick in cycle n. -/
def coreSteps (env : StageEnv) (n : Nat) : List CoreStep :=
  [.ofUpdate (·.rxStep n), Core.stageStep env .writeback, Core.stageStep env .memory, Core.stageStep env .execute,
    Core.stageStep env .decode, .ofUpdate (·.fetch env.modes)]

/-- The tick of a core on its own. -/
def Core.tick (c : Core) (env : StageEnv) (n : Nat) : Except FaultRecord StageOut :=
  CoreStep.inTurn (coreSteps env n) c

/-! ## A step of the core is the step of the system -/

/-- In a system with the modes and the cycle given, an act of core k does what a step of that core says: it sends what
the step sends and changes the core and the focus alone, or records the step's fault. -/
def Performs (k : Nat) (m : Modes) (n : Nat) (act : State → Host.Outcome State Fault Refusal) (step : CoreStep) :
    Prop :=
  ∀ (s : State) (c : Core), s.cores[k]? = some c → s.modes = m → s.cycle = n →
    match step c with
    | .ok o => ∃ focus : Focus, focus.tickEnded = (s.focus.tickEnded || o.tickEnded) ∧
        act s = .next { (s.putCore k o.core).sendAll (coreSends k o.sends) with focus := focus }
    | .error f => ∃ t, act s = .next t ∧ t.fault = some f

theorem State.putCore_self {s : State} {k : Nat} {c : Core} (at_k : s.cores[k]? = some c) : s.putCore k c = s := by
  have same : s.cores.set k c = s.cores := by
    apply List.ext_getElem?
    intro j
    rw [List.getElem?_set']
    split
    case isTrue here => subst here; simp [at_k]
    case isFalse => rfl
  rw [State.putCore, same]

section
variable {k n : Nat} {m : Modes}

theorem performs_ofUpdate {act : State → Host.Outcome State Fault Refusal} {update : Core → Except FaultRecord Core}
    (acts : ∀ (s : State) (c : Core), s.cores[k]? = some c → s.modes = m → s.cycle = n →
      act s = .next (s.putResult k (update c))) : Performs k m n act (.ofUpdate update) := by
  intro s c at_k modes cycle
  rw [acts s c at_k modes cycle, CoreStep.ofUpdate]
  cases update c with
  | ok c' => exact ⟨s.focus, by simp, rfl⟩
  | error f => exact ⟨_, rfl, rfl⟩

theorem performs_receive : Performs k m n (runReceive k) (.ofUpdate (·.rxStep n)) :=
  performs_ofUpdate fun s c at_k _ cycle => by simp [runReceive, at_k, cycle]

theorem performs_fetch : Performs k m n (runFetch k) (.ofUpdate (·.fetch m)) :=
  performs_ofUpdate fun s c at_k modes _ => by simp [runFetch, at_k, modes]

theorem performs_stage (st : Stage) : Performs k m n (runStage k st) (Core.stageStep ⟨m, k⟩ st) := by
  intro s c at_k modes cycle
  subst modes
  unfold Core.stageStep
  cases can_run : c.canRun st with
  | false =>
    refine ⟨s.focus, by simp, ?_⟩
    rw [runStage_of_not_canRun at_k can_run, State.putCore_self at_k]
    rfl
  | true =>
    rw [runStage_of_canRun at_k can_run, runForm_eq_runStages, if_pos rfl]
    split
    case h_1 o goes =>
      refine ⟨((s.focusOn k st).commit o).focus, by simp, ?_⟩
      rw [runStages_ok (s := s.focusOn k st) at_k goes]
      simp [State.commit_eq, State.sendAll_eq, State.focusOn, State.putCore]
    case h_2 f faults => exact ⟨_, runStages_error (s := s.focusOn k st) at_k faults, rfl⟩

theorem State.sendAll_unfocus (s : State) (evs : List (OutPort × Event)) :
    (s.sendAll evs).unfocus = s.unfocus.sendAll evs := by
  simp [State.sendAll_eq, State.unfocus]

/-- Acts that perform their steps perform them in turn, and leave the focus at rest. -/
theorem inTurn_of_performs {acts : List (State → Host.Outcome State Fault Refusal)} {steps : List CoreStep}
    (performs : List.Forall₂ (Performs k m n) acts steps) {s : State} {c : Core} (at_k : s.cores[k]? = some c)
    (modes : s.modes = m) (cycle : s.cycle = n) (no_fault : s.fault = none)
    (not_ended : s.focus.tickEnded = false) :
    match CoreStep.inTurn steps c with
    | .ok o => inTurn acts s = .next ((s.unfocus.putCore k o.core).sendAll (coreSends k o.sends))
    | .error f => ∃ t, inTurn acts s = .next t ∧ t.fault = some f := by
  induction performs generalizing s c with
  | nil =>
    have kept : s.unfocus.putCore k c = s.unfocus := State.putCore_self (s := s.unfocus) at_k
    exact congrArg _ kept.symm
  | @cons act step acts steps performs _ ih =>
    have acted := performs s c at_k modes cycle
    rw [CoreStep.inTurn, inTurn_cons]
    cases stepped : step c with
    | error f =>
      rw [stepped] at acted
      obtain ⟨t, answered, faulted⟩ := acted
      exact ⟨t.unfocus, by simp [answered, continueTurn, faulted], faulted⟩
    | ok o =>
      rw [stepped] at acted
      obtain ⟨focus, ended_eq, answered⟩ := acted
      rw [not_ended, Bool.false_or] at ended_eq
      rw [answered]
      cases ended : o.tickEnded with
      | true =>
        simp [continueTurn, ended_eq, ended, no_fault, State.sendAll_eq, State.unfocus, State.putCore]
      | false =>
        have rest := ih (s := { (s.putCore k o.core).sendAll (coreSends k o.sends) with focus := focus })
          (c := o.core) (by simpa using getElem?_set_core at_k) (by simpa using modes) (by simpa using cycle)
          (by simpa using no_fault) (ended_eq.trans ended)
        rw [continueTurn_going (by simpa using no_fault) (ended_eq.trans ended)]
        cases later : CoreStep.inTurn steps o.core with
        | error f =>
          rw [later] at rest
          simpa only [ended, Bool.false_eq_true, if_false, later, Except.map] using rest
        | ok o' =>
          rw [later] at rest
          simp only [ended, Bool.false_eq_true, if_false, later, Except.map]
          refine rest.trans (congrArg _ ?_)
          simp [State.sendAll_eq, State.unfocus, State.putCore, coreSends]

/-- The tick of core k in the system is the tick of the core on its own. -/
theorem tickCore_of_tick {s : State} {c : Core} (at_k : s.cores[k]? = some c) (no_fault : s.fault = none) :
    match c.tick ⟨s.modes, k⟩ s.cycle with
    | .ok o => tickCore k s = .next ((s.unfocus.putCore k o.core).sendAll (coreSends k o.sends))
    | .error f => ∃ t, tickCore k s = .next t ∧ t.fault = some f := by
  rw [tickCore_eq_inTurn]
  exact inTurn_of_performs (s := s.unfocus) (.cons performs_receive <| .cons (performs_stage _) <|
    .cons (performs_stage _) <| .cons (performs_stage _) <| .cons (performs_stage _) <| .cons performs_fetch .nil)
    at_k rfl rfl no_fault rfl

end

end Sys2Proof.Machine
end

section
/-! PROOFS. The components of a system, seen alike (40_delay_queue.md R168, R169): each has a part of the state,
ticks on that part alone and sends from its own ports, so the order of the ticks does not matter. -/

namespace Sys2Proof.Machine

/-! ## A component and its part of the state -/

/-- A component of the system, by kind and number. -/
inductive Component where
  | core (k : Nat) | cam (j : Nat) | mpe (j : Nat) | mmr (j : Nat) | router (j : Nat)

/-- What the state holds for a component of a kind. -/
abbrev Component.Part : Component → Type
  | core _ => Core
  | cam _ => Cam
  | mpe _ => Mpe
  | mmr _ => Mmr
  | router _ => Router

/-- What the state holds for a component, if the system has it. -/
def Component.part? : (x : Component) → State → Option x.Part
  | core k, s => s.cores[k]?
  | cam j, s => s.cams[j]?
  | mpe j, s => s.mpes[j]?
  | mmr j, s => s.mmrs[j]?
  | router j, s => s.routers[j]?

/-- The state with a component's part replaced. -/
def Component.put : (x : Component) → x.Part → State → State
  | core k, c, s => s.putCore k c
  | cam j, c, s => s.putCam j c
  | mpe j, m, s => s.putMpe j m
  | mmr j, m, s => s.putMmr j m
  | router j, r, s => s.putRouter j r

/-- The model's tick of a component. -/
def Component.tick : Component → State → Host.Outcome State Fault Refusal
  | core k => tickCore k
  | cam j => tickCam j
  | mpe j => tickMpe j
  | mmr j => tickMmr j
  | router j => tickRouter j

/-- The component an output port belongs to. -/
def Component.ofOut : OutPort → Component
  | .core k _ => .core k
  | .camOut j => .cam j
  | .mpeResp j => .mpe j
  | .mpeOut j => .mpe j
  | .mmrOut j => .mmr j
  | .childDown r _ => .router r
  | .parentUp r => .router r

/-- A core's tick leaves the model's focus at rest; no other tick looks at it. -/
def Component.rested : Component → State → State
  | core _, s => s.unfocus
  | cam _, s => s
  | mpe _, s => s
  | mmr _, s => s
  | router _, s => s

/-- The tick of a component's part on its own: the part after it and the events it sends. -/
def Component.advance : (x : Component) → Modes → Nat → x.Part → Except FaultRecord (x.Part × List (OutPort × Event))
  | core k, m, n, c => (Core.tick c ⟨m, k⟩ n).map fun o => (o.core, coreSends k o.sends)
  | cam j, _, n, c => (Cam.tick c n).map fun p => (p.1, p.2.toList.map fun ev => (.camOut j, ev))
  | mpe j, _, n, c => (Mpe.tick c n).map fun p => (p.1, p.2.toList.map fun e => (mpeOutPort j e.1, e.2))
  | mmr j, _, n, c => (Mmr.tick c n).map fun p => (p.1, p.2.toList.map fun ev => (.mmrOut j, ev))
  | router j, m, n, r => (Router.tick m.routerGrouping j r n).map fun p => (p.1, routerSends j p.2)

/-- The state with a component advanced: its part, its events, the focus. -/
def Component.commit (x : Component) (p : x.Part) (sends : List (OutPort × Event)) (s : State) : State :=
  (x.put p (x.rested s)).sendAll sends

/-- What a component's tick does to a system without a fault: the state after it, or its fault. -/
def Component.act (x : Component) (s : State) : Except FaultRecord State :=
  match x.part? s with
  | none => .ok (x.rested s)
  | some p =>
    match x.advance s.modes s.cycle p with
    | .ok (p', sends) => .ok (x.commit p' sends s)
    | .error f => .error f

/-- The components of a system, in the order of the model's ticks. -/
def State.components (s : State) : List Component :=
  (List.range s.cores.length).map .core ++ (List.range s.cams.length).map .cam ++
    (List.range s.mpes.length).map .mpe ++ (List.range s.mmrs.length).map .mmr ++
    (List.range s.routers.length).map .router

/-- A mapped answer comes from an answer. -/
theorem exists_of_map_eq_ok {α β : Type} {r : Except FaultRecord α} {g : α → β} {b : β}
    (mapped : r.map g = .ok b) : ∃ a, r = .ok a ∧ g a = b := by
  cases r with
  | error f => cases mapped
  | ok a => exact ⟨a, rfl, Except.ok.inj mapped⟩

/-- A list with one of its elements replaced holds the new one there. -/
theorem getElem?_set_of_some {α : Type} {l : List α} {i : Nat} {a : α} (at_i : l[i]? = some a) (b : α) :
    (l.set i b)[i]? = some b := by
  obtain ⟨inside, -⟩ := List.getElem?_eq_some_iff.mp at_i
  exact List.getElem?_set_self inside

namespace Component
variable (x : Component)

@[simp] theorem put_modes (p : x.Part) (s : State) : (x.put p s).modes = s.modes := by cases x <;> rfl
@[simp] theorem put_cycle (p : x.Part) (s : State) : (x.put p s).cycle = s.cycle := by cases x <;> rfl
@[simp] theorem put_fault (p : x.Part) (s : State) : (x.put p s).fault = s.fault := by cases x <;> rfl
@[simp] theorem put_links (p : x.Part) (s : State) : (x.put p s).links = s.links := by cases x <;> rfl
@[simp] theorem rested_modes (s : State) : (x.rested s).modes = s.modes := by cases x <;> rfl
@[simp] theorem rested_cycle (s : State) : (x.rested s).cycle = s.cycle := by cases x <;> rfl
@[simp] theorem rested_fault (s : State) : (x.rested s).fault = s.fault := by cases x <;> rfl
@[simp] theorem rested_links (s : State) : (x.rested s).links = s.links := by cases x <;> rfl

@[simp] theorem part?_rested (y : Component) (s : State) : y.part? (x.rested s) = y.part? s := by
  cases x <;> cases y <;> rfl

@[simp] theorem part?_sendAll (s : State) (evs : List (OutPort × Event)) : x.part? (s.sendAll evs) = x.part? s := by
  cases x <;> simp [part?]

theorem part?_put_self {p : x.Part} {s : State} (present : x.part? s = some p) (p' : x.Part) :
    x.part? (x.put p' s) = some p' := by
  cases x <;> exact getElem?_set_of_some present p'

variable {x} in
theorem part?_put_of_ne {y : Component} (ne : y ≠ x) (p : x.Part) (s : State) : y.part? (x.put p s) = y.part? s := by
  cases x <;> cases y
  case core.core | cam.cam | mpe.mpe | mmr.mmr | router.router =>
    exact List.getElem?_set_ne fun same => ne (congrArg _ same.symm)
  all_goals rfl

theorem commit_modes (p : x.Part) (sends : List (OutPort × Event)) (s : State) :
    (x.commit p sends s).modes = s.modes := by simp [commit]
theorem commit_cycle (p : x.Part) (sends : List (OutPort × Event)) (s : State) :
    (x.commit p sends s).cycle = s.cycle := by simp [commit]
theorem commit_fault (p : x.Part) (sends : List (OutPort × Event)) (s : State) :
    (x.commit p sends s).fault = s.fault := by simp [commit]

variable {x} in
theorem part?_commit_of_ne {y : Component} (ne : y ≠ x) (p : x.Part) (sends : List (OutPort × Event)) (s : State) :
    y.part? (x.commit p sends s) = y.part? s := by
  simp [commit, part?_put_of_ne ne]

theorem part?_commit_self {p : x.Part} {s : State} (present : x.part? s = some p) (p' : x.Part)
    (sends : List (OutPort × Event)) : x.part? (x.commit p' sends s) = some p' := by
  rw [commit, part?_sendAll]
  exact x.part?_put_self (by rwa [part?_rested]) p'

/-! ## The model's tick is that of the part -/

theorem sendOpt_eq_sendAll (s : State) (port : OutPort) (out : Option Event) :
    s.sendOpt port out = s.sendAll (out.toList.map fun ev => (port, ev)) := by
  cases out <;> rfl

theorem sendMpe_eq_sendAll (s : State) (j : Nat) (out : Option (MpePort × Event)) :
    s.sendMpe j out = s.sendAll (out.toList.map fun e => (mpeOutPort j e.1, e.2)) := by
  cases out <;> rfl

theorem tickCore_of_absent {s : State} {k : Nat} (no_fault : s.fault = none) (absent : s.cores[k]? = none) :
    tickCore k s = .next s.unfocus := by
  simp [tickCore_eq_inTurn, coreActs, inTurn, runReceive, runStage, runFetch, absent, no_fault, State.unfocus,
    Focus.rest]

theorem tick_of_absent {s : State} (no_fault : s.fault = none) (absent : x.part? s = none) :
    x.tick s = .next (x.rested s) := by
  cases x with
  | core k => exact tickCore_of_absent no_fault absent
  | cam j => rw [part?] at absent; simp only [tick, tickCam, absent, rested]
  | mpe j => rw [part?] at absent; simp only [tick, tickMpe, absent, rested]
  | mmr j => rw [part?] at absent; simp only [tick, tickMmr, absent, rested]
  | router j => rw [part?] at absent; simp only [tick, tickRouter, absent, rested]

/-- What a tick answers on a component of the system: what its part's own tick says. -/
theorem tick_of_present {s : State} {p : x.Part} (no_fault : s.fault = none) (present : x.part? s = some p) :
    match x.advance s.modes s.cycle p with
    | .ok (p', sends) => x.tick s = .next (x.commit p' sends s)
    | .error f => ∃ t, x.tick s = .next t ∧ t.fault = some f := by
  cases x with
  | core k =>
    have ticked := tickCore_of_tick present no_fault
    simp only [advance]
    cases own : Core.tick p ⟨s.modes, k⟩ s.cycle <;> (rw [own] at ticked; exact ticked)
  | cam j =>
    simp only [advance]
    cases own : Cam.tick p s.cycle with
    | error f => exact ⟨_, tickCam_error present own, rfl⟩
    | ok q => exact (tickCam_ok present own).trans (congrArg _ (sendOpt_eq_sendAll ..))
  | mpe j =>
    simp only [advance]
    cases own : Mpe.tick p s.cycle with
    | error f => exact ⟨_, tickMpe_error present own, rfl⟩
    | ok q => exact (tickMpe_ok present own).trans (congrArg _ (sendMpe_eq_sendAll ..))
  | mmr j =>
    simp only [advance]
    cases own : Mmr.tick p s.cycle with
    | error f => exact ⟨_, tickMmr_error present own, rfl⟩
    | ok q => exact (tickMmr_ok present own).trans (congrArg _ (sendOpt_eq_sendAll ..))
  | router j =>
    simp only [advance]
    cases own : Router.tick s.modes.routerGrouping j p s.cycle with
    | error f => exact ⟨_, tickRouter_error present own, rfl⟩
    | ok q => exact (tickRouter_ok present own).trans (congrArg _ (State.sendAll_routerSends ..).symm)

/-- What a tick answers when its act goes through, and when it faults. -/
theorem tick_of_act {s : State} (no_fault : s.fault = none) :
    match x.act s with
    | .ok t => x.tick s = .next t
    | .error f => ∃ t, x.tick s = .next t ∧ t.fault = some f := by
  unfold act
  cases present : x.part? s with
  | none => exact x.tick_of_absent no_fault present
  | some p =>
    have ticked := x.tick_of_present no_fault present
    dsimp only
    split at ticked
    case h_1 p' sends own => simpa only [own] using ticked
    case h_2 f own => simpa only [own] using ticked

theorem act_of_absent {s : State} (absent : x.part? s = none) : x.act s = .ok (x.rested s) := by
  rw [act, absent]

section
variable {x} {s : State} {p : x.Part} (present : x.part? s = some p)
include present

theorem act_of_advance_ok {p' : x.Part} {sends : List (OutPort × Event)}
    (own : x.advance s.modes s.cycle p = .ok (p', sends)) : x.act s = .ok (x.commit p' sends s) := by
  simp only [act, present, own]

theorem act_of_advance_error {f : FaultRecord} (own : x.advance s.modes s.cycle p = .error f) :
    x.act s = .error f := by
  simp only [act, present, own]

end

/-- All that an act can do: leave an absent component, or commit what its part's own tick answers. -/
theorem act_ok {s t : State} (acted : x.act s = .ok t) :
    (x.part? s = none ∧ t = x.rested s) ∨
      ∃ p p' sends, x.part? s = some p ∧ x.advance s.modes s.cycle p = .ok (p', sends) ∧
        t = x.commit p' sends s := by
  cases present : x.part? s with
  | none =>
    rw [x.act_of_absent present] at acted
    cases acted
    exact .inl ⟨rfl, rfl⟩
  | some p =>
    cases own : x.advance s.modes s.cycle p with
    | error f => rw [act_of_advance_error present own] at acted; cases acted
    | ok q =>
      rw [act_of_advance_ok present own] at acted
      cases acted
      exact .inr ⟨p, q.1, q.2, rfl, own, rfl⟩

section
variable {x} {s t : State} (acted : x.act s = .ok t)
include acted

theorem act_modes : t.modes = s.modes := by
  obtain ⟨-, rfl⟩ | ⟨p, p', sends, -, -, rfl⟩ := x.act_ok acted <;> simp [commit]
theorem act_cycle : t.cycle = s.cycle := by
  obtain ⟨-, rfl⟩ | ⟨p, p', sends, -, -, rfl⟩ := x.act_ok acted <;> simp [commit]
theorem act_fault : t.fault = s.fault := by
  obtain ⟨-, rfl⟩ | ⟨p, p', sends, -, -, rfl⟩ := x.act_ok acted <;> simp [commit]

/-- An act leaves every other component as it is. -/
theorem act_part?_of_ne {y : Component} (ne : y ≠ x) : y.part? t = y.part? s := by
  obtain ⟨-, rfl⟩ | ⟨p, p', sends, -, -, rfl⟩ := x.act_ok acted
  · exact x.part?_rested y s
  · exact part?_commit_of_ne ne p' sends s

end

/-! ## Two acts in either order (R169) -/

@[simp] theorem ofOut_core (k : Nat) (port : CorePort) : ofOut (.core k port) = core k := rfl
@[simp] theorem ofOut_camOut (j : Nat) : ofOut (.camOut j) = cam j := rfl
@[simp] theorem ofOut_mmrOut (j : Nat) : ofOut (.mmrOut j) = mmr j := rfl

@[simp] theorem ofOut_mpeOutPort (j : Nat) (port : MpePort) : ofOut (mpeOutPort j port) = mpe j := by
  cases port <;> rfl

@[simp] theorem ofOut_routerOutPort (j : Nat) (port : RouterPort) : ofOut (routerOutPort j port) = router j := by
  cases port <;> rfl

/-- A component sends from its own ports. -/
theorem advance_sends {m : Modes} {n : Nat} {p p' : x.Part} {sends : List (OutPort × Event)}
    (own : x.advance m n p = .ok (p', sends)) : ∀ e ∈ sends, ofOut e.1 = x := by
  cases x <;> (
    obtain ⟨q, -, same⟩ := exists_of_map_eq_ok own
    cases same
    intro e sent
    obtain ⟨e', -, rfl⟩ := List.mem_map.mp sent
    simp)

/-- Sends from different ports meet different links. -/
theorem sendOn_comm (n : Nat) {a b : OutPort} (ne : a ≠ b) (ev ev' : Event) (ls : List Link) :
    sendOn n a ev (sendOn n b ev' ls) = sendOn n b ev' (sendOn n a ev ls) := by
  induction ls with
  | nil => rfl
  | cons l ls ih =>
    by_cases at_a : l.cfg.src = a
    · have not_b : l.cfg.src ≠ b := at_a ▸ ne
      simp [sendOn, at_a, ne]
    · by_cases at_b : l.cfg.src = b
      · simp [sendOn, at_b, ne.symm]
      · simp [sendOn, at_a, at_b, ih]

theorem send_comm (s : State) {a b : OutPort} (ne : a ≠ b) (ev ev' : Event) :
    (s.send a ev).send b ev' = (s.send b ev').send a ev := by
  simp only [State.send, sendOn_comm s.cycle ne]

theorem send_sendAll_comm (s : State) {a : OutPort} {evs : List (OutPort × Event)} (apart : ∀ e ∈ evs, a ≠ e.1)
    (ev : Event) : (s.send a ev).sendAll evs = (s.sendAll evs).send a ev := by
  induction evs generalizing s with
  | nil => rfl
  | cons e evs ih =>
    obtain ⟨ne, later⟩ := List.forall_mem_cons.mp apart
    rw [State.sendAll, send_comm s ne, ih _ later, State.sendAll]

theorem sendAll_comm {evs evs' : List (OutPort × Event)} (apart : ∀ e ∈ evs, ∀ e' ∈ evs', e.1 ≠ e'.1) (s : State) :
    (s.sendAll evs).sendAll evs' = (s.sendAll evs').sendAll evs := by
  induction evs generalizing s with
  | nil => rfl
  | cons e evs ih =>
    obtain ⟨apart_e, later⟩ := List.forall_mem_cons.mp apart
    rw [State.sendAll, ih later, send_sendAll_comm s apart_e, State.sendAll]

theorem rested_sendAll (s : State) (evs : List (OutPort × Event)) :
    x.rested (s.sendAll evs) = (x.rested s).sendAll evs := by
  cases x with
  | core k => exact State.sendAll_unfocus s evs
  | cam j | mpe j | mmr j | router j => rfl

theorem put_sendAll (p : x.Part) (s : State) (evs : List (OutPort × Event)) :
    x.put p (s.sendAll evs) = (x.put p s).sendAll evs := by
  cases x <;> simp [put, State.sendAll_eq, State.putCore, State.putCam, State.putMpe, State.putMmr, State.putRouter]

theorem rested_put (y : Component) (p : x.Part) (s : State) : y.rested (x.put p s) = x.put p (y.rested s) := by
  cases x <;> cases y <;> rfl

theorem rested_rested (y : Component) (s : State) : y.rested (x.rested s) = x.rested (y.rested s) := by
  cases x <;> cases y <;> rfl

variable {x} in
theorem put_put_comm {y : Component} (ne : x ≠ y) (p : x.Part) (q : y.Part) (s : State) :
    y.put q (x.put p s) = x.put p (y.put q s) := by
  cases x <;> cases y
  case core.core =>
    exact congrArg (fun l => { s with cores := l }) (List.set_comm _ _ fun same => ne (congrArg _ same))
  case cam.cam =>
    exact congrArg (fun l => { s with cams := l }) (List.set_comm _ _ fun same => ne (congrArg _ same))
  case mpe.mpe =>
    exact congrArg (fun l => { s with mpes := l }) (List.set_comm _ _ fun same => ne (congrArg _ same))
  case mmr.mmr =>
    exact congrArg (fun l => { s with mmrs := l }) (List.set_comm _ _ fun same => ne (congrArg _ same))
  case router.router =>
    exact congrArg (fun l => { s with routers := l }) (List.set_comm _ _ fun same => ne (congrArg _ same))
  all_goals rfl

theorem rested_commit (y : Component) (p : x.Part) (sends : List (OutPort × Event)) (s : State) :
    y.rested (x.commit p sends s) = x.commit p sends (y.rested s) := by
  rw [commit, commit, rested_sendAll, rested_put, rested_rested]

/-- Commits of two components commute. -/
theorem commit_comm {x y : Component} (ne : x ≠ y) (p : x.Part) (q : y.Part) {sends sends' : List (OutPort × Event)}
    (own : ∀ e ∈ sends, ofOut e.1 = x) (own' : ∀ e ∈ sends', ofOut e.1 = y) (s : State) :
    y.commit q sends' (x.commit p sends s) = x.commit p sends (y.commit q sends' s) := by
  have apart : ∀ e ∈ sends, ∀ e' ∈ sends', e.1 ≠ e'.1 := fun e sent e' sent' same =>
    ne ((own e sent).symm.trans (same ▸ own' e' sent'))
  calc y.commit q sends' (x.commit p sends s)
      = ((y.put q (x.put p (y.rested (x.rested s)))).sendAll sends).sendAll sends' := by
        rw [commit, rested_commit, commit, put_sendAll, rested_rested]
    _ = ((x.put p (y.put q (x.rested (y.rested s)))).sendAll sends').sendAll sends := by
        rw [put_put_comm ne, sendAll_comm apart, rested_rested]
    _ = x.commit p sends (y.commit q sends' s) := by
        rw [commit, rested_commit, commit, put_sendAll, rested_rested]

theorem act_rested (y : Component) (s : State) : x.act (y.rested s) = (x.act s).map y.rested := by
  cases present : x.part? s with
  | none =>
    rw [x.act_of_absent present, x.act_of_absent (by rwa [part?_rested]), rested_rested, Except.map]
  | some p =>
    have rested_present : x.part? (y.rested s) = some p := by rwa [part?_rested]
    cases own : x.advance s.modes s.cycle p with
    | error f =>
      rw [act_of_advance_error present own, act_of_advance_error rested_present (by simpa using own), Except.map]
    | ok q =>
      rw [act_of_advance_ok present own, act_of_advance_ok rested_present (by simpa using own), Except.map,
        rested_commit]

/-- A component does after another's commit what it does before it. -/
theorem act_commit {x y : Component} (ne : x ≠ y) (q : y.Part) {sends : List (OutPort × Event)}
    (own : ∀ e ∈ sends, ofOut e.1 = y) (s : State) :
    x.act (y.commit q sends s) = (x.act s).map (y.commit q sends) := by
  cases present : x.part? s with
  | none =>
    rw [x.act_of_absent present, x.act_of_absent (by rwa [part?_commit_of_ne ne]), rested_commit, Except.map]
  | some p =>
    have still_present : x.part? (y.commit q sends s) = some p := by rwa [part?_commit_of_ne ne]
    cases advanced : x.advance s.modes s.cycle p with
    | error f =>
      rw [act_of_advance_error present advanced,
        act_of_advance_error still_present (by rwa [commit_modes, commit_cycle]), Except.map]
    | ok r =>
      rw [act_of_advance_ok present advanced,
        act_of_advance_ok still_present (by rwa [commit_modes, commit_cycle]), Except.map,
        commit_comm ne.symm q r.1 own (x.advance_sends advanced)]

/-- An act that goes through is an update that any state with the same part, modes and cycle meets, and that no act of
another component tells from no update. -/
theorem exists_update_of_act {s t : State} (acted : x.act s = .ok t) :
    ∃ update : State → State, t = update s ∧
      (∀ u, x.part? u = x.part? s → u.modes = s.modes → u.cycle = s.cycle → x.act u = .ok (update u)) ∧
        ∀ y, y ≠ x → ∀ u, y.act (update u) = (y.act u).map update := by
  obtain ⟨absent, rfl⟩ | ⟨p, p', sends, present, own, rfl⟩ := x.act_ok acted
  · exact ⟨x.rested, rfl, fun u part _ _ => x.act_of_absent (part.trans absent), fun y _ => y.act_rested x⟩
  · refine ⟨x.commit p' sends, rfl, fun u part modes cycle => ?_, fun y ne => act_commit ne p' (x.advance_sends own)⟩
    exact act_of_advance_ok (part.trans present) (by rwa [modes, cycle])

/-- Two acts in either order: both go through and leave one state, or each faults as it does alone. -/
theorem act_after_act {x y : Component} (ne : x ≠ y) {s t : State} (acted : x.act s = .ok t) :
    match y.act s with
    | .ok u => ∃ v, y.act t = .ok v ∧ x.act u = .ok v
    | .error f => y.act t = .error f := by
  obtain ⟨update, rfl, again, apart⟩ := x.exists_update_of_act acted
  rw [apart y ne.symm s]
  cases acted' : y.act s with
  | error f => rfl
  | ok u =>
    exact ⟨update u, rfl, again u (act_part?_of_ne acted' ne) (act_modes acted') (act_cycle acted')⟩

/-! ## All ticks, one after another (R168) -/

/-- The acts of components one after another, a component that faults left out: the faults, and the state. -/
def actAll : List Component → State → List FaultRecord × State
  | [], s => ([], s)
  | x :: xs, s =>
    match x.act s with
    | .ok t => actAll xs t
    | .error f => (f :: (actAll xs s).1, (actAll xs s).2)

theorem runTicks_map_tick (xs : List Component) (faults : List FaultRecord) {s : State} (no_fault : s.fault = none) :
    runTicks (xs.map tick) faults s = .next (faults ++ (actAll xs s).1, (actAll xs s).2) := by
  induction xs generalizing faults s with
  | nil => simp [runTicks, actAll]
  | cons x xs ih =>
    have ticked := x.tick_of_act no_fault
    rw [List.map_cons, runTicks, actAll]
    cases acted : x.act s with
    | ok t =>
      rw [acted] at ticked
      have no_fault' : t.fault = none := (act_fault acted).trans no_fault
      simp only [ticked, no_fault', ih _ no_fault']
    | error f =>
      rw [acted] at ticked
      obtain ⟨t, answered, faulted⟩ := ticked
      simp only [answered, faulted, ih _ no_fault, List.append_assoc, List.singleton_append]

theorem ticks_eq_map_tick (s : State) : s.ticks = s.components.map tick := by
  simp only [State.ticks, State.components, List.map_append, List.map_map]
  rfl

/-- The order of the acts changes only the order of the faults. -/
theorem actAll_perm {xs ys : List Component} (perm : xs.Perm ys) (s : State) :
    (actAll xs s).1.Perm (actAll ys s).1 ∧ (actAll xs s).2 = (actAll ys s).2 := by
  induction perm generalizing s with
  | nil => exact ⟨.nil, rfl⟩
  | cons x _ ih =>
    simp only [actAll]
    cases x.act s with
    | ok t => exact ih t
    | error f => exact ⟨(ih s).1.cons f, (ih s).2⟩
  | swap x y xs =>
    by_cases same : x = y
    · subst same; exact ⟨.refl _, rfl⟩
    · cases acted_x : x.act s with
      | error f =>
        cases acted_y : y.act s with
        | error g =>
          simp only [actAll, acted_x, acted_y, and_true]
          exact .swap ..
        | ok u =>
          have x_after := act_after_act (Ne.symm same) acted_y
          simp only [acted_x] at x_after
          simp [actAll, acted_x, acted_y, x_after]
      | ok t =>
        have y_after := act_after_act same acted_x
        cases acted_y : y.act s with
        | error g =>
          simp only [acted_y] at y_after
          simp [actAll, acted_x, acted_y, y_after]
        | ok u =>
          simp only [acted_y] at y_after
          obtain ⟨v, y_after, x_after⟩ := y_after
          simp [actAll, acted_x, acted_y, y_after, x_after]
  | trans _ _ ih₁ ih₂ => exact ⟨(ih₁ s).1.trans (ih₂ s).1, (ih₁ s).2.trans (ih₂ s).2⟩

end Component

/-- Settles O36: the ticks are the components' acts, and acts of different components commute. -/
theorem tickOrderDoesNotMatter : Obligations.TickOrderDoesNotMatter := by
  intro s order no_fault perm
  rw [Component.ticks_eq_map_tick] at perm ⊢
  obtain ⟨xs, xs_perm, rfl⟩ : ∃ xs : List Component, s.components.Perm xs ∧ order = xs.map Component.tick := by
    obtain ⟨xs, rfl, xs_perm⟩ := (congrFun₂ (List.eq_map_comp_perm Component.tick) order s.components).mpr perm
    exact ⟨xs, xs_perm.symm, rfl⟩
  have same := Component.actAll_perm xs_perm s
  exact ⟨_, _, _, Component.runTicks_map_tick _ [] no_fault,
    same.2 ▸ Component.runTicks_map_tick xs [] no_fault, by simpa using same.1⟩

end Sys2Proof.Machine
end

section
/-! PROOFS. The host step (40_delay_queue.md R161, R168, 60_exceptions.md R442): delivery as handing over events one by
one, and all that a step can answer. -/

namespace Sys2Proof.Machine

/-! ## Handing over events (R161, R162) -/

/-- The component an input port belongs to. -/
def Component.ofIn : InPort → Component
  | .rx k _ => .core k
  | .camReq j => .cam j
  | .camData j => .cam j
  | .mpeReq j => .mpe j
  | .mpeData j => .mpe j
  | .mmrReq j => .mmr j
  | .mmrData j => .mmr j
  | .childUp r _ => .router r
  | .parentDown r => .router r

/-- What the handler of an input port does to its component's part. -/
def Component.handle : (dst : InPort) → Event → Nat → (Component.ofIn dst).Part →
    Except FaultRecord (Component.ofIn dst).Part
  | .rx _ p, ev, n, c => .ok { (c : Core) with rx := Discipline.enqueue (Core.rx c) n (p, ev) }
  | .camReq _, ev, n, c => .ok { (c : Cam) with disc := Discipline.enqueue (Cam.disc c) n ev }
  | .camData _, ev, _, c => Cam.latchQuery c ev.payload
  | .mpeReq _, ev, n, m => .ok { (m : Mpe) with disc := Discipline.enqueue (Mpe.disc m) n ev }
  | .mpeData _, ev, _, m => .ok (Mpe.latchData m ev.payload)
  | .mmrReq _, ev, n, m => .ok { (m : Mmr) with disc := Discipline.enqueue (Mmr.disc m) n ev }
  | .mmrData _, ev, _, m => Mmr.latchHalves m ev.payload
  | .childUp _ k, ev, _, r => .ok (Router.receiveUp r k ev)
  | .parentDown _, ev, n, r => .ok { (r : Router) with down := Discipline.enqueue (Router.down r) n ev }

section
variable {dst : InPort} {ev : Event} {s : State}

theorem deliverOne_of_absent (absent : (Component.ofIn dst).part? s = none) : deliverOne dst ev s = .ok s := by
  cases dst <;> simp_all [Component.ofIn, Component.part?, deliverOne, deliverCamData, deliverMmrData]

theorem deliverOne_of_present {p : (Component.ofIn dst).Part} (present : (Component.ofIn dst).part? s = some p) :
    deliverOne dst ev s =
      (Component.handle dst ev s.cycle p).map fun p' => (Component.ofIn dst).put p' s := by
  cases dst
  case camData j =>
    have at_j : s.cams[j]? = some p := present
    simp only [deliverOne, deliverCamData, at_j, Component.handle]
    cases Cam.latchQuery p ev.payload <;> rfl
  case mmrData j =>
    have at_j : s.mmrs[j]? = some p := present
    simp only [deliverOne, deliverMmrData, at_j, Component.handle]
    cases Mmr.latchHalves p ev.payload <;> rfl
  all_goals simp_all [Component.ofIn, Component.part?, deliverOne, Component.handle, Except.map, Component.put]

end

/-- All that handing over one event can do: nothing, or put what its handler answers. -/
theorem deliverOne_ok {dst : InPort} {ev : Event} {s t : State} (delivered : deliverOne dst ev s = .ok t) :
    t = s ∨ ∃ p p', (Component.ofIn dst).part? s = some p ∧ Component.handle dst ev s.cycle p = .ok p' ∧
      t = (Component.ofIn dst).put p' s := by
  cases present : (Component.ofIn dst).part? s with
  | none =>
    rw [deliverOne_of_absent present] at delivered
    cases delivered
    exact .inl rfl
  | some p =>
    rw [deliverOne_of_present present] at delivered
    obtain ⟨p', handled, rfl⟩ := exists_of_map_eq_ok delivered
    exact .inr ⟨p, p', rfl, handled, rfl⟩

/-- What every handler keeps, handing over a list of events keeps. -/
theorem handOver_keeps {P : State → Prop}
    (keeps : ∀ dst ev s t, deliverOne dst ev s = .ok t → P s → P t) {events : List (InPort × Event)} {s t : State}
    (handed : handOver events s = .ok t) (holds : P s) : P t := by
  induction events generalizing s with
  | nil => cases handed; exact holds
  | cons e events ih =>
    rw [handOver] at handed
    cases delivered : deliverOne e.1 e.2 s with
    | error f => rw [delivered] at handed; cases handed
    | ok u => rw [delivered] at handed; exact ih handed (keeps _ _ _ _ delivered holds)

theorem deliverOne_cycle {dst : InPort} {ev : Event} {s t : State} (delivered : deliverOne dst ev s = .ok t) :
    t.cycle = s.cycle := by
  obtain rfl | ⟨p, p', -, -, rfl⟩ := deliverOne_ok delivered
  · rfl
  · exact Component.put_cycle ..

theorem handOver_cycle {events : List (InPort × Event)} {s t : State} (handed : handOver events s = .ok t) :
    t.cycle = s.cycle :=
  handOver_keeps (P := fun u => u.cycle = s.cycle)
    (fun _ _ _ _ delivered same => (deliverOne_cycle delivered).trans same) handed rfl

theorem handOver_append (events events' : List (InPort × Event)) (s : State) :
    handOver (events ++ events') s = handOver events s >>= handOver events' := by
  induction events generalizing s with
  | nil => rfl
  | cons e events ih =>
    rw [List.cons_append, handOver, handOver]
    cases deliverOne e.1 e.2 s with
    | error f => rfl
    | ok t => exact ih t

theorem deliverEvents_eq_handOver (dst : InPort) (evs : List Event) (s : State) :
    deliverEvents dst evs s = handOver (evs.map fun ev => (dst, ev)) s := by
  induction evs generalizing s with
  | nil => rfl
  | cons ev evs ih =>
    rw [deliverEvents, List.map_cons, handOver]
    cases deliverOne dst ev s with
    | error f => rfl
    | ok t => exact ih t

/-! ## Delivery of all due events (R161) -/

/-- The events due on links, with the input port each goes to. -/
def dueEvents (ls : List Link) (n : Nat) : List (InPort × Event) :=
  ls.flatMap fun l => (l.due n).map fun ev => (l.cfg.dst, ev)

/-- The system with every due event taken off its link. -/
def State.taken (s : State) : State := { s with links := s.links.map fun l => l.keep s.cycle }

/-- Links deliver what is due on them; the first fault met is the first of the delivery's. -/
theorem deliverLinks_of_handOver (ls : List Link) (s : State) :
    match handOver (dueEvents ls s.cycle) s with
    | .ok t => deliverLinks ls s = ([], t)
    | .error f => ∃ fs t, deliverLinks ls s = (f :: fs, t) := by
  induction ls generalizing s with
  | nil => rfl
  | cons l ls ih =>
    rw [dueEvents, List.flatMap_cons, handOver_append, ← deliverEvents_eq_handOver, deliverLinks]
    cases delivered : deliverEvents l.cfg.dst (l.due s.cycle) s with
    | error f => exact ⟨_, _, rfl⟩
    | ok t =>
      rw [deliverEvents_eq_handOver] at delivered
      rw [← handOver_cycle delivered]
      exact ih t

/-- The links in the order the host takes them, those with nothing due behind. -/
def State.linkOrder (s : State) : List Link :=
  hostOrder s.cycle s.dueLinks ++ s.links.filter fun l => (l.due s.cycle).isEmpty

theorem State.linkOrder_perm (s : State) : s.linkOrder.Perm s.links := by
  refine ((hostOrder_perm s.cycle s.dueLinks).append_right _).trans ?_
  have parts := List.filter_append_perm (fun l : Link => !(l.due s.cycle).isEmpty) s.links
  simpa [State.dueLinks] using parts

/-- Links with nothing due deliver nothing. -/
theorem State.dueEvents_linkOrder (s : State) :
    dueEvents s.linkOrder s.cycle = dueEvents (hostOrder s.cycle s.dueLinks) s.cycle := by
  have none_due : dueEvents (s.links.filter fun l => (l.due s.cycle).isEmpty) s.cycle = [] := by
    simp [dueEvents, List.flatMap_eq_nil_iff]
  rw [State.linkOrder, dueEvents, List.flatMap_append]
  exact (congrArg _ none_due).trans (List.append_nil _)

/-- Delivery hands over the due events link by link, or faults. -/
theorem State.deliver_of_handOver (s : State) :
    match handOver (dueEvents s.linkOrder s.cycle) s.taken with
    | .ok t => s.deliver = ([], t)
    | .error f => ∃ fs t, s.deliver = (f :: fs, t) := by
  rw [s.dueEvents_linkOrder]
  exact deliverLinks_of_handOver _ s.taken

theorem State.handOver_of_deliver {s t : State} (delivered : s.deliver = ([], t)) :
    handOver (dueEvents s.linkOrder s.cycle) s.taken = .ok t := by
  have handed := s.deliver_of_handOver
  split at handed
  case h_1 u ok => rw [delivered] at handed; cases handed; exact ok
  case h_2 f _ => obtain ⟨fs, u, faulted⟩ := handed; rw [delivered] at faulted; cases faulted

/-! ## The events due on a timely link -/

/-- In a queue in order, what is due stands in front. -/
theorem filter_due_of_pairwise {queue : List (Nat × Event)} (ordered : queue.Pairwise fun a b => a.1 ≤ b.1) (n : Nat) :
    (queue.filter fun e => decide (e.1 ≤ n)) = queue.takeWhile (fun e => decide (e.1 ≤ n)) ∧
      (queue.filter fun e => !decide (e.1 ≤ n)) = queue.dropWhile fun e => decide (e.1 ≤ n) := by
  induction queue with
  | nil => exact ⟨rfl, rfl⟩
  | cons e queue ih =>
    obtain ⟨first, ordered⟩ := List.pairwise_cons.mp ordered
    obtain ⟨taken, left⟩ := ih ordered
    by_cases due : e.1 ≤ n
    · simp [due, taken, left]
    · have none_due : ∀ a ∈ queue, n < a.1 := fun a mem => (Nat.lt_of_not_le due).trans_le (first a mem)
      simpa [due, List.filter_eq_nil_iff, List.filter_eq_self] using none_due

theorem Link.due_of_timely {l : Link} {n : Nat} (timely : l.Timely n) :
    l.due n = (l.queue.takeWhile fun e => decide (e.1 ≤ n)).map Prod.snd := by
  rw [Link.due, (filter_due_of_pairwise timely.1 n).1]

theorem Link.keep_of_timely {l : Link} {n : Nat} (timely : l.Timely n) :
    l.keep n = { l with queue := l.queue.dropWhile fun e => decide (e.1 ≤ n) } := by
  rw [Link.keep, (filter_due_of_pairwise timely.1 n).2]

/-! ## The handlers, port by port (R162, R316, R331, R361, R391, R411, R420) -/

theorem Router.receiveUp_eq_set {r : Router} {k : Nat} {q : List Event} (at_k : r.childIn[k]? = some q) (ev : Event) :
    r.receiveUp k ev = { r with childIn := r.childIn.set k (q ++ [ev]) } := by
  rw [Router.receiveUp, List.modify_eq_set_getElem?, at_k]
  rfl

section
variable {dst : InPort} {ev : Event} {s : State} {p : (Component.ofIn dst).Part}
  (present : (Component.ofIn dst).part? s = some p)
include present

theorem deliverOne_of_handle_ok {p' : (Component.ofIn dst).Part}
    (handled : Component.handle dst ev s.cycle p = .ok p') :
    deliverOne dst ev s = .ok ((Component.ofIn dst).put p' s) := by
  rw [deliverOne_of_present present, handled, Except.map]

theorem deliverOne_of_handle_error {f : FaultRecord} (fault : Component.handle dst ev s.cycle p = .error f) :
    deliverOne dst ev s = .error f := by
  rw [deliverOne_of_present present, fault, Except.map]

end

/-- Settles O47: what is due stands in front of an ordered queue, and delivery hands over link by link, each event to
its port's handler. -/
theorem deliveryHandsOverDueEvents : Obligations.DeliveryHandsOverDueEvents := by
  refine ⟨fun l n timely => ?front,
    fun s => ⟨s.linkOrder, s.linkOrder_perm, fun t handed => ?all, fun f fault => ?fault⟩,
    fun s ev => ⟨fun k p c at_k => ?core, fun j m at_j => ?cam, fun j m at_j => ?mpe, fun j m at_j => ?mmr,
      fun j r at_j => ?router⟩⟩
  case front =>
    refine ⟨Link.due_of_timely timely, Link.keep_of_timely timely, ?_⟩
    rw [Link.due_of_timely timely, Link.keep_of_timely timely, ← List.map_append, List.takeWhile_append_dropWhile]
  case all =>
    have delivered := s.deliver_of_handOver
    rw [show handOver (dueEvents s.linkOrder s.cycle) s.taken = .ok t from handed] at delivered
    exact delivered
  case fault =>
    have delivered := s.deliver_of_handOver
    rw [show handOver (dueEvents s.linkOrder s.cycle) s.taken = .error f from fault] at delivered
    exact delivered
  case core => exact deliverOne_of_handle_ok (dst := .rx k p) at_k rfl
  case cam =>
    exact ⟨deliverOne_of_handle_ok (dst := .camReq j) at_j rfl,
      fun m' => deliverOne_of_handle_ok (dst := .camData j) at_j,
      fun f => deliverOne_of_handle_error (dst := .camData j) at_j⟩
  case mpe =>
    exact ⟨deliverOne_of_handle_ok (dst := .mpeReq j) at_j rfl,
      deliverOne_of_handle_ok (dst := .mpeData j) at_j rfl⟩
  case mmr =>
    exact ⟨deliverOne_of_handle_ok (dst := .mmrReq j) at_j rfl,
      fun m' => deliverOne_of_handle_ok (dst := .mmrData j) at_j,
      fun f => deliverOne_of_handle_error (dst := .mmrData j) at_j⟩
  case router =>
    refine ⟨deliverOne_of_handle_ok (dst := .parentDown j) at_j rfl, fun k q at_k => ?_⟩
    rw [← Router.receiveUp_eq_set at_k]
    exact deliverOne_of_handle_ok (dst := .childUp j k) at_j rfl

/-! ## All that a step can answer (R168, R442) -/

/-- A host step without a fault: the system delivered, every component's act, one cycle on. -/
def CycleStep (s t : State) : Prop :=
  s.fault = none ∧ s.problem = none ∧
    ∃ u v, s.deliver = ([], u) ∧ Component.actAll u.components u = ([], v) ∧ t = { v with cycle := s.cycle + 1 }

theorem State.deliver_frame {s t : State} (delivered : s.deliver = ([], t)) :
    t.modes = s.modes ∧ t.cycle = s.cycle ∧ t.fault = s.fault ∧ t.links = s.taken.links := by
  refine handOver_keeps (P := fun u => u.modes = s.modes ∧ u.cycle = s.cycle ∧ u.fault = s.fault ∧
    u.links = s.taken.links) (fun dst ev u v handed same => ?_) (State.handOver_of_deliver delivered)
    ⟨rfl, rfl, rfl, rfl⟩
  obtain rfl | ⟨p, p', -, -, rfl⟩ := deliverOne_ok handed
  · exact same
  · simpa using same

section
variable {s : State}

theorem step_of_fault {f : FaultRecord} (faulted : s.fault = some f) : step s = .fault (.halted f) := by
  rw [step, faulted]

theorem step_of_problem {p : ConfigProblem} (no_fault : s.fault = none) (problem : s.problem = some p) :
    step s = .refused (.config p) := by
  rw [step, no_fault, problem]

variable (no_fault : s.fault = none) (no_problem : s.problem = none)
include no_fault no_problem

theorem step_eq_hostStep : step s = hostStep s := by
  rw [step, no_fault, no_problem]

theorem step_of_deliver_faults {f : FaultRecord} {fs : List FaultRecord} {t : State}
    (delivered : s.deliver = (f :: fs, t)) : step s = .next (s.raise (chooseFault s.cycle f fs)) := by
  rw [step_eq_hostStep no_fault no_problem, hostStep, delivered]

variable {t : State} (delivered : s.deliver = ([], t))
include delivered

theorem step_of_ticks {u : State} (ticked : runTicks t.ticks [] t = .next ([], u)) :
    step s = .next { u with cycle := s.cycle + 1 } := by
  rw [step_eq_hostStep no_fault no_problem, hostStep, delivered]
  simp only [ticked]

theorem step_of_tick_faults {f : FaultRecord} {fs : List FaultRecord} {u : State}
    (ticked : runTicks t.ticks [] t = .next (f :: fs, u)) :
    step s = .next (s.raise (chooseFault s.cycle f fs)) := by
  rw [step_eq_hostStep no_fault no_problem, hostStep, delivered]
  simp only [ticked]

end

/-- Every step of a system that takes one records a fault and nothing else, or is a whole cycle. -/
theorem step_total {s : State} (no_fault : s.fault = none) (no_problem : s.problem = none) :
    ∃ t, step s = .next t ∧ ((∃ f, t = s.raise f) ∨ CycleStep s t) := by
  match delivered : s.deliver with
  | (f :: fs, u) => exact ⟨_, step_of_deliver_faults no_fault no_problem delivered, .inl ⟨_, rfl⟩⟩
  | ([], u) =>
    have no_fault' : u.fault = none := (State.deliver_frame delivered).2.2.1.trans no_fault
    have ticked := Component.runTicks_map_tick u.components [] no_fault'
    rw [← Component.ticks_eq_map_tick, List.nil_append] at ticked
    match acted : Component.actAll u.components u with
    | (f :: fs, v) =>
      rw [acted] at ticked
      exact ⟨_, step_of_tick_faults no_fault no_problem delivered ticked, .inl ⟨_, rfl⟩⟩
    | ([], v) =>
      rw [acted] at ticked
      exact ⟨_, step_of_ticks no_fault no_problem delivered ticked,
        .inr ⟨no_fault, no_problem, u, v, delivered, acted, rfl⟩⟩

/-- All that a step can answer with a next state. -/
theorem step_next {s t : State} (stepped : step s = .next t) : (∃ f, t = s.raise f) ∨ CycleStep s t := by
  cases no_fault : s.fault with
  | some f => rw [step_of_fault no_fault] at stepped; cases stepped
  | none =>
    cases no_problem : s.problem with
    | some p => rw [step_of_problem no_fault no_problem] at stepped; cases stepped
    | none =>
      obtain ⟨u, answered, what⟩ := step_total no_fault no_problem
      rw [stepped] at answered
      cases answered
      exact what

/-- What every act keeps, all of them keep. -/
theorem Component.actAll_keeps {P : State → Prop}
    (keeps : ∀ (x : Component) (s t : State), x.act s = .ok t → P s → P t) (xs : List Component) {s : State}
    (holds : P s) : P (actAll xs s).2 := by
  induction xs generalizing s with
  | nil => exact holds
  | cons x xs ih =>
    rw [actAll]
    cases acted : x.act s with
    | ok t => exact ih (keeps x s t acted holds)
    | error f => exact ih holds

theorem CycleStep.fault_cycle {s t : State} (cycled : CycleStep s t) : t.fault = none ∧ t.cycle = s.cycle + 1 := by
  obtain ⟨no_fault, -, u, v, delivered, acted, rfl⟩ := cycled
  have no_fault' : u.fault = none := (State.deliver_frame delivered).2.2.1.trans no_fault
  have kept := Component.actAll_keeps (P := fun s => s.fault = none)
    (fun x s t acted same => (Component.act_fault acted).trans same) u.components no_fault'
  rw [acted] at kept
  exact ⟨kept, rfl⟩

/-- Settles O37: a step halts, is refused, or is one of the two answers of `step_total`. -/
theorem stepIsACycleOrARecordedFault : Obligations.StepIsACycleOrARecordedFault := by
  refine fun s => ⟨fun f => step_of_fault, fun p => step_of_problem, fun no_fault no_problem => ?_⟩
  obtain ⟨t, stepped, recorded | cycled⟩ := step_total no_fault no_problem
  · exact ⟨t, stepped, .inr recorded⟩
  · exact ⟨t, stepped, .inl cycled.fault_cycle⟩

/-- The kinds of components in the other order. -/
theorem State.ticks_perm_reverse (s : State) :
    s.ticks.Perm
      ((List.range s.routers.length).map tickRouter ++ (List.range s.mmrs.length).map tickMmr ++
        (List.range s.mpes.length).map tickMpe ++ (List.range s.cams.length).map tickCam ++
        (List.range s.cores.length).map tickCore) := by
  have kinds := (List.reverse_perm [(List.range s.cores.length).map tickCore,
    (List.range s.cams.length).map tickCam, (List.range s.mpes.length).map tickMpe,
    (List.range s.mmrs.length).map tickMmr, (List.range s.routers.length).map tickRouter]).symm.flatten
  simpa [State.ticks] using kinds

/-- Settles O60: a host step delivers, runs the ticks and records one of the faults met. -/
theorem hostStepDeliversThenTicks : Obligations.HostStepDeliversThenTicks := by
  refine ⟨fun s no_fault no_problem => ⟨fun f fs t delivered => ?deliverFaults, fun t delivered =>
      ⟨fun u => step_of_ticks no_fault no_problem delivered, fun f fs u ticked => ?tickFaults⟩⟩,
    State.ticks_perm_reverse, fun faults s => rfl, fun tick ticks faults s t ticked =>
      ⟨fun no_fault => ?goesOn, fun f faulted => ?leftOut⟩⟩
  case deliverFaults => exact ⟨_, chooseFault_mem .., step_of_deliver_faults no_fault no_problem delivered⟩
  case tickFaults => exact ⟨_, chooseFault_mem .., step_of_tick_faults no_fault no_problem delivered ticked⟩
  case goesOn => simp only [runTicks, ticked, no_fault]
  case leftOut => simp only [runTicks, ticked, faulted]

end Sys2Proof.Machine
end

section
/-! PROOFS. Queues and the busy discipline (40_delay_queue.md R151 to R155, R163 to R167), the ticks of the three
devices that are built on it, and their data latches (45_cam.md R331, 47_mmr.md R391). -/

namespace Sys2Proof.Machine

/-! ## Queues in the order of their ready cycles (R151 to R155) -/

namespace DelayQueue
variable {α : Type} {q : DelayQueue α}

theorem lastReady_eq_none_iff : q.lastReady = none ↔ q.items = [] := by
  simp [lastReady]

/-- No item of a queue in order is ready after the last one. -/
theorem Sorted.le_lastReady (sorted : q.Sorted) {r : Nat} (last : q.lastReady = some r) : ∀ e ∈ q.items, e.1 ≤ r := by
  obtain ⟨e, last_e, rfl⟩ := Option.map_eq_some_iff.mp last
  obtain ⟨front, items⟩ := List.getLast?_eq_some_iff.mp last_e
  rw [Sorted, items, List.pairwise_append] at sorted
  intro a mem
  rw [items] at mem
  obtain before | same := List.mem_append.mp mem
  · exact sorted.2.2 a before e (List.mem_singleton_self e)
  · rw [List.mem_singleton.mp same]

/-- An item no earlier than any other may stand behind them. -/
theorem sorted_append {items : List (Nat × α)} {e : Nat × α} {avail : Nat}
    (sorted : items.Pairwise fun a b => a.1 ≤ b.1) (behind : ∀ a ∈ items, a.1 ≤ e.1) :
    Sorted (α := α) ⟨items ++ [e], avail⟩ := by
  refine List.pairwise_append.mpr ⟨sorted, List.pairwise_singleton .., fun a mem b same => ?_⟩
  rw [List.mem_singleton.mp same]
  exact behind a mem

theorem pushChained_sorted (sorted : q.Sorted) (c d : Nat) (item : α) : (q.pushChained c d item).Sorted := by
  rw [pushChained]
  cases last : q.lastReady with
  | none => exact sorted_append sorted (by simp [lastReady_eq_none_iff.mp last])
  | some r => exact sorted_append sorted fun a mem => (sorted.le_lastReady last a mem).trans (Nat.le_add_right r d)

theorem pushThrottled_sorted (sorted : q.Sorted) (c d : Nat) (item : α) : (q.pushThrottled c d item).Sorted := by
  rw [pushThrottled]
  cases last : q.lastReady with
  | none => exact sorted_append sorted (by simp [lastReady_eq_none_iff.mp last])
  | some r => exact sorted_append sorted fun a mem => (sorted.le_lastReady last a mem).trans (Nat.le_add_right r d)

theorem pushThrottled_items (q : DelayQueue α) (c d : Nat) (item : α) :
    ∃ r, (q.pushThrottled c d item).items = q.items ++ [(r, item)] := by
  rw [pushThrottled]
  cases q.lastReady <;> exact ⟨_, rfl⟩

theorem pop_sorted (sorted : q.Sorted) (c : Nat) : (q.pop c).2.Sorted := by
  obtain ⟨r, x, rest, items, -, popped⟩ | ⟨popped, -⟩ := q.pop_cases c
  · rw [Sorted, items] at sorted
    rw [popped]
    exact (List.pairwise_cons.mp sorted).2
  · rwa [popped]

/-- Where the head is not ready, nothing behind it is. -/
theorem Sorted.all_lt_of_head (sorted : q.Sorted) {c : Nat} (head : ∀ e, q.items.head? = some e → c < e.1) :
    ∀ e ∈ q.items, c < e.1 := by
  rcases q with ⟨_ | ⟨first, rest⟩, avail⟩
  · simp
  · have first_late : c < first.1 := head first rfl
    exact List.forall_mem_cons.mpr ⟨first_late, fun e mem =>
      first_late.trans_le ((List.pairwise_cons.mp sorted).1 e mem)⟩

end DelayQueue

/-- Settles O44: a push goes behind the last item and no earlier than it, and pop looks at the head alone. -/
theorem queueKeepsReadyOrder : Obligations.QueueKeepsReadyOrder := by
  intro α q c d item sorted
  obtain ⟨r, throttled⟩ := q.pushThrottled_items c d item
  refine ⟨DelayQueue.pushChained_sorted sorted .., DelayQueue.pushThrottled_sorted sorted ..,
    DelayQueue.pop_sorted sorted c, by simp [DelayQueue.pushChained_items], by simp [throttled], ?_⟩
  obtain ⟨r, x, rest, items, ready, popped⟩ | ⟨popped, head⟩ := q.pop_cases c
  · rw [popped]
    refine ⟨fun y same => ⟨r, ready, ?_⟩, nofun⟩
    cases same
    exact items
  · rw [popped]
    exact ⟨nofun, fun _ => ⟨rfl, sorted.all_lt_of_head head⟩⟩

/-! ## Requests served one after another (R163, R165 to R167) -/

namespace Discipline
variable {α : Type}

/-- One tick serves what is due, then accepts. -/
theorem serve_eq {d : Discipline α} (regular : d.Regular) (n L : Nat) :
    d.serve n L = ((d.dueNow n).toList, d.afterTick n L) := by
  rw [serve, afterTick]
  cases due : d.dueNow n with
  | none => rw [complete_of_not_due due, released_of_not_due due, accept_eq_accepted regular]; rfl
  | some req => rw [complete_of_due regular due, ← accept_eq_accepted (released_regular regular)]; rfl

/-- The last ready cycle of items that are all ready in one cycle is that cycle. -/
theorem getD_lastReady {q : DelayQueue α} {n : Nat} (ready : ∀ e ∈ q.items, e.1 = n) : q.lastReady.getD n = n := by
  cases last : q.lastReady with
  | none => rfl
  | some r =>
    obtain ⟨e, last_e, rfl⟩ := Option.map_eq_some_iff.mp last
    exact ready e (List.mem_of_getLast? last_e)

/-- Requests queued in one cycle behind others ready in it are ready in it. -/
theorem foldl_enqueue {d : Discipline α} {n : Nat} (ready : ∀ e ∈ d.inq.items, e.1 = n) (reqs : List α) :
    reqs.foldl (fun e req => e.enqueue n req) d =
      { d with inq := ⟨d.inq.items ++ reqs.map fun req => (n, req), d.inq.nextAvail⟩ } := by
  induction reqs generalizing d with
  | nil => simp
  | cons req reqs ih =>
    have queued : (d.enqueue n req).inq.items = d.inq.items ++ [(n, req)] := by
      rw [enqueue_inq, DelayQueue.pushChained_items, getD_lastReady ready, Nat.add_zero]
    have still_ready : ∀ e ∈ (d.enqueue n req).inq.items, e.1 = n := by
      rw [queued]
      exact List.forall_mem_append.mpr ⟨ready, by simp⟩
    rw [List.foldl_cons, ih still_ready, queued]
    simp

/-- A discipline busy until cycle r with a request, others waiting. -/
def serving (req : α) (r : Nat) (waiting : List (Nat × α)) (a b : Nat) : Discipline α :=
  ⟨true, ⟨waiting, a⟩, ⟨[(r, req)], b⟩⟩

section
variable {req : α} {r n L a b : Nat} {waiting : List (Nat × α)}

theorem serving_regular : (serving req r waiting a b).Regular :=
  ⟨fun _ => ⟨_, rfl⟩, nofun⟩

theorem serve_serving_of_lt (early : n < r) :
    (serving req r waiting a b).serve n L = ([], serving req r waiting a b) := by
  have not_due : (serving req r waiting a b).dueNow n = none := if_neg (Nat.not_le_of_lt early)
  rw [serve_eq serving_regular, not_due, afterTick, released_of_not_due not_due, accepted_of_busy rfl]
  rfl

theorem serve_serving_last : (serving req r [] a b).serve r L = ([req], ⟨false, ⟨[], a⟩, ⟨[], b⟩⟩) := by
  have due : (serving req r [] a b).dueNow r = some req := if_pos r.le_refl
  rw [serve_eq serving_regular, due, afterTick, released_of_due due]
  rfl

theorem serve_serving_next {e : Nat × α} (ready : e.1 ≤ r) :
    (serving req r (e :: waiting) a b).serve r L = ([req], serving e.2 (r + L) waiting a b) := by
  have due : (serving req r (e :: waiting) a b).dueNow r = some req := if_pos r.le_refl
  rw [serve_eq serving_regular, due, afterTick, released_of_due due]
  simp [accepted, serving, ready]

/-- Nothing is performed while the one completion is not due. -/
theorem performed_serving_wait (j k : Nat) (early : n + j ≤ r) :
    performed L (j + k) n (serving req r waiting a b) = performed L k (n + j) (serving req r waiting a b) := by
  induction j generalizing n with
  | zero => simp
  | succ j ih =>
    rw [Nat.succ_add, performed, serve_serving_of_lt (by omega), ih (by omega), Nat.succ_add_eq_add_succ]
    rfl

end

/-- Request i of those queued at cycle n, in service until i + 1 latencies on, and the ones behind it. -/
theorem performed_serving {L n : Nat} (latency_pos : 0 < L) (waiting : List (Nat × α)) (req : α) (i a b : Nat)
    (ready : ∀ e ∈ waiting, e.1 ≤ n) :
    performed L ((waiting.length + 1) * L) (n + i * L + 1) (serving req (n + (i + 1) * L) waiting a b) =
      ((req :: waiting.map Prod.snd).zipIdx i).map fun e => (n + (e.2 + 1) * L, e.1) := by
  obtain ⟨l, rfl⟩ := Nat.exists_eq_add_of_le' latency_pos
  have due_cycle : n + i * (l + 1) + 1 + l = n + (i + 1) * (l + 1) := by rw [Nat.succ_mul]; omega
  induction waiting generalizing req i with
  | nil =>
    have fuel : (([] : List (Nat × α)).length + 1) * (l + 1) = l + 1 := by simp
    rw [fuel, performed_serving_wait l 1 due_cycle.le, due_cycle, performed, serve_serving_last]
    rfl
  | cons e waiting ih =>
    obtain ⟨ready_e, ready⟩ := List.forall_mem_cons.mp ready
    have fuel : ((e :: waiting).length + 1) * (l + 1) = l + ((waiting.length + 1) * (l + 1) + 1) := by
      rw [List.length_cons, Nat.succ_mul]; omega
    have next_due : n + (i + 1) * (l + 1) + (l + 1) = n + (i + 1 + 1) * (l + 1) := by
      rw [Nat.succ_mul (i + 1)]; omega
    rw [fuel, performed_serving_wait l _ due_cycle.le, due_cycle, performed,
      serve_serving_next (ready_e.trans (Nat.le_add_right ..)), next_due]
    have later := ih e.2 (i + 1) ready (by rw [Nat.succ_mul (i + 1)]; omega)
    simp [later]

/-- k requests queued together in an idle discipline are performed one latency apart. -/
theorem performed_of_queued {d : Discipline α} {L : Nat} (n : Nat) (latency_pos : 0 < L) (idle : d.busy = false)
    (none_waiting : d.inq.items = []) (none_done : d.doneq.items = []) (reqs : List α) :
    performed L (reqs.length * L + 1) n (reqs.foldl (fun e req => e.enqueue n req) d) =
      reqs.zipIdx.map fun e => (n + (e.2 + 1) * L, e.1) := by
  rw [foldl_enqueue (by simp [none_waiting]), none_waiting, List.nil_append]
  have regular : Regular { d with inq := ⟨reqs.map fun req => (n, req), d.inq.nextAvail⟩ } := by
    simp [Regular, idle, none_done]
  have not_due : dueNow { d with inq := ⟨reqs.map fun req => (n, req), d.inq.nextAvail⟩ } n = none := by
    simp [dueNow, idle]
  rw [performed, serve_eq regular, not_due, afterTick, released_of_not_due not_due]
  cases reqs with
  | nil => simp [performed]
  | cons req reqs =>
    have taken : accepted { d with inq := ⟨(req :: reqs).map fun req => (n, req), d.inq.nextAvail⟩ } n L =
        serving req (n + L) (reqs.map fun req => (n, req)) d.inq.nextAvail d.doneq.nextAvail := by
      simp [accepted, serving, idle]
    have later := performed_serving (n := n) latency_pos (reqs.map fun req => (n, req)) req 0 d.inq.nextAvail
      d.doneq.nextAvail (by simp)
    rw [taken]
    simpa using later

end Discipline

/-! ## What a device's command keeps, and its tick (R165, R166) -/

/-- A command neither reads nor changes the discipline. -/
theorem Cam.perform_withDisc (cam : Cam) (q : Discipline Event) (req : Event) :
    Cam.perform { cam with disc := q } req = (cam.perform req).map fun p => ({ p.1 with disc := q }, p.2) := by
  simp only [Cam.perform]
  split
  case h_2 => rcases cam with ⟨_, _, _ | ⟨_, _⟩, _⟩ <;> rfl
  all_goals rfl

theorem Cam.perform_ok {cam cam' : Cam} {req : Event} {out : Option Event}
    (performed : cam.perform req = .ok (cam', out)) : cam'.cfg = cam.cfg ∧ cam'.rows = cam.rows := by
  unfold Cam.perform at performed
  split at performed
  case h_1 => cases performed; exact ⟨rfl, rfl⟩
  case h_2 =>
    split at performed
    case h_1 => cases performed
    case h_2 => cases performed; exact ⟨rfl, rfl⟩
  case h_3 => cases performed

section
variable {cam : Cam} {n : Nat}

theorem Cam.tick_of_serve_nil (served : (cam.disc.serve n cam.cfg.latency).1 = []) :
    cam.tick n = .ok ({ cam with disc := (cam.disc.serve n cam.cfg.latency).2 }, none) := by
  unfold Discipline.serve at served ⊢
  cases completed : cam.disc.complete n with
  | none => simp only [Cam.tick, completed]; rfl
  | some due => rw [completed] at served; cases served

theorem Cam.tick_of_serve_cons {req : Event} (served : (cam.disc.serve n cam.cfg.latency).1 = [req]) :
    cam.tick n = (cam.perform req).map fun p =>
      ({ p.1 with disc := (cam.disc.serve n cam.cfg.latency).2 }, p.2) := by
  unfold Discipline.serve at served ⊢
  cases completed : cam.disc.complete n with
  | none => rw [completed] at served; cases served
  | some due =>
    rw [completed] at served
    cases served
    rw [Cam.tick, completed]
    dsimp only
    rw [cam.perform_withDisc]
    cases performed : cam.perform due.1 with
    | error f => rfl
    | ok p =>
      obtain ⟨cfg, -⟩ := Cam.perform_ok performed
      simp only [Except.map, Cam.accept, cfg]

end

/-- A command neither reads nor changes the discipline. -/
theorem Mpe.perform_withDisc (mpe : Mpe) (q : Discipline Event) (req : Event) :
    Mpe.perform { mpe with disc := q } req = (mpe.perform req).map fun p => ({ p.1 with disc := q }, p.2) := by
  have same_data : Mpe.loadData { mpe with disc := q } = mpe.loadData := rfl
  simp only [Mpe.perform, same_data]
  split
  case h_2 | h_3 => cases mpe.loadData <;> rfl
  all_goals rfl

/-- A load finds a payload of MPE_ROWS bytes or faults. -/
theorem Mpe.loadData_ok {mpe : Mpe} {d : List Byte} (loads : mpe.loadData = .ok d) : d.length = mpe.cfg.nRows := by
  unfold Mpe.loadData at loads
  split at loads
  case h_1 => cases loads
  case h_2 =>
    split at loads
    case isTrue whole => cases loads; exact whole
    case isFalse => cases loads

theorem Mpe.perform_ok {mpe mpe' : Mpe} {req : Event} {out : Option (MpePort × Event)}
    (performed : mpe.perform req = .ok (mpe', out)) :
    mpe'.cfg = mpe.cfg ∧ (mpe.rows.length = mpe.cfg.nRows → mpe'.rows.length = mpe.cfg.nRows) := by
  unfold Mpe.perform at performed
  split at performed
  case h_2 | h_3 =>
    split at performed
    case h_1 d loads =>
      cases performed
      exact ⟨rfl, fun shaped => by simp [Mpe.withRows, shaped, Mpe.loadData_ok loads]⟩
    case h_2 => cases performed
  case h_7 => cases performed
  all_goals
    cases performed
    exact ⟨rfl, fun shaped => by simp [Mpe.withRows, shaped]⟩

section
variable {mpe : Mpe} {n : Nat}

theorem Mpe.tick_of_serve_nil (served : (mpe.disc.serve n mpe.cfg.latency).1 = []) :
    mpe.tick n = .ok ({ mpe with disc := (mpe.disc.serve n mpe.cfg.latency).2 }, none) := by
  unfold Discipline.serve at served ⊢
  cases completed : mpe.disc.complete n with
  | none => simp only [Mpe.tick, completed]; rfl
  | some due => rw [completed] at served; cases served

theorem Mpe.tick_of_serve_cons {req : Event} (served : (mpe.disc.serve n mpe.cfg.latency).1 = [req]) :
    mpe.tick n = (mpe.perform req).map fun p =>
      ({ p.1 with disc := (mpe.disc.serve n mpe.cfg.latency).2 }, p.2) := by
  unfold Discipline.serve at served ⊢
  cases completed : mpe.disc.complete n with
  | none => rw [completed] at served; cases served
  | some due =>
    rw [completed] at served
    cases served
    rw [Mpe.tick, completed]
    dsimp only
    rw [mpe.perform_withDisc]
    cases performed : mpe.perform due.1 with
    | error f => rfl
    | ok p =>
      obtain ⟨cfg, -⟩ := Mpe.perform_ok performed
      simp only [Except.map, Mpe.accept, cfg]

end

/-- A command neither reads nor changes the discipline. -/
theorem Mmr.perform_withDisc (mmr : Mmr) (q : Discipline Event) (req : Event) :
    Mmr.perform { mmr with disc := q } req = (mmr.perform req).map fun p => ({ p.1 with disc := q }, p.2) := by
  simp only [Mmr.perform]
  split
  case h_1 => cases mmr.pos <;> cases mmr.neg <;> rfl
  case h_2 => rfl

theorem Mmr.perform_ok {mmr mmr' : Mmr} {req : Event} {out : Option Event}
    (performed : mmr.perform req = .ok (mmr', out)) : mmr'.cfg = mmr.cfg := by
  unfold Mmr.perform at performed
  split at performed
  case h_1 =>
    split at performed
    case h_1 => cases performed; rfl
    case h_2 => cases performed
  case h_2 => cases performed

section
variable {mmr : Mmr} {n : Nat}

theorem Mmr.tick_of_serve_nil (served : (mmr.disc.serve n mmr.cfg.latency).1 = []) :
    mmr.tick n = .ok ({ mmr with disc := (mmr.disc.serve n mmr.cfg.latency).2 }, none) := by
  unfold Discipline.serve at served ⊢
  cases completed : mmr.disc.complete n with
  | none => simp only [Mmr.tick, completed]; rfl
  | some due => rw [completed] at served; cases served

theorem Mmr.tick_of_serve_cons {req : Event} (served : (mmr.disc.serve n mmr.cfg.latency).1 = [req]) :
    mmr.tick n = (mmr.perform req).map fun p =>
      ({ p.1 with disc := (mmr.disc.serve n mmr.cfg.latency).2 }, p.2) := by
  unfold Discipline.serve at served ⊢
  cases completed : mmr.disc.complete n with
  | none => rw [completed] at served; cases served
  | some due =>
    rw [completed] at served
    cases served
    rw [Mmr.tick, completed]
    dsimp only
    rw [mmr.perform_withDisc]
    cases performed : mmr.perform due.1 with
    | error f => rfl
    | ok p =>
      have cfg := Mmr.perform_ok performed
      simp only [Except.map, Mmr.accept, cfg]

end

/-- Settles O45: a request in service is done one latency on and the next one enters then; a device performs what its
discipline serves. -/
theorem requestsAreServedEveryLatency : Obligations.RequestsAreServedEveryLatency := by
  refine ⟨fun d n L reqs latency_pos idle none_waiting none_done =>
      Discipline.performed_of_queued n latency_pos idle none_waiting none_done reqs,
    fun d n L regular => Discipline.serve_eq regular n L, fun cam n => ?cam, fun mpe n => ?mpe, fun mmr n => ?mmr⟩
  case cam =>
    exact ⟨Cam.tick_of_serve_nil, fun req served =>
      ⟨fun f fault => by rw [Cam.tick_of_serve_cons served, fault]; rfl,
        fun cam' out performed => by rw [Cam.tick_of_serve_cons served, performed]; rfl⟩⟩
  case mpe =>
    exact ⟨Mpe.tick_of_serve_nil, fun req served =>
      ⟨fun f fault => by rw [Mpe.tick_of_serve_cons served, fault]; rfl,
        fun mpe' out performed => by rw [Mpe.tick_of_serve_cons served, performed]; rfl⟩⟩
  case mmr =>
    exact ⟨Mmr.tick_of_serve_nil, fun req served =>
      ⟨fun f fault => by rw [Mmr.tick_of_serve_cons served, fault]; rfl,
        fun mmr' out performed => by rw [Mmr.tick_of_serve_cons served, performed]; rfl⟩⟩

/-! ## The data latches (R331, R391) -/

theorem Cam.latchQuery_of_length {cam : Cam} {q : List Byte} (whole : q.length = 2 * cam.cfg.nCols) :
    cam.latchQuery q =
      .ok { cam with query := some (q.take cam.cfg.nCols, (q.drop cam.cfg.nCols).map fun b => b != 0) } :=
  if_pos whole

theorem Cam.latchQuery_of_length_ne {cam : Cam} {q : List Byte} (other : q.length ≠ 2 * cam.cfg.nCols) :
    cam.latchQuery q = .error ⟨.deviceData, .data .cam (some q.length)⟩ :=
  if_neg other

theorem Mmr.latchHalves_of_length {mmr : Mmr} {v : List Byte} (whole : v.length = 2 * mmr.cfg.nRows) :
    mmr.latchHalves v =
      .ok { mmr with pos := some (v.take mmr.cfg.nRows), neg := some (v.drop mmr.cfg.nRows) } :=
  if_pos whole

theorem Mmr.latchHalves_of_length_ne {mmr : Mmr} {v : List Byte} (other : v.length ≠ 2 * mmr.cfg.nRows) :
    mmr.latchHalves v = .error ⟨.deviceData, .data .mmr (some v.length)⟩ :=
  if_neg other

/-- Settles O51: both latches cut a payload of twice their width in its middle. -/
theorem dataLatchesSplitTheirPayload : Obligations.DataLatchesSplitTheirPayload := by
  refine ⟨fun cam q => ⟨fun whole => ?cam, Cam.latchQuery_of_length_ne⟩,
    fun mmr v => ⟨fun whole => ?mmr, Mmr.latchHalves_of_length_ne⟩⟩
  case cam =>
    refine ⟨_, _, Cam.latchQuery_of_length whole, by rw [List.length_take]; omega,
      by rw [List.length_map, List.length_drop]; omega, fun j inside => ⟨List.getElem?_take_of_lt inside, ?_⟩⟩
    rw [List.getElem?_map, List.getElem?_drop]
  case mmr =>
    exact ⟨_, _, Mmr.latchHalves_of_length whole, (List.take_append_drop ..).symm,
      by rw [List.length_take]; omega, by rw [List.length_drop]; omega⟩

end Sys2Proof.Machine
end

section
/-! PROOFS. What every step keeps (00_scope.md R8, 10_state.md R34, R37, R42, R47, R51): configuration, programs and
thresholds, the canonical form of data memory, `ended`; and that reset meets the invariants. -/

namespace Sys2Proof.Machine

/-! ## What no step takes from a component -/

/-- A core keeps its configuration and program, a canonical memory canonical, and `ended`. -/
structure Core.Keeps (c c' : Core) : Prop where
  cfg : c'.cfg = c.cfg
  imem : c'.imem = c.imem
  memory : Memory.wf c.cfg.dmemImage c.dmem = true → Memory.wf c'.cfg.dmemImage c'.dmem = true
  ended : c.ended = true → c'.ended = true

theorem Core.Keeps.refl (c : Core) : c.Keeps c := ⟨rfl, rfl, id, id⟩

theorem Core.Keeps.trans {c c' c'' : Core} (first : c.Keeps c') (second : c'.Keeps c'') : c.Keeps c'' :=
  ⟨second.cfg.trans first.cfg, second.imem.trans first.imem, second.memory ∘ first.memory, second.ended ∘ first.ended⟩

theorem StageKeeps.keeps {c c' : Core} (stage : StageKeeps c c') : c.Keeps c' :=
  ⟨stage.cfg, stage.imem, fun wf => stage.cfg ▸ stage.memory wf, stage.ended⟩

/-- A CAM keeps its configuration and thresholds. -/
def Cam.Keeps (c c' : Cam) : Prop := c'.cfg = c.cfg ∧ c'.rows = c.rows

/-- An MPE keeps its configuration and, if it has them, its MPE_ROWS rows. -/
def Mpe.Keeps (m m' : Mpe) : Prop :=
  m'.cfg = m.cfg ∧ (m.rows.length = m.cfg.nRows → m'.rows.length = m.cfg.nRows)

def Mmr.Keeps (m m' : Mmr) : Prop := m'.cfg = m.cfg

def Router.Keeps (r r' : Router) : Prop := r'.cfg = r.cfg

/-- What no step takes from a component's part. -/
def Component.Keeps : (x : Component) → x.Part → x.Part → Prop
  | core _ => Core.Keeps
  | cam _ => Cam.Keeps
  | mpe _ => Mpe.Keeps
  | mmr _ => Mmr.Keeps
  | router _ => Router.Keeps

theorem Component.Keeps.refl (x : Component) (p : x.Part) : x.Keeps p p := by
  cases x with
  | core k => exact Core.Keeps.refl p
  | cam j => exact ⟨rfl, rfl⟩
  | mpe j => exact ⟨rfl, id⟩
  | mmr j | router j => exact rfl

theorem Component.Keeps.trans {x : Component} {p q r : x.Part} (first : x.Keeps p q) (second : x.Keeps q r) :
    x.Keeps p r := by
  cases x with
  | core k => exact Core.Keeps.trans first second
  | cam j => exact ⟨second.1.trans first.1, second.2.trans first.2⟩
  | mpe j =>
    obtain ⟨cfg, shaped⟩ := first
    obtain ⟨cfg', shaped'⟩ := second
    exact ⟨cfg'.trans cfg, fun length => by rw [← cfg]; exact shaped' (by rw [cfg]; exact shaped length)⟩
  | mmr j | router j => exact Eq.trans second first

/-! ## The ticks keep it -/

theorem Core.rxStore_keeps {c c' : Core} {p : Nat} {ev : Event} (stored : c.rxStore p ev = .ok c') : c.Keeps c' := by
  obtain ⟨m, rfl⟩ := Core.rxStore_eq_withMemory stored
  exact ⟨rfl, rfl, fun wf => (Core.rxStore_wf stored wf).2, id⟩

theorem Core.rxStep_keeps {c c' : Core} {n : Nat} (stepped : c.rxStep n = .ok c') : c.Keeps c' := by
  unfold Core.rxStep at stepped
  split at stepped
  case h_1 => cases stepped; exact ⟨rfl, rfl, id, id⟩
  case h_2 p ev d _ =>
    split at stepped
    case h_1 => cases stepped
    case h_2 c1 stored =>
      cases stepped
      have kept := Core.rxStore_keeps stored
      exact ⟨kept.cfg, kept.imem, kept.memory, kept.ended⟩

theorem Core.fetch_keeps {c c' : Core} {m : Modes} (fetched : c.fetch m = .ok c') : c.Keeps c' := by
  unfold Core.fetch at fetched
  split at fetched
  case isTrue => cases fetched; exact .refl c
  case isFalse =>
    split at fetched
    case h_1 => cases fetched
    case h_2 => cases fetched; exact ⟨rfl, rfl, id, id⟩

/-- A step of a core's tick that takes nothing from the core. -/
def CoreStep.Kept (step : CoreStep) : Prop := ∀ c o, step c = .ok o → c.Keeps o.core

theorem CoreStep.ofUpdate_kept {update : Core → Except FaultRecord Core}
    (keeps : ∀ c c', update c = .ok c' → c.Keeps c') : CoreStep.Kept (.ofUpdate update) := by
  intro c o stepped
  obtain ⟨c', updated, rfl⟩ := exists_of_map_eq_ok stepped
  exact keeps c c' updated

theorem Core.stageStep_kept (env : StageEnv) (st : Stage) : CoreStep.Kept (Core.stageStep env st) := by
  intro c o stepped
  unfold Core.stageStep at stepped
  split at stepped
  case isTrue => exact ((formStages_kept _ _).fn st env c o stepped).keeps
  case isFalse => cases stepped; exact .refl c

/-- Steps in turn that go through: the first one did, and then it ended the tick or the others did. -/
theorem CoreStep.inTurn_cons_ok {step : CoreStep} {steps : List CoreStep} {c : Core} {o : StageOut}
    (stepped : CoreStep.inTurn (step :: steps) c = .ok o) :
    ∃ o1, step c = .ok o1 ∧ (o = o1 ∨ ∃ o2, CoreStep.inTurn steps o1.core = .ok o2 ∧ o.core = o2.core) := by
  rw [CoreStep.inTurn] at stepped
  split at stepped
  case h_1 => cases stepped
  case h_2 o1 first =>
    split at stepped
    case isTrue => cases stepped; exact ⟨o, first, .inl rfl⟩
    case isFalse =>
      obtain ⟨o2, later, rfl⟩ := exists_of_map_eq_ok stepped
      exact ⟨o1, first, .inr ⟨o2, later, rfl⟩⟩

/-- What every step keeps, steps in turn keep. -/
theorem CoreStep.inTurn_rel {R : Core → Core → Prop} (refl : ∀ c, R c c) (chains : ∀ {a b c}, R a b → R b c → R a c)
    {steps : List CoreStep} (related : ∀ step ∈ steps, ∀ c o, step c = .ok o → R c o.core) (c : Core) (o : StageOut)
    (stepped : CoreStep.inTurn steps c = .ok o) : R c o.core := by
  induction steps generalizing c o with
  | nil => cases stepped; exact refl c
  | cons step steps ih =>
    obtain ⟨first_related, later_related⟩ := List.forall_mem_cons.mp related
    obtain ⟨o1, first, rfl | ⟨o2, later, same⟩⟩ := CoreStep.inTurn_cons_ok stepped
    · exact first_related c o first
    · rw [same]
      exact chains (first_related c o1 first) (ih later_related o1.core o2 later)

theorem coreSteps_kept (env : StageEnv) (n : Nat) : ∀ step ∈ coreSteps env n, CoreStep.Kept step := by
  simp only [coreSteps, List.forall_mem_cons]
  exact ⟨CoreStep.ofUpdate_kept fun _ _ => Core.rxStep_keeps, Core.stageStep_kept env _, Core.stageStep_kept env _,
    Core.stageStep_kept env _, Core.stageStep_kept env _, CoreStep.ofUpdate_kept fun _ _ => Core.fetch_keeps, by simp⟩

theorem Core.tick_keeps {c : Core} {env : StageEnv} {n : Nat} {o : StageOut} (ticked : c.tick env n = .ok o) :
    c.Keeps o.core :=
  CoreStep.inTurn_rel Core.Keeps.refl Core.Keeps.trans (coreSteps_kept env n) c o ticked

/-- A discipline serves one request or none. -/
theorem Discipline.serve_cases {α : Type} (d : Discipline α) (n L : Nat) :
    (d.serve n L).1 = [] ∨ ∃ req, (d.serve n L).1 = [req] := by
  rw [Discipline.serve]
  cases d.complete n with
  | none => exact .inl rfl
  | some due => exact .inr ⟨due.1, rfl⟩

/-- All that a device's tick can do to it: perform the request served, if any, and replace the discipline. -/
theorem Cam.tick_ok {cam cam' : Cam} {n : Nat} {out : Option Event} (ticked : cam.tick n = .ok (cam', out)) :
    cam'.cfg = cam.cfg ∧ cam'.rows = cam.rows ∧ cam'.disc = (cam.disc.serve n cam.cfg.latency).2 := by
  obtain served | ⟨req, served⟩ := cam.disc.serve_cases n cam.cfg.latency
  · rw [Cam.tick_of_serve_nil served] at ticked
    cases ticked
    exact ⟨rfl, rfl, rfl⟩
  · rw [Cam.tick_of_serve_cons served] at ticked
    obtain ⟨p, performed, same⟩ := exists_of_map_eq_ok ticked
    cases same
    obtain ⟨cfg, rows⟩ := Cam.perform_ok performed
    exact ⟨cfg, rows, rfl⟩

theorem Mpe.tick_ok {mpe mpe' : Mpe} {n : Nat} {out : Option (MpePort × Event)}
    (ticked : mpe.tick n = .ok (mpe', out)) :
    mpe'.cfg = mpe.cfg ∧ (mpe.rows.length = mpe.cfg.nRows → mpe'.rows.length = mpe.cfg.nRows) ∧
      mpe'.disc = (mpe.disc.serve n mpe.cfg.latency).2 := by
  obtain served | ⟨req, served⟩ := mpe.disc.serve_cases n mpe.cfg.latency
  · rw [Mpe.tick_of_serve_nil served] at ticked
    cases ticked
    exact ⟨rfl, id, rfl⟩
  · rw [Mpe.tick_of_serve_cons served] at ticked
    obtain ⟨p, performed, same⟩ := exists_of_map_eq_ok ticked
    cases same
    obtain ⟨cfg, shaped⟩ := Mpe.perform_ok performed
    exact ⟨cfg, shaped, rfl⟩

theorem Mmr.tick_ok {mmr mmr' : Mmr} {n : Nat} {out : Option Event} (ticked : mmr.tick n = .ok (mmr', out)) :
    mmr'.cfg = mmr.cfg ∧ mmr'.disc = (mmr.disc.serve n mmr.cfg.latency).2 := by
  obtain served | ⟨req, served⟩ := mmr.disc.serve_cases n mmr.cfg.latency
  · rw [Mmr.tick_of_serve_nil served] at ticked
    cases ticked
    exact ⟨rfl, rfl⟩
  · rw [Mmr.tick_of_serve_cons served] at ticked
    obtain ⟨p, performed, same⟩ := exists_of_map_eq_ok ticked
    cases same
    exact ⟨Mmr.perform_ok (mmr' := p.1) performed, rfl⟩

theorem Router.upComplete_cfg {j n : Nat} {r r' : Router} {sends : List (RouterPort × Event)}
    (completed : r.upComplete j n = .ok (r', sends)) : r'.cfg = r.cfg := by
  unfold Router.upComplete at completed
  split at completed
  case h_1 => cases completed; rfl
  case h_2 => obtain ⟨draws, rfl⟩ := Router.aggregate_ok j _ completed; rfl

theorem Router.downComplete_cfg (r : Router) (n : Nat) : (r.downComplete n).1.cfg = r.cfg := by
  unfold Router.downComplete
  split <;> rfl

theorem Router.tick_cfg {mode : RouterGrouping} {j n : Nat} {r r' : Router} {sends : List (RouterPort × Event)}
    (ticked : Router.tick mode j r n = .ok (r', sends)) : r'.cfg = r.cfg := by
  unfold Router.tick at ticked
  split at ticked
  case h_1 => cases ticked
  case h_2 r1 up completed =>
    cases ticked
    calc (Router.downComplete ((Router.scanTick mode r1 n).upAccept n) n).1.cfg
        = r1.cfg := Router.downComplete_cfg _ n
      _ = r.cfg := Router.upComplete_cfg completed

theorem Component.advance_keeps {x : Component} {m : Modes} {n : Nat} {p p' : x.Part}
    {sends : List (OutPort × Event)} (own : x.advance m n p = .ok (p', sends)) : x.Keeps p p' := by
  cases x <;> (
    obtain ⟨q, ticked, same⟩ := exists_of_map_eq_ok own
    cases same)
  case core k => exact Core.tick_keeps ticked
  case cam j =>
    obtain ⟨cfg, rows, -⟩ := Cam.tick_ok ticked
    exact ⟨cfg, rows⟩
  case mpe j =>
    obtain ⟨cfg, shaped, -⟩ := Mpe.tick_ok ticked
    exact ⟨cfg, shaped⟩
  case mmr j => exact (Mmr.tick_ok ticked).1
  case router j => exact Router.tick_cfg ticked

/-- A handler keeps it too. -/
theorem Component.handle_keeps {dst : InPort} {ev : Event} {n : Nat} {p p' : (ofIn dst).Part}
    (handled : handle dst ev n p = .ok p') : (ofIn dst).Keeps p p' := by
  cases dst
  case rx => cases handled; exact ⟨rfl, rfl, id, id⟩
  case camReq => cases handled; exact ⟨rfl, rfl⟩
  case camData =>
    change Cam.latchQuery p ev.payload = .ok p' at handled
    unfold Cam.latchQuery at handled
    split at handled
    · cases handled; exact ⟨rfl, rfl⟩
    · cases handled
  case mpeReq | mpeData => cases handled; exact ⟨rfl, id⟩
  case mmrData =>
    change Mmr.latchHalves p ev.payload = .ok p' at handled
    unfold Mmr.latchHalves at handled
    split at handled
    · cases handled; exact Eq.refl (Mmr.cfg p)
    · cases handled
  case mmrReq | childUp | parentDown => cases handled; rfl

/-! ## The whole step keeps it -/

/-- Each component of s is one of t, which keeps what it had, and t has no others. -/
def State.Keeps (s t : State) : Prop := ∀ x : Component, Option.Rel x.Keeps (x.part? s) (x.part? t)

theorem State.keeps_of_same_parts {s t : State} (same : ∀ x : Component, x.part? t = x.part? s) : s.Keeps t := by
  intro x
  rw [same x]
  cases x.part? s with
  | none => exact .none
  | some p => exact .some (Component.Keeps.refl x p)

theorem State.Keeps.refl (s : State) : s.Keeps s := State.keeps_of_same_parts fun _ => rfl

/-- A relation that chains does so on options. -/
theorem optionRel_trans {α : Type} {R : α → α → Prop} (chains : ∀ {a b c}, R a b → R b c → R a c) {a b c : Option α} :
    Option.Rel R a b → Option.Rel R b c → Option.Rel R a c
  | .none, .none => .none
  | .some first, .some second => .some (chains first second)

theorem State.Keeps.trans {s t u : State} (first : s.Keeps t) (second : t.Keeps u) : s.Keeps u :=
  fun x => optionRel_trans Component.Keeps.trans (first x) (second x)

/-- Replacing one part by one that keeps what it had. -/
theorem State.keeps_put {s t : State} {x : Component} {p p' : x.Part} (present : x.part? s = some p)
    (kept : x.Keeps p p') (here : x.part? t = some p') (elsewhere : ∀ y, y ≠ x → y.part? t = y.part? s) :
    s.Keeps t := by
  intro y
  by_cases same : y = x
  · subst same
    rw [present, here]
    exact .some kept
  · rw [elsewhere y same]
    exact State.Keeps.refl s y

theorem keeps_of_act {x : Component} {s t : State} (acted : x.act s = .ok t) : s.Keeps t := by
  obtain ⟨-, rfl⟩ | ⟨p, p', sends, present, own, rfl⟩ := x.act_ok acted
  · exact State.keeps_of_same_parts fun y => x.part?_rested y s
  · exact State.keeps_put present (Component.advance_keeps own) (x.part?_commit_self present p' sends)
      fun y ne => Component.part?_commit_of_ne ne p' sends s

theorem keeps_of_deliverOne {dst : InPort} {ev : Event} {s t : State} (delivered : deliverOne dst ev s = .ok t) :
    s.Keeps t := by
  obtain rfl | ⟨p, p', present, handled, rfl⟩ := deliverOne_ok delivered
  · exact .refl t
  · exact State.keeps_put present (Component.handle_keeps handled) (Component.part?_put_self _ present p')
      fun y ne => Component.part?_put_of_ne ne p' s

theorem keeps_of_deliver {s t : State} (delivered : s.deliver = ([], t)) : s.Keeps t :=
  handOver_keeps (P := s.Keeps) (fun _ _ _ _ handed kept => kept.trans (keeps_of_deliverOne handed))
    (State.handOver_of_deliver delivered) (State.keeps_of_same_parts fun x => by cases x <;> rfl)

theorem keeps_of_step {s t : State} (stepped : step s = .next t) : s.Keeps t := by
  obtain ⟨f, rfl⟩ | ⟨-, -, u, v, delivered, acted, rfl⟩ := step_next stepped
  · exact State.keeps_of_same_parts fun x => by cases x <;> rfl
  · have all_kept := Component.actAll_keeps (P := u.Keeps)
      (fun _ _ _ acted kept => kept.trans (keeps_of_act acted)) u.components (State.Keeps.refl u)
    rw [acted] at all_kept
    have ticked : u.Keeps { v with cycle := s.cycle + 1 } :=
      State.Keeps.trans all_kept (State.keeps_of_same_parts fun x => by cases x <;> rfl)
    exact (keeps_of_deliver delivered).trans ticked

/-! ## The links keep their configuration -/

theorem State.taken_links_cfg (s : State) : s.taken.links.map Link.cfg = s.links.map Link.cfg := by
  simp [State.taken, Function.comp_def, Link.keep]

theorem Component.act_links_cfg {x : Component} {s t : State} (acted : x.act s = .ok t) :
    t.links.map Link.cfg = s.links.map Link.cfg := by
  obtain ⟨-, rfl⟩ | ⟨p, p', sends, -, -, rfl⟩ := x.act_ok acted
  · rw [x.rested_links]
  · rw [commit, State.sendAll_cfg, x.put_links, x.rested_links]

theorem step_modes_topology {s t : State} (stepped : step s = .next t) :
    t.modes = s.modes ∧ t.links.map Link.cfg = s.links.map Link.cfg := by
  obtain ⟨f, rfl⟩ | ⟨-, -, u, v, delivered, acted, rfl⟩ := step_next stepped
  · exact ⟨rfl, rfl⟩
  · obtain ⟨modes, -, -, links⟩ := State.deliver_frame delivered
    have kept := Component.actAll_keeps
      (P := fun w => w.modes = s.modes ∧ w.links.map Link.cfg = s.links.map Link.cfg)
      (fun x _ _ acted same =>
        ⟨(Component.act_modes acted).trans same.1, (Component.act_links_cfg acted).trans same.2⟩)
      u.components ⟨modes, by rw [links, s.taken_links_cfg]⟩
    rw [acted] at kept
    exact kept

/-! ## Reading the lists of components off it -/

/-- What related elements agree in, their lists agree in. -/
theorem map_eq_of_rel {α β : Type} {l l' : List α} {R : α → α → Prop} {f : α → β}
    (rel : ∀ k : Nat, Option.Rel R l[k]? l'[k]?) (same : ∀ a b, R a b → f b = f a) : l'.map f = l.map f := by
  apply List.ext_getElem?
  intro k
  have rel_k := rel k
  rw [List.getElem?_map, List.getElem?_map]
  generalize l[k]? = a, l'[k]? = b at rel_k
  cases rel_k with
  | none => rfl
  | some related => exact congrArg some (same _ _ related)

/-- What holds of every element of a list, and passes to related elements, holds of every element of the other. -/
theorem forall_mem_of_rel {α : Type} {l l' : List α} {R : α → α → Prop} {P : α → Prop}
    (rel : ∀ k : Nat, Option.Rel R l[k]? l'[k]?) (passes : ∀ a b, R a b → P a → P b) (all : ∀ a ∈ l, P a) :
    ∀ b ∈ l', P b := by
  intro b mem
  obtain ⟨k, at_k⟩ := List.mem_iff_getElem?.mp mem
  have rel_k := rel k
  rw [at_k] at rel_k
  cases at_k' : l[k]? with
  | none => rw [at_k'] at rel_k; cases rel_k
  | some a =>
    rw [at_k'] at rel_k
    cases rel_k with
    | some related => exact passes a b related (all a (List.mem_of_getElem? at_k'))

section
variable {s t : State} (kept : s.Keeps t)
include kept

theorem State.Keeps.cores (k : Nat) : Option.Rel Core.Keeps s.cores[k]? t.cores[k]? := kept (.core k)
theorem State.Keeps.cams (j : Nat) : Option.Rel Cam.Keeps s.cams[j]? t.cams[j]? := kept (.cam j)
theorem State.Keeps.mpes (j : Nat) : Option.Rel Mpe.Keeps s.mpes[j]? t.mpes[j]? := kept (.mpe j)
theorem State.Keeps.mmrs (j : Nat) : Option.Rel Mmr.Keeps s.mmrs[j]? t.mmrs[j]? := kept (.mmr j)
theorem State.Keeps.routers (j : Nat) : Option.Rel Router.Keeps s.routers[j]? t.routers[j]? :=
  kept (.router j)

end

/-- Settles O38: every list of components keeps its configurations, and what else is named. -/
theorem configurationNeverChanges : Obligations.ConfigurationNeverChanges := by
  intro s t stepped
  have kept := keeps_of_step stepped
  obtain ⟨modes, topology⟩ := step_modes_topology stepped
  have cores := map_eq_of_rel (f := Core.cfg) kept.cores fun _ _ => Core.Keeps.cfg
  have cams := map_eq_of_rel (f := Cam.cfg) kept.cams fun _ _ same => same.1
  have mpes := map_eq_of_rel (f := Mpe.cfg) kept.mpes fun _ _ same => same.1
  have mmrs := map_eq_of_rel (f := Mmr.cfg) kept.mmrs fun _ _ same => same
  have routers := map_eq_of_rel (f := Router.cfg) kept.routers fun _ _ same => same
  have programs := map_eq_of_rel (f := Core.imem) kept.cores fun _ _ => Core.Keeps.imem
  have thresholds := map_eq_of_rel (f := Cam.rows) kept.cams fun _ _ same => same.2
  refine ⟨?config, programs, thresholds, fun shaped => ⟨?mpe, ?cam⟩⟩
  case config => simp only [State.config, modes, topology, cores, cams, mpes, mmrs, routers]
  case mpe =>
    refine forall_mem_of_rel kept.mpes (fun m m' same rows => ?_) shaped.1
    obtain ⟨cfg, shaped⟩ := same
    rw [cfg]
    exact shaped rows
  case cam =>
    refine forall_mem_of_rel kept.cams (fun c c' same rows => ?_) shaped.2
    obtain ⟨cfg, rows'⟩ := same
    rw [cfg, rows', rows]

/-- Settles O39: the core that had ended is among those the step keeps. -/
theorem endedIsNeverCleared : Obligations.EndedIsNeverCleared := by
  intro s t k c c' stepped at_k at_k' ended
  have kept := (keeps_of_step stepped).cores k
  rw [at_k, at_k'] at kept
  cases kept with
  | some kept => exact kept.ended ended

/-- Settles O40: a core's memory is written by stores and inbound events alone, both of which keep its form. -/
theorem stepKeepsMemoryCanonical : Obligations.StepKeepsMemoryCanonical :=
  fun _ _ canonical stepped =>
    forall_mem_of_rel (keeps_of_step stepped).cores (fun _ _ => Core.Keeps.memory) canonical

/-! ## Reset meets the invariants (R480) -/

theorem Discipline.idle_timely {α : Type} (n L : Nat) : (Discipline.idle : Discipline α).Timely n L :=
  ⟨nofun, fun _ => ⟨rfl, rfl⟩, .nil, by simp [Discipline.idle, DelayQueue.empty]⟩

theorem State.boot_timely (cfg : Config) : (State.boot cfg).Timely where
  cores := List.forall_mem_map.mpr fun _ _ => Discipline.idle_timely ..
  cams := List.forall_mem_map.mpr fun _ _ => Discipline.idle_timely ..
  mpes := List.forall_mem_map.mpr fun _ _ => Discipline.idle_timely ..
  mmrs := List.forall_mem_map.mpr fun _ _ => Discipline.idle_timely ..
  routers := List.forall_mem_map.mpr fun _ _ => ⟨Discipline.idle_timely .., Discipline.idle_timely ..⟩
  links := List.forall_mem_map.mpr fun _ _ => ⟨.nil, by simp⟩

/-- Settles O42: an empty memory is canonical, an idle discipline timely, and the rows are made by their number. -/
theorem bootMeetsInvariants : Obligations.BootMeetsInvariants :=
  fun cfg => ⟨List.forall_mem_map.mpr fun _ _ => Memory.wf_nil _, State.boot_timely cfg,
    List.forall_mem_map.mpr fun _ _ => List.length_replicate, List.forall_mem_map.mpr fun _ _ => rfl⟩

end Sys2Proof.Machine
end

section
/-! PROOFS. Every step keeps links and busy disciplines timely (40_delay_queue.md R155, R160, R161, R164, R166): what a
discipline is between delivery and its tick, and the host step component by component. -/

namespace Sys2Proof.Machine

/-! ## A discipline between delivery and its tick -/

/-- A discipline of latency L during cycle n: busy exactly when it holds one completion, due at most L cycles on;
requests in order of ready cycles, all ready. -/
structure Discipline.Pending {α : Type} (d : Discipline α) (n L : Nat) : Prop where
  busy : d.busy = true → ∃ r req, d.doneq.items = [(r, req)] ∧ r ≤ n + L
  idle : d.busy = false → d.doneq.items = []
  sorted : d.inq.Sorted
  ready : ∀ e ∈ d.inq.items, e.1 ≤ n

namespace Discipline
variable {α : Type} {d : Discipline α} {n L : Nat}

theorem Timely.pending (timely : d.Timely n L) : d.Pending n L := by
  obtain ⟨busy, idle, sorted, past⟩ := timely
  refine ⟨fun is_busy => ?_, fun is_idle => (idle is_idle).1, sorted, fun e mem => (past e mem).le⟩
  obtain ⟨r, req, items, -, soon⟩ := busy is_busy
  exact ⟨r, req, items, soon.le⟩

/-- After its tick a discipline waits for the next one. -/
theorem Timely.pending_of_succ (timely : d.Timely (n + 1) L) : d.Pending n L := by
  obtain ⟨busy, idle, sorted, past⟩ := timely
  refine ⟨fun is_busy => ?_, fun is_idle => (idle is_idle).1, sorted, fun e mem => Nat.le_of_lt_succ (past e mem)⟩
  obtain ⟨r, req, items, -, soon⟩ := busy is_busy
  exact ⟨r, req, items, by omega⟩

theorem Pending.regular (pending : d.Pending n L) : d.Regular := by
  refine ⟨fun is_busy => ?_, pending.idle⟩
  obtain ⟨r, req, items, -⟩ := pending.busy is_busy
  exact ⟨(r, req), items⟩

theorem Pending.enqueue (pending : d.Pending n L) (req : α) : (d.enqueue n req).Pending n L := by
  refine ⟨pending.busy, pending.idle, DelayQueue.pushChained_sorted pending.sorted .., ?_⟩
  rw [enqueue_inq, DelayQueue.pushChained_items]
  refine List.forall_mem_append.mpr ⟨pending.ready, List.forall_mem_singleton.mpr ?_⟩
  cases last : d.inq.lastReady with
  | none => exact n.le_refl
  | some r =>
    obtain ⟨e, last_e, rfl⟩ := Option.map_eq_some_iff.mp last
    exact pending.ready e (List.mem_of_getLast? last_e)

theorem Pending.released (pending : d.Pending n L) : (d.released n).Pending n L := by
  cases due : d.dueNow n with
  | none => rwa [released_of_not_due due]
  | some req =>
    rw [released_of_due due]
    exact ⟨nofun, fun _ => rfl, pending.sorted, pending.ready⟩

/-- With nothing left that is due, acceptance makes a discipline timely for the next cycle. -/
theorem Pending.accepted_timely (pending : d.Pending n L) (latency_pos : 0 < L) (not_due : d.dueNow n = none) :
    (d.accepted n L).Timely (n + 1) L := by
  cases busy : d.busy with
  | true =>
    obtain ⟨r, req, items, soon⟩ := pending.busy busy
    have later : n < r := by simpa [dueNow, busy, items] using not_due
    rw [accepted_of_busy busy]
    exact ⟨fun _ => ⟨r, req, items, later, by omega⟩, fun idle => by simp [busy] at idle, pending.sorted,
      fun e mem => Nat.lt_succ_of_le (pending.ready e mem)⟩
  | false =>
    rcases waiting : d.inq.items with _ | ⟨⟨r, req⟩, rest⟩
    · have same : d.accepted n L = d := by simp [accepted, busy, waiting]
      rw [same]
      exact ⟨fun is_busy => by simp [busy] at is_busy, fun _ => ⟨pending.idle busy, waiting⟩, pending.sorted,
        by simp [waiting]⟩
    · have ready := pending.ready
      have sorted := pending.sorted
      rw [DelayQueue.Sorted, waiting] at sorted
      rw [waiting] at ready
      have taken : d.accepted n L =
          ⟨true, ⟨rest, d.inq.nextAvail⟩, ⟨[(n + L, req)], d.doneq.nextAvail⟩⟩ := by
        simp [accepted, busy, waiting, show r ≤ n from ready (r, req) List.mem_cons_self]
      rw [taken]
      exact ⟨fun _ => ⟨n + L, req, rfl, by omega, by omega⟩, nofun, (List.pairwise_cons.mp sorted).2,
        fun e mem => Nat.lt_succ_of_le (ready e (List.mem_cons_of_mem _ mem))⟩

theorem Pending.afterTick_timely (pending : d.Pending n L) (latency_pos : 0 < L) :
    (d.afterTick n L).Timely (n + 1) L :=
  pending.released.accepted_timely latency_pos (d.released_not_due n)

theorem Pending.serve_timely (pending : d.Pending n L) (latency_pos : 0 < L) :
    (d.serve n L).2.Timely (n + 1) L := by
  rw [serve_eq pending.regular]
  exact pending.afterTick_timely latency_pos

end Discipline

/-! ## The same of a component's part -/

/-- The disciplines of a component's part are timely at cycle n. -/
def Component.Timely (n : Nat) : (x : Component) → x.Part → Prop
  | core _, c => (Core.rx c).Timely n (Core.cfg c).rxLatency
  | cam _, c => (Cam.disc c).Timely n (Cam.cfg c).latency
  | mpe _, m => (Mpe.disc m).Timely n (Mpe.cfg m).latency
  | mmr _, m => (Mmr.disc m).Timely n (Mmr.cfg m).latency
  | router _, r => (Router.up r).Timely n (Router.cfg r).latencyUp ∧ (Router.down r).Timely n (Router.cfg r).latencyDown

/-- The latencies of a component's part are at least one cycle (R8). -/
def Component.LatencyPos : (x : Component) → x.Part → Prop
  | core _, c => 0 < (Core.cfg c).rxLatency
  | cam _, c => 0 < (Cam.cfg c).latency
  | mpe _, m => 0 < (Mpe.cfg m).latency
  | mmr _, m => 0 < (Mmr.cfg m).latency
  | router _, r => 0 < (Router.cfg r).latencyUp ∧ 0 < (Router.cfg r).latencyDown

/-- The disciplines of a component's part await their tick of cycle n. -/
def Component.Pending (n : Nat) : (x : Component) → x.Part → Prop
  | core _, c => (Core.rx c).Pending n (Core.cfg c).rxLatency
  | cam _, c => (Cam.disc c).Pending n (Cam.cfg c).latency
  | mpe _, m => (Mpe.disc m).Pending n (Mpe.cfg m).latency
  | mmr _, m => (Mmr.disc m).Pending n (Mmr.cfg m).latency
  | router _, r =>
    (Router.up r).Pending n (Router.cfg r).latencyUp ∧ (Router.down r).Pending n (Router.cfg r).latencyDown

namespace Component
variable {x : Component} {n : Nat} {p p' : x.Part}

theorem Timely.pending (timely : x.Timely n p) : x.Pending n p := by
  cases x with
  | core k | cam j | mpe j | mmr j => exact Discipline.Timely.pending timely
  | router j => exact ⟨timely.1.pending, timely.2.pending⟩

theorem Timely.pending_of_succ (timely : x.Timely (n + 1) p) : x.Pending n p := by
  cases x with
  | core k | cam j | mpe j | mmr j => exact Discipline.Timely.pending_of_succ timely
  | router j => exact ⟨timely.1.pending_of_succ, timely.2.pending_of_succ⟩

theorem Keeps.latencyPos (kept : x.Keeps p p') (pos : x.LatencyPos p) : x.LatencyPos p' := by
  cases x with
  | core k => rw [LatencyPos, Core.Keeps.cfg kept]; exact pos
  | cam j => rw [LatencyPos, show Cam.cfg p' = Cam.cfg p from kept.1]; exact pos
  | mpe j => rw [LatencyPos, show Mpe.cfg p' = Mpe.cfg p from kept.1]; exact pos
  | mmr j => rw [LatencyPos, show Mmr.cfg p' = Mmr.cfg p from kept]; exact pos
  | router j => rw [LatencyPos, show Router.cfg p' = Router.cfg p from kept]; exact pos

end Component

/-- A handler queues a request ready at once, or does not meet the disciplines. -/
theorem Component.handle_pending {dst : InPort} {ev : Event} {n : Nat} {p p' : (ofIn dst).Part}
    (handled : handle dst ev n p = .ok p') (pending : (ofIn dst).Pending n p) : (ofIn dst).Pending n p' := by
  cases dst
  case rx | camReq | mpeReq | mmrReq => cases handled; exact Discipline.Pending.enqueue pending _
  case camData =>
    change Cam.latchQuery p ev.payload = .ok p' at handled
    unfold Cam.latchQuery at handled
    split at handled
    · cases handled; exact pending
    · cases handled
  case mmrData =>
    change Mmr.latchHalves p ev.payload = .ok p' at handled
    unfold Mmr.latchHalves at handled
    split at handled
    · cases handled; exact pending
    · cases handled
  case mpeData | childUp => cases handled; exact pending
  case parentDown => cases handled; exact ⟨pending.1, pending.2.enqueue _⟩

/-! ## The ticks of the parts -/

theorem Core.stageStep_rx {env : StageEnv} {st : Stage} {c : Core} {o : StageOut}
    (stepped : Core.stageStep env st c = .ok o) : o.core.rx = c.rx := by
  unfold Core.stageStep at stepped
  split at stepped
  case isTrue => exact ((formStages_kept _ _).fn st env c o stepped).rx
  case isFalse => cases stepped; rfl

theorem Core.fetch_rx {m : Modes} {c : Core} {o : StageOut}
    (stepped : CoreStep.ofUpdate (·.fetch m) c = .ok o) : o.core.rx = c.rx := by
  obtain ⟨c', fetched, rfl⟩ := exists_of_map_eq_ok stepped
  change c.fetch m = .ok c' at fetched
  unfold Core.fetch at fetched
  split at fetched
  case isTrue => cases fetched; rfl
  case isFalse =>
    split at fetched
    case h_1 => cases fetched
    case h_2 => cases fetched; rfl

/-- Only its first step, the receive, meets the core's discipline. -/
theorem Core.tick_rx {c : Core} {env : StageEnv} {n : Nat} {o : StageOut} (regular : c.rx.Regular)
    (ticked : c.tick env n = .ok o) : o.core.rx = c.rx.afterTick n c.cfg.rxLatency := by
  obtain ⟨o1, received, later⟩ := CoreStep.inTurn_cons_ok ticked
  obtain ⟨c1, stepped, rfl⟩ := exists_of_map_eq_ok received
  obtain ⟨m, rfl⟩ := Core.rxStep_ok regular stepped
  obtain rfl | ⟨o2, others, same⟩ := later
  · rfl
  · rw [same]
    refine CoreStep.inTurn_rel (R := fun a b => b.rx = a.rx) (fun _ => rfl) (fun first second => second.trans first)
      ?_ _ o2 others
    simp only [List.forall_mem_cons]
    exact ⟨fun _ _ => Core.stageStep_rx, fun _ _ => Core.stageStep_rx, fun _ _ => Core.stageStep_rx,
      fun _ _ => Core.stageStep_rx, fun _ _ => Core.fetch_rx, by simp⟩

theorem Router.upComplete_ok {r r' : Router} {j n : Nat} {sends : List (RouterPort × Event)} (regular : r.up.Regular)
    (completed : r.upComplete j n = .ok (r', sends)) :
    ∃ draws, r' = { r with up := r.up.released n, nanDraws := draws } := by
  cases due : r.up.dueNow n with
  | none =>
    rw [Router.upComplete_of_not_due j due] at completed
    cases completed
    exact ⟨r.nanDraws, by rw [Discipline.released_of_not_due due]⟩
  | some g =>
    rw [Router.upComplete_of_due j regular due] at completed
    exact Router.aggregate_ok j _ completed

/-- Queueing neither makes a completion due nor unsettles a pending discipline. -/
theorem Discipline.Pending.enqueueAll {α : Type} {d : Discipline α} {n L : Nat} (pending : d.Pending n L)
    (not_due : d.dueNow n = none) (reqs : List α) :
    (reqs.foldl (fun d req => d.enqueue n req) d).Pending n L ∧
      (reqs.foldl (fun d req => d.enqueue n req) d).dueNow n = none := by
  induction reqs generalizing d with
  | nil => exact ⟨pending, not_due⟩
  | cons req reqs ih => exact ih (pending.enqueue req) not_due

/-- A router's tick is a tick of both its directions, the scan's groups queued in between. -/
theorem Router.tick_timely {mode : RouterGrouping} {j n : Nat} {r r' : Router} {sends : List (RouterPort × Event)}
    (ticked : Router.tick mode j r n = .ok (r', sends)) (up : r.up.Pending n r.cfg.latencyUp)
    (down : r.down.Pending n r.cfg.latencyDown) (up_pos : 0 < r.cfg.latencyUp) (down_pos : 0 < r.cfg.latencyDown) :
    r'.up.Timely (n + 1) r.cfg.latencyUp ∧ r'.down.Timely (n + 1) r.cfg.latencyDown := by
  cases completed : r.upComplete j n with
  | error f => rw [Router.tick_of_upComplete_error mode completed] at ticked; cases ticked
  | ok q =>
    obtain ⟨r1, sends⟩ := q
    obtain ⟨draws, rfl⟩ := Router.upComplete_ok up.regular completed
    rw [Router.tick_of_upComplete_ok mode completed (Discipline.released_regular up.regular) down.regular] at ticked
    cases ticked
    obtain ⟨scanned, not_due⟩ := up.released.enqueueAll (r.up.released_not_due n) (groupScan mode r.scanList)
    exact ⟨scanned.accepted_timely up_pos not_due, down.afterTick_timely down_pos⟩

theorem Component.advance_timely {x : Component} {m : Modes} {n : Nat} {p p' : x.Part}
    {sends : List (OutPort × Event)} (own : x.advance m n p = .ok (p', sends)) (pending : x.Pending n p)
    (pos : x.LatencyPos p) : x.Timely (n + 1) p' := by
  cases x <;> (
    obtain ⟨q, ticked, same⟩ := exists_of_map_eq_ok own
    cases same)
  case core k =>
    rw [Timely, Core.tick_rx (Discipline.Pending.regular pending) ticked, (Core.tick_keeps ticked).cfg]
    exact Discipline.Pending.afterTick_timely pending pos
  case cam j =>
    obtain ⟨cfg, -, disc⟩ := Cam.tick_ok ticked
    rw [Timely, disc, cfg]
    exact Discipline.Pending.serve_timely pending pos
  case mpe j =>
    obtain ⟨cfg, -, disc⟩ := Mpe.tick_ok ticked
    rw [Timely, disc, cfg]
    exact Discipline.Pending.serve_timely pending pos
  case mmr j =>
    obtain ⟨cfg, disc⟩ := Mmr.tick_ok ticked
    rw [Timely, disc, cfg]
    exact Discipline.Pending.serve_timely pending pos
  case router j =>
    rw [Timely, Router.tick_cfg ticked]
    exact Router.tick_timely ticked pending.1 pending.2 pos.1 pos.2

/-! ## Links (R160, R161) -/

/-- A link in which everything is ahead of cycle n, with a latency of at least one cycle. -/
def Link.Ahead (n : Nat) (l : Link) : Prop := 0 < l.cfg.latency ∧ l.Timely (n + 1)

/-- What delivery leaves on a link is ahead. -/
theorem Link.keep_ahead {l : Link} {n : Nat} (timely : l.Timely n) (latency_pos : 0 < l.cfg.latency) :
    (l.keep n).Ahead n := by
  obtain ⟨ordered, window⟩ := timely
  refine ⟨latency_pos, ordered.sublist List.filter_sublist, fun e mem => ?_⟩
  obtain ⟨travels, not_due⟩ := List.mem_filter.mp mem
  have later : n < e.1 := by simpa using not_due
  have soon := (window e travels).2
  exact ⟨later, soon.trans (Nat.add_lt_add_right n.lt_succ_self _)⟩

/-- An event sent in cycle n goes behind what travels on the link. -/
theorem Link.send_ahead {l : Link} {n : Nat} (ahead : l.Ahead n) (ev : Event) :
    Link.Ahead n { l with queue := l.queue ++ [(n + l.cfg.latency, ev)] } := by
  obtain ⟨latency_pos, ordered, window⟩ := ahead
  refine ⟨latency_pos, List.pairwise_append.mpr ⟨ordered, List.pairwise_singleton .., fun a mem b same => ?_⟩,
    List.forall_mem_append.mpr ⟨window, List.forall_mem_singleton.mpr ?_⟩⟩
  · rw [List.mem_singleton.mp same]
    have soon := (window a mem).2
    dsimp only
    omega
  · dsimp only
    omega

theorem sendOn_ahead {n : Nat} {port : OutPort} {ev : Event} {ls : List Link} (ahead : ∀ l ∈ ls, l.Ahead n) :
    ∀ l ∈ sendOn n port ev ls, l.Ahead n := by
  induction ls with
  | nil => exact ahead
  | cons l ls ih =>
    obtain ⟨first, later⟩ := List.forall_mem_cons.mp ahead
    rw [sendOn]
    split
    case isTrue => exact List.forall_mem_cons.mpr ⟨Link.send_ahead first ev, later⟩
    case isFalse => exact List.forall_mem_cons.mpr ⟨first, ih later⟩

theorem State.sendAll_ahead {s : State} {n : Nat} (cycle : s.cycle = n) (evs : List (OutPort × Event))
    (ahead : ∀ l ∈ s.links, l.Ahead n) : ∀ l ∈ (s.sendAll evs).links, l.Ahead n := by
  induction evs generalizing s with
  | nil => exact ahead
  | cons e evs ih => exact ih (s := s.send e.1 e.2) cycle (by subst cycle; exact sendOn_ahead ahead)

/-! ## The host step, component by component -/

/-- A system in cycle n with some components left to tick: every link ahead, every component pending, those that have
ticked timely for the next cycle. -/
structure State.Ticking (n : Nat) (left : List Component) (s : State) : Prop where
  cycle : s.cycle = n
  links : ∀ l ∈ s.links, l.Ahead n
  parts : ∀ (x : Component) p, x.part? s = some p →
    x.LatencyPos p ∧ x.Pending n p ∧ (x ∉ left → x.Timely (n + 1) p)

/-- After a component's act, a part is the one it left or that of another component as it was. -/
theorem State.Ticking.act {n : Nat} {x : Component} {left : List Component} {s t : State}
    (ticking : s.Ticking n (x :: left)) (acted : x.act s = .ok t) : t.Ticking n left := by
  have others {y : Component} (ne : y ≠ x) {q : y.Part} (at_y : y.part? t = some q) : y.part? s = some q := by
    rwa [Component.act_part?_of_ne acted ne] at at_y
  have cycle : t.cycle = n := (Component.act_cycle acted).trans ticking.cycle
  have links : ∀ l ∈ t.links, l.Ahead n := by
    obtain ⟨-, rfl⟩ | ⟨p, p', sends, -, -, rfl⟩ := x.act_ok acted
    · rw [x.rested_links]
      exact ticking.links
    · exact State.sendAll_ahead (by simpa using ticking.cycle) sends (by simpa using ticking.links)
  have own : ∀ p', x.part? t = some p' → x.LatencyPos p' ∧ x.Timely (n + 1) p' := by
    intro p' at_x
    obtain ⟨absent, rfl⟩ | ⟨p, p'', sends, present, advanced, rfl⟩ := x.act_ok acted
    · rw [x.part?_rested, absent] at at_x
      cases at_x
    · rw [x.part?_commit_self present] at at_x
      cases at_x
      rw [ticking.cycle] at advanced
      obtain ⟨pos, pending, -⟩ := ticking.parts x p present
      exact ⟨(Component.advance_keeps advanced).latencyPos pos, Component.advance_timely advanced pending pos⟩
  refine ⟨cycle, links, fun y q at_y => ?_⟩
  by_cases same : y = x
  · subst same
    obtain ⟨pos, timely⟩ := own q at_y
    exact ⟨pos, timely.pending_of_succ, fun _ => timely⟩
  · obtain ⟨pos, pending, timely⟩ := ticking.parts y q (others same at_y)
    exact ⟨pos, pending, fun not_left => timely (by simp [same, not_left])⟩

theorem State.Ticking.actAll {n : Nat} {left : List Component} {s t : State} (ticking : s.Ticking n left)
    (acted : Component.actAll left s = ([], t)) : t.Ticking n [] := by
  induction left generalizing s with
  | nil => cases acted; exact ticking
  | cons x left ih =>
    rw [Component.actAll] at acted
    cases acted_x : x.act s with
    | ok u => rw [acted_x] at acted; exact ih (ticking.act acted_x) acted
    | error f => rw [acted_x] at acted; cases acted

/-! ## The latencies of a configuration that is not refused (R8, R9) -/

theorem failing_eq_nil {ok : Bool} {p : ConfigProblem} : failing ok p = [] ↔ ok = true := by
  cases ok <;> simp [failing]

theorem problemsOf_eq_nil {α : Type} {check : Nat → α → List ConfigProblem} {l : List α}
    (none_failing : problemsOf check l = []) {j : Nat} {a : α} (at_j : l[j]? = some a) : check j a = [] := by
  rw [problemsOf, List.flatMap_eq_nil_iff] at none_failing
  exact none_failing (a, j) (List.mem_zipIdx_iff_getElem?.mpr at_j)

section
variable {s : State} (no_problem : s.problem = none)
include no_problem

theorem State.problems_eq_nil :
    problemsOf coreProblems (s.cores.map Core.cfg) = [] ∧ problemsOf camProblems (s.cams.map Cam.cfg) = [] ∧
      problemsOf mpeProblems (s.mpes.map Mpe.cfg) = [] ∧ problemsOf mmrProblems (s.mmrs.map Mmr.cfg) = [] ∧
        problemsOf routerProblems (s.routers.map Router.cfg) = [] ∧
          problemsOf linkProblems (s.links.map Link.cfg) = [] := by
  have none_listed := configProblem_eq_none.mp no_problem
  simp only [configProblems, State.config, List.append_eq_nil_iff] at none_listed
  obtain ⟨⟨⟨⟨⟨⟨cores, cams⟩, mpes⟩, mmrs⟩, routers⟩, links⟩, -⟩ := none_listed
  exact ⟨cores, cams, mpes, mmrs, routers, links⟩

theorem State.latencyPos_of_problem_none {x : Component} {p : x.Part} (present : x.part? s = some p) :
    x.LatencyPos p := by
  obtain ⟨cores, cams, mpes, mmrs, routers, -⟩ := State.problems_eq_nil no_problem
  have configured {α β : Type} {f : α → β} {l : List α} {j : Nat} {a : α} (at_j : l[j]? = some a) :
      (l.map f)[j]? = some (f a) := by rw [List.getElem?_map, at_j, Option.map_some]
  cases x with
  | core k =>
    have checked := problemsOf_eq_nil cores (configured present)
    simp_all [coreProblems, failing_eq_nil, Component.LatencyPos]
  | cam j =>
    have checked := problemsOf_eq_nil cams (configured present)
    simp_all [camProblems, failing_eq_nil, Component.LatencyPos]
  | mpe j =>
    have checked := problemsOf_eq_nil mpes (configured present)
    simp_all [mpeProblems, failing_eq_nil, Component.LatencyPos]
  | mmr j =>
    have checked := problemsOf_eq_nil mmrs (configured present)
    simp_all [mmrProblems, failing_eq_nil, Component.LatencyPos]
  | router j =>
    have checked := problemsOf_eq_nil routers (configured present)
    simp_all [routerProblems, failing_eq_nil, Component.LatencyPos]

theorem State.link_latency_pos {l : Link} (mem : l ∈ s.links) : 0 < l.cfg.latency := by
  obtain ⟨-, -, -, -, -, links⟩ := State.problems_eq_nil no_problem
  obtain ⟨j, at_j⟩ := List.mem_iff_getElem?.mp (List.mem_map_of_mem (f := Link.cfg) mem)
  simpa [linkProblems, failing_eq_nil] using problemsOf_eq_nil links at_j

end

/-! ## Delivery before the ticks, the next cycle after them -/

theorem State.mem_components {s : State} {x : Component} {p : x.Part} (present : x.part? s = some p) :
    x ∈ s.components := by
  cases x <;> (
    obtain ⟨inside, -⟩ := List.getElem?_eq_some_iff.mp present
    simp [State.components, inside])

theorem State.Timely.part {s : State} (timely : s.Timely) {x : Component} {p : x.Part} (present : x.part? s = some p) :
    x.Timely s.cycle p := by
  cases x with
  | core k => exact timely.cores p (List.mem_of_getElem? present)
  | cam j => exact timely.cams p (List.mem_of_getElem? present)
  | mpe j => exact timely.mpes p (List.mem_of_getElem? present)
  | mmr j => exact timely.mmrs p (List.mem_of_getElem? present)
  | router j => exact timely.routers p (List.mem_of_getElem? present)

/-- Handing over one event keeps every part pending. -/
theorem deliverOne_pending {dst : InPort} {ev : Event} {s t : State} {n : Nat} (cycle : s.cycle = n)
    (delivered : deliverOne dst ev s = .ok t)
    (parts : ∀ (x : Component) p, x.part? s = some p → x.LatencyPos p ∧ x.Pending n p) :
    ∀ (x : Component) p, x.part? t = some p → x.LatencyPos p ∧ x.Pending n p := by
  obtain rfl | ⟨p, p', present, handled, rfl⟩ := deliverOne_ok delivered
  · exact parts
  · intro y q at_y
    by_cases same : y = Component.ofIn dst
    · subst same
      rw [Component.part?_put_self _ present] at at_y
      cases at_y
      obtain ⟨pos, pending⟩ := parts _ p present
      rw [cycle] at handled
      exact ⟨(Component.handle_keeps handled).latencyPos pos, Component.handle_pending handled pending⟩
    · rw [Component.part?_put_of_ne same] at at_y
      exact parts y q at_y

/-- A delivered system, before any tick. -/
theorem State.Timely.deliver {s t : State} (timely : s.Timely) (no_problem : s.problem = none)
    (delivered : s.deliver = ([], t)) : t.Ticking s.cycle t.components := by
  obtain ⟨-, cycle, -, links⟩ := State.deliver_frame delivered
  have taken_parts (x : Component) (p : x.Part) (present : x.part? s.taken = some p) :
      x.LatencyPos p ∧ x.Pending s.cycle p := by
    have present_before : x.part? s = some p := by cases x <;> exact present
    exact ⟨State.latencyPos_of_problem_none no_problem present_before, (timely.part present_before).pending⟩
  have delivered_parts : t.cycle = s.cycle ∧ ∀ (x : Component) p, x.part? t = some p →
      x.LatencyPos p ∧ x.Pending s.cycle p :=
    handOver_keeps (P := fun u => u.cycle = s.cycle ∧ ∀ (x : Component) p, x.part? u = some p →
        x.LatencyPos p ∧ x.Pending s.cycle p)
      (fun _ _ _ _ handed holds =>
        ⟨(deliverOne_cycle handed).trans holds.1, deliverOne_pending holds.1 handed holds.2⟩)
      (State.handOver_of_deliver delivered) ⟨rfl, taken_parts⟩
  refine ⟨cycle, fun l mem => ?_, fun x p present => ?_⟩
  · rw [links] at mem
    obtain ⟨l', mem', rfl⟩ := List.mem_map.mp mem
    exact Link.keep_ahead (timely.links l' mem') (State.link_latency_pos no_problem mem')
  · obtain ⟨pos, pending⟩ := delivered_parts.2 x p present
    exact ⟨pos, pending, fun not_left => absurd (State.mem_components present) not_left⟩

/-- A system that has ticked, one cycle on. -/
theorem State.Ticking.timely_next {n : Nat} {s : State} (ticked : s.Ticking n []) :
    State.Timely { s with cycle := n + 1 } := by
  have part {x : Component} {p : x.Part} (present : x.part? s = some p) : x.Timely (n + 1) p :=
    (ticked.parts x p present).2.2 List.not_mem_nil
  constructor
  case cores =>
    intro c mem
    obtain ⟨k, at_k⟩ := List.mem_iff_getElem?.mp mem
    exact part (x := .core k) at_k
  case cams =>
    intro c mem
    obtain ⟨j, at_j⟩ := List.mem_iff_getElem?.mp mem
    exact part (x := .cam j) at_j
  case mpes =>
    intro m mem
    obtain ⟨j, at_j⟩ := List.mem_iff_getElem?.mp mem
    exact part (x := .mpe j) at_j
  case mmrs =>
    intro m mem
    obtain ⟨j, at_j⟩ := List.mem_iff_getElem?.mp mem
    exact part (x := .mmr j) at_j
  case routers =>
    intro r mem
    obtain ⟨j, at_j⟩ := List.mem_iff_getElem?.mp mem
    exact part (x := .router j) at_j
  case links => exact fun l mem => (ticked.links l mem).2

/-- Settles O41: delivery leaves every discipline pending and every link ahead, and a component's tick makes its own
timely for the next cycle, whatever the order. -/
theorem stepKeepsQueuesTimely : Obligations.StepKeepsQueuesTimely := by
  intro s t timely stepped
  obtain ⟨f, rfl⟩ | ⟨-, no_problem, u, v, delivered, acted, rfl⟩ := step_next stepped
  · exact ⟨timely.cores, timely.cams, timely.mpes, timely.mmrs, timely.routers, timely.links⟩
  · exact ((timely.deliver no_problem delivered).actAll acted).timely_next

end Sys2Proof.Machine
end

section
/-! PROOFS. The encoding of 30_encoding.md: the words of a number, the decoder on an instruction's own record, and which
records are instructions. -/

namespace Sys2Proof

/-! ## The words of a number (R110) -/

theorem wordsToNat_lt (ws : List Word) : wordsToNat ws < 2 ^ (32 * ws.length) := by
  induction ws with
  | nil => exact Nat.one_pos
  | cons w ws ih =>
    have low : w.toNat < 2 ^ 32 := w.isLt
    rw [wordsToNat, List.length_cons, Nat.mul_succ, Nat.add_comm (32 * _), Nat.pow_add]
    nlinarith

/-- The lowest word of a number is its first. -/
theorem wordAt_wordsToNat_zero (w : Word) (ws : List Word) : wordAt (wordsToNat (w :: ws)) 0 = w := by
  apply BitVec.eq_of_toNat_eq
  have low : w.toNat < 2 ^ 32 := w.isLt
  simpa [wordAt, wordsToNat] using low

/-- The words above the lowest are those of the rest. -/
theorem wordAt_wordsToNat_succ (w : Word) (ws : List Word) (k : Nat) :
    wordAt (wordsToNat (w :: ws)) (k + 1) = wordAt (wordsToNat ws) k := by
  have upper : wordsToNat (w :: ws) >>> 32 = wordsToNat ws := by
    have low : w.toNat < 2 ^ 32 := w.isLt
    rw [wordsToNat, Nat.shiftRight_eq_div_pow]
    omega
  rw [wordAt, wordAt, Nat.mul_succ, Nat.add_comm, Nat.shiftRight_add, upper]

theorem map_wordAt_wordsToNat (ws : List Word) : (List.range ws.length).map (wordAt (wordsToNat ws)) = ws := by
  induction ws with
  | nil => rfl
  | cons w ws ih =>
    rw [List.length_cons, List.range_succ_eq_map, List.map_cons, wordAt_wordsToNat_zero, List.map_map]
    exact congrArg _ ((List.map_congr_left fun k _ => wordAt_wordsToNat_succ w ws k).trans ih)

theorem tableWords_words (r : Record) : tableWords 224 (wordsToNat r.words) = r.words := by
  have small : wordsToNat r.words < 2 ^ 224 := wordsToNat_lt r.words
  rw [tableWords, Nat.mod_eq_of_lt small]
  exact map_wordAt_wordsToNat r.words

/-! ## An instruction's own record (R114 to R117) -/

/-- The record of an instruction, whatever its opcode, is that instruction in its class (R117, R124). -/
theorem decodeAs_record (op : Word) (i : Instr) : decodeAs i.cls (i.record op) = .ok i := by
  cases i <;> rfl

@[simp] theorem Instr.record_opcode (op : Word) (i : Instr) : (i.record op).opcode = op := by
  cases i <;> rfl

theorem Modes.classify_defaultOpcode (cls : InstrClass) : Modes.default.classify (defaultOpcode cls) = some cls := by
  cases cls <;> rfl

theorem decodeRecord_of_classify {m : Modes} {r : Record} {cls : InstrClass}
    (classified : m.classify r.opcode = some cls) : decodeRecord m r = decodeAs cls r := by
  rw [decodeRecord, classified]

theorem decodeRecord_of_no_class {m : Modes} {r : Record} (classified : m.classify r.opcode = none) :
    decodeRecord m r = .error .opcode := by
  rw [decodeRecord, classified]

theorem decodeRecord_record {m : Modes} {op : Word} {i : Instr} (classified : m.classify op = some i.cls) :
    decodeRecord m (i.record op) = .ok i := by
  rw [decodeRecord_of_classify (cls := i.cls) (by rwa [Instr.record_opcode]), decodeAs_record]

theorem decode_words {m : Modes} {r : Record} {i : Instr} (decodes : decodeRecord m r = .ok i) :
    decode m r.words = .ok i := by
  have decodes' : decodeRecord m ⟨r.opcode, r.rd, r.rs1, r.rs2, r.imm, r.funct3, r.funct7⟩ = .ok i := decodes
  rw [Record.words, decode, decodes']

end Sys2Proof

namespace Sys2Proof.Machine

/-- Settles O1: the seven words come back from the number, the default opcode has its class back, and the record decodes
to its instruction. -/
theorem encodedInstructionsDecodeBack : Obligations.EncodedInstructionsDecodeBack := by
  intro i
  have decodes : decodeRecord .default (i.record (defaultOpcode i.cls)) = .ok i :=
    decodeRecord_record (Modes.classify_defaultOpcode i.cls)
  rw [decodeTableWord, encode, tableWords_words, decode_words decodes]

/-- Settles O2: the record decodes in the class its opcode is given, if any. -/
theorem anyOpcodeMapDecodesItsRecords : Obligations.AnyOpcodeMapDecodesItsRecords := by
  refine ⟨fun m op i => decodeRecord_record, fun m r unmapped =>
    ⟨fun mode => decodeRecord_of_classify ?opimm, fun mode => decodeRecord_of_no_class ?fault⟩⟩
  case opimm => simp only [Modes.classify, unmapped, mode]
  case fault => simp only [Modes.classify, unmapped, mode]

/-- Settles O4: each record is read off the tables. -/
theorem writtenRecordsDecode : Obligations.WrittenRecordsDecode :=
  ⟨rfl, rfl, rfl, rfl, rfl, rfl, rfl, rfl⟩

/-! ## Which records are instructions (R117, R124) -/

section
variable {cls : InstrClass} {r : Record}

/-- Outside class CUSTOM the funct3 decides; no class lists a funct3 above 4. -/
theorem exists_decodeAs_iff (not_custom : cls ≠ .custom) :
    (∃ i, decodeAs cls r = .ok i) ↔ funct3Listed cls r.funct3.toNat = true := by
  cases cls
  case custom => exact absurd rfl not_custom
  all_goals
    rcases form : r.funct3.toNat with _ | _ | _ | _ | _ | n <;> simp [decodeAs, funct3Listed, form]

/-- In class CUSTOM the funct3 names a device and the device lists the sub-opcode; none lists one above 5. -/
theorem exists_decodeAs_custom_iff :
    (∃ i, decodeAs .custom r = .ok i) ↔
      funct3Listed .custom r.funct3.toNat = true ∧ subopListed r.funct3.toNat r.imm.toNat = true := by
  rcases form : r.funct3.toNat with _ | _ | _ | n <;>
    rcases sub : r.imm.toNat with _ | _ | _ | _ | _ | _ | k <;>
      simp [decodeAs, funct3Listed, subopListed, form, sub]

theorem cls_of_decodeAs {i : Instr} (decodes : decodeAs cls r = .ok i) : i.cls = cls := by
  cases cls
  case fload | fstore | lui | ret => cases decodes; rfl
  all_goals
    dsimp only [decodeAs] at decodes
    split at decodes <;> cases decodes <;> rfl

end

/-- Settles O3: the decoder's cases are the listed values, and each answers an instruction of the class. -/
theorem listedRecordsAreTheInstructions : Obligations.ListedRecordsAreTheInstructions := by
  refine fun cls r => ⟨?_, fun i => cls_of_decodeAs⟩
  by_cases custom : cls = .custom
  · subst custom
    simpa using exists_decodeAs_custom_iff
  · simpa [custom] using exists_decodeAs_iff custom

end Sys2Proof.Machine
end

section
/-! PROOFS. Shifts and loads (42_integer.md R231 to R236, R241, R244, 43_float.md R276): what the stages answer inside
the ranges, what is read, and the faults outside them. -/

namespace Sys2Proof.Machine

/-! ## Shifts (R241, R244) -/

section
variable {amount : Latch → Word} {env : StageEnv} {c : Core}

theorem shiftStage_ok (small : (amount c.er).toNat < 32) :
    shiftStage amount env c =
      .ok { core := c.toMemory { c.er with a := c.er.a <<< (amount c.er).toNat } } :=
  executeStage_ok (if_neg (Nat.not_le_of_lt small))

theorem shiftStage_error (large : 32 ≤ (amount c.er).toNat) :
    shiftStage amount env c = .error ⟨.shiftRange, .shift c.er.ipc (amount c.er)⟩ := by
  simp [shiftStage, executeStage, large]

end

/-- A shift by less than 32 writes its first operand shifted. -/
theorem WritesResult.of_shiftStage {s : State} {k : Nat} {c : Core} {i : Instr} {cls : InstrClass} {u : Uses}
    {rd : Word} {amount : Latch → Word} (accepted : Accepted s k c i)
    (meaning : meaningOf i =
      { decode := decodeStage cls u, execute := shiftStage amount, writeback := writebackX rd })
    (names : destOf i = some (.x, rd)) (dest : u.dest = destOf i)
    (sources : u.rs1.toList ++ u.rs2.toList = sourcesOf i) (small : (amount (c.operands cls u)).toNat < 32) :
    WritesResult i s k c .x rd ((c.operands cls u).a <<< (amount (c.operands cls u)).toNat) :=
  .of_stages accepted meaning names dest sources (shiftStage_ok (c := c.decoded cls u) small) (memoryPass_eq ..)
    (writebackX_eq ..)

/-- Settles O7: both are shifts of rs1, by the immediate and by rs2. -/
theorem shiftsWriteResult : Obligations.ShiftsWriteResult := by
  intro s k c rd rs1 rs2 imm
  rw [← shiftLeft_eq_ofNat_mul_two_pow, ← shiftLeft_eq_ofNat_mul_two_pow]
  constructor
  · intro accepted small
    simpa using WritesResult.of_shiftStage accepted rfl rfl rfl rfl small
  · intro accepted small
    simpa using WritesResult.of_shiftStage accepted rfl rfl rfl rfl (by simpa using small)

/-- Settles O8: the execute stage of a shift checks the whole amount. -/
theorem oversizedShiftsTrap : Obligations.OversizedShiftsTrap :=
  fun s k _ _ _ _ imm at_k =>
    ⟨fun large => exec_stage_error at_k (shiftStage_error (amount := fun _ => imm) (env := ⟨s.modes, k⟩) large),
      fun large => exec_stage_error at_k (shiftStage_error (amount := Latch.b) (env := ⟨s.modes, k⟩) large)⟩

/-! ## Words read from memory (20_memory.md R82) -/

theorem leWord_singleton (b : Byte) : leWord [b] = b.setWidth 32 := by
  simp [leWord]

/-- A byte below the bits of x. -/
theorem setWidth_or_setWidth_shiftLeft {n : Nat} (b : Byte) (x : BitVec n) :
    b.setWidth 32 ||| (x.setWidth 32) <<< 8 = (x ++ b).setWidth 32 := by
  apply BitVec.eq_of_getLsbD_eq
  intro i lt
  by_cases low : i < 8
  · simp [BitVec.getLsbD_append, low, lt]
  · have none_above : b.getLsbD i = false := BitVec.getLsbD_of_ge b i (Nat.le_of_not_lt low)
    simp [BitVec.getLsbD_append, low, lt, none_above]

theorem leWord_four (b0 b1 b2 b3 : Byte) : leWord [b0, b1, b2, b3] = b3 ++ b2 ++ b1 ++ b0 := by
  rw [leWord, leWord, leWord, leWord_singleton, setWidth_or_setWidth_shiftLeft, setWidth_or_setWidth_shiftLeft,
    setWidth_or_setWidth_shiftLeft]
  exact BitVec.setWidth_eq _

theorem Core.memReadWord_byte {c : Core} {a : Nat} (inside : a + 1 ≤ c.dmemSize) :
    c.memReadWord a 1 = .ok ((c.byteAt a).setWidth 32) := by
  rw [Core.memReadWord, Core.memRead_inRange inside]
  exact congrArg _ (leWord_singleton _)

theorem Core.memReadWord_word {c : Core} {a : Nat} (inside : a + 4 ≤ c.dmemSize) :
    c.memReadWord a 4 = .ok (wordFrom c a) := by
  rw [Core.memReadWord, Core.memRead_inRange inside]
  exact congrArg _ (leWord_four ..)

theorem Core.memReadWord_outOfRange {c : Core} {a n : Nat} (outside : c.dmemSize < a + n) :
    c.memReadWord a n = .error ⟨.dmemRange, .address a⟩ := by
  rw [Core.memReadWord, Core.memRead_outOfRange outside]

/-! ## The memory stage of a load (R200, R231, R233 to R236, R276) -/

theorem loadStage_error {compute : Core → Latch → Except FaultRecord Latch} {env : StageEnv} {c : Core}
    {f : FaultRecord} (fault : compute c c.mr = .error f) : loadStage compute env c = .error f := by
  simp only [loadStage, fault]

theorem executePass_eq (env : StageEnv) (c : Core) : executePass env c = .ok { core := c.toMemory c.er } := rfl

theorem writebackF_eq (rd : Word) (env : StageEnv) (c : Core) :
    writebackF rd env c = .ok { core := (c.writeReg .f rd c.wr.fa).retire } := rfl

/-- The memory stage of FLW, as LW's but into `fa`. -/
def loadFloat (imm : Word) : StageFn := loadStage fun c mr =>
  match c.memReadWord (effectiveAddress imm mr).toNat 4 with
  | .ok v => .ok { mr with fa := v }
  | .error f => .error f

section
variable {imm : Word} {n : Nat} {env : StageEnv} {c : Core} {v : Word} {f : FaultRecord}

theorem loadInteger_ok (read : c.memReadWord (c.mr.a + imm).toNat n = .ok v) :
    loadInteger imm n env c = .ok { core := c.toWriteback { c.mr with a := v } } :=
  loadStage_ok (by simp only [effectiveAddress, read])

theorem loadInteger_error (read : c.memReadWord (c.mr.a + imm).toNat n = .error f) :
    loadInteger imm n env c = .error f :=
  loadStage_error (by simp only [effectiveAddress, read])

theorem loadFloat_ok (read : c.memReadWord (c.mr.a + imm).toNat 4 = .ok v) :
    loadFloat imm env c = .ok { core := c.toWriteback { c.mr with fa := v } } :=
  loadStage_ok (by simp only [effectiveAddress, read])

theorem loadFloat_error (read : c.memReadWord (c.mr.a + imm).toNat 4 = .error f) : loadFloat imm env c = .error f :=
  loadStage_error (by simp only [effectiveAddress, read])

end

/-! ## Loads run through -/

section
variable {s : State} {k : Nat} {c : Core} {rd rs1 imm v : Word}

/-- What an integer load reads in memory it writes; the pipeline between does not meet memory. -/
theorem WritesResult.of_loadInteger {i : Instr} {n : Nat} (accepted : Accepted s k c i)
    (meaning : meaningOf i = { decode := decodeStage .load { dest := some (.x, rd), rs1 := some (.x, rs1) },
                               memory := loadInteger imm n, writeback := writebackX rd })
    (names : destOf i = some (.x, rd)) (sources : [(RegFile.x, rs1)] = sourcesOf i)
    (read : c.memReadWord (c.readReg .x rs1 + imm).toNat n = .ok v) : WritesResult i s k c .x rd v :=
  .of_stages accepted meaning names names.symm sources (executePass_eq ..)
    (loadInteger_ok (c := (c.decoded .load ⟨_, _, _⟩).toMemory (c.operands .load ⟨_, _, _⟩)) read) (writebackX_eq ..)

theorem writesResult_flw (accepted : Accepted s k c (.flw rd rs1 imm))
    (read : c.memReadWord (c.readReg .x rs1 + imm).toNat 4 = .ok v) :
    WritesResult (.flw rd rs1 imm) s k c .f rd v :=
  .of_stages (mem := loadFloat imm) accepted rfl rfl rfl rfl (executePass_eq ..)
    (loadFloat_ok (c := (c.decoded .fload ⟨_, _, _⟩).toMemory (c.operands .fload ⟨_, _, _⟩)) read) (writebackF_eq ..)

end

/-- Settles O10: the memory stage reads at the operand plus the immediate, a byte or the four of a word. -/
theorem loadsReadLittleEndianBytes : Obligations.LoadsReadLittleEndianBytes := by
  intro s k c rd rs1 imm
  refine ⟨fun accepted inside => ?_, fun accepted inside => ?_, fun accepted inside => ?_⟩
  · exact WritesResult.of_loadInteger accepted rfl rfl rfl (Core.memReadWord_byte inside)
  · exact WritesResult.of_loadInteger accepted rfl rfl rfl (Core.memReadWord_word inside)
  · exact writesResult_flw accepted (Core.memReadWord_word inside)

/-! ## The gather load (R235, R236) -/

theorem Core.gather_inside {c : Core} {base : Word} {offs : List Byte}
    (inside : ∀ off ∈ offs, (base + off.setWidth 32).toNat + 1 ≤ c.dmemSize) :
    c.gather base offs = .ok (offs.map fun off => c.byteAt (base + off.setWidth 32).toNat) := by
  induction offs with
  | nil => rfl
  | cons off offs ih =>
    obtain ⟨first, rest⟩ := List.forall_mem_cons.mp inside
    rw [Core.gather, Core.memRead_inRange first, ih rest]
    rfl

/-- A gather stops at its first address outside the memory. -/
theorem Core.gather_outside {c : Core} {base : Word} {before after : List Byte} {bad : Byte}
    (inside : ∀ off ∈ before, (base + off.setWidth 32).toNat + 1 ≤ c.dmemSize)
    (outside : c.dmemSize < (base + bad.setWidth 32).toNat + 1) :
    c.gather base (before ++ bad :: after) = .error ⟨.dmemRange, .address (base + bad.setWidth 32).toNat⟩ := by
  induction before with
  | nil => rw [List.nil_append, Core.gather, Core.memRead_outOfRange outside]
  | cons off before ih =>
    obtain ⟨first, rest⟩ := List.forall_mem_cons.mp inside
    rw [List.cons_append, Core.gather, Core.memRead_inRange first, ih rest]

/-- The bytes of a word, by their number. -/
theorem leBytes_eq_map (n : Nat) (w : Word) :
    leBytes n w = (List.range n).map fun j => (w >>> (8 * j)).setWidth 8 := by
  apply List.ext_getElem?
  intro j
  obtain lt | ge := Nat.lt_or_ge j n
  · rw [leBytes_getElem? n j w lt, List.getElem?_map, List.getElem?_range lt, Option.map_some]
  · rw [List.getElem?_eq_none (by simpa using ge), List.getElem?_eq_none (by simpa using ge)]

/-- The four bytes of a gather load. -/
def Core.gathered (c : Core) (base offsets : Word) : List Byte :=
  (List.range 4).map fun j => c.byteAt (gatherAddress base offsets j)

section
variable {imm : Word} {env : StageEnv} {c : Core}

theorem gatherStage_ok (inside : ∀ j, j < 4 → gatherAddress (c.mr.a + imm) c.mr.b j + 1 ≤ c.dmemSize) :
    gatherStage imm env c =
      .ok { core := c.toWriteback { c.mr with a := leWord (c.gathered (c.mr.a + imm) c.mr.b) } } := by
  have gathered : c.gather (effectiveAddress imm c.mr) (leBytes 4 c.mr.b) =
      .ok (c.gathered (c.mr.a + imm) c.mr.b) := by
    rw [leBytes_eq_map, Core.gather_inside, List.map_map]
    · rfl
    · simpa [effectiveAddress, gatherAddress] using inside
  exact loadStage_ok (by simp only [gathered])

theorem gatherStage_error {j : Nat} (lt : j < 4)
    (inside : ∀ i, i < j → gatherAddress (c.mr.a + imm) c.mr.b i + 1 ≤ c.dmemSize)
    (outside : c.dmemSize < gatherAddress (c.mr.a + imm) c.mr.b j + 1) :
    gatherStage imm env c = .error ⟨.dmemRange, .address (gatherAddress (c.mr.a + imm) c.mr.b j)⟩ := by
  have split_at : List.range 4 = List.range j ++ j :: (List.range (3 - j)).map (j + 1 + ·) := by
    rw [show 4 = j + 1 + (3 - j) by omega, List.range_add, List.range_succ, List.append_assoc, List.singleton_append]
  have gathered : c.gather (effectiveAddress imm c.mr) (leBytes 4 c.mr.b) =
      .error ⟨.dmemRange, .address (gatherAddress (c.mr.a + imm) c.mr.b j)⟩ := by
    rw [leBytes_eq_map, split_at, List.map_append, List.map_cons]
    exact Core.gather_outside (by simpa [effectiveAddress, gatherAddress] using inside) outside
  exact loadStage_error (by simp only [gathered])

end

/-- Settles O11: the gathered bytes in order are the bytes of the word written. -/
theorem gatherLoadReadsFourBytes : Obligations.GatherLoadReadsFourBytes := by
  intro s k c rd rs1 rs2 imm accepted inside
  rw [← leWord_four]
  exact .of_stages accepted rfl rfl rfl rfl (executePass_eq ..)
    (gatherStage_ok (c := (c.decoded .load ⟨_, _, _⟩).toMemory (c.operands .load ⟨_, _, _⟩)) inside)
    (writebackX_eq ..)

/-- Settles O12: the gather stops at its first bad byte, and the stage has no other effect. -/
theorem gatherTrapsOnFirstBadByte : Obligations.GatherTrapsOnFirstBadByte :=
  fun s k _ _ _ _ _ _ at_k lt inside outside =>
    exec_stage_error at_k (gatherStage_error (env := ⟨s.modes, k⟩) lt inside outside)

end Sys2Proof.Machine
end

section
/-! PROOFS. Stores, copies and device commands (42_integer.md R237, R238, 43_float.md R277, 44_device_ops.md R300 to
R309, R320 to R328), and the accesses outside the memory (20_memory.md R84). -/

namespace Sys2Proof.Machine

/-! ## What is left in the pipeline -/

/-- What is left when an effect makes e keeps e's registers and bytes. -/
theorem LeftPipeline.same {e c' : Core} (left : LeftPipeline e c') : SameRegisters e c' ∧ SameBytes e c' := by
  obtain ⟨er, mr, wr, -, -, -, rfl⟩ := left
  exact ⟨fun g r => by cases g <;> rfl, fun a => rfl⟩

theorem writebackNothing_eq (env : StageEnv) (c : Core) : writebackNothing env c = .ok { core := c.retire } := rfl

/-- Decoded, handed on twice and retired, an instruction leaves the core with its pipeline registers empty. -/
theorem leftPipeline_retire (c : Core) (cls : InstrClass) (u : Uses) (computed loaded : Latch) (m : Memory) :
    LeftPipeline { c with dmem := m }
      (Core.toWriteback { (c.decoded cls u).toMemory computed with dmem := m } loaded).retire :=
  ⟨_, _, _, rfl, rfl, rfl, rfl⟩

/-- An accepted instruction that execute and memory hand on and writeback retires runs through; what memory wrote and
sent is its effect. -/
theorem runsThrough_of_passing {s : State} {k : Nat} {c : Core} {i : Instr} {cls : InstrClass} {u : Uses}
    {exe mem : StageFn} {computed loaded : Latch} {m : Memory} {sends : List (CorePort × Event)}
    (accepted : Accepted s k c i)
    (meaning : meaningOf i = { decode := decodeStage cls u, execute := exe, memory := mem }) (dest : u.dest = destOf i)
    (sources : u.rs1.toList ++ u.rs2.toList = sourcesOf i)
    (executes : exe ⟨s.modes, k⟩ (c.decoded cls u) = .ok { core := (c.decoded cls u).toMemory computed })
    (loads : mem ⟨s.modes, k⟩ ((c.decoded cls u).toMemory computed) =
      .ok { core := Core.toWriteback { (c.decoded cls u).toMemory computed with dmem := m } loaded, sends := sends }) :
    ∃ c', RunsThrough i k s (((s.focusOn k .writeback).putCore k c').sendAll (coreSends k sends)) ∧
      LeftPipeline { c with dmem := m } c' := by
  have decodes := accepted.decodeStage_eq dest sources cls
  have retires := writebackNothing_eq ⟨s.modes, k⟩
    (Core.toWriteback { (c.decoded cls u).toMemory computed with dmem := m } loaded)
  exact ⟨_, runsThrough_of accepted.core_eq (by rwa [meaning]) (by rwa [meaning]) (by rwa [meaning])
    (by rwa [meaning]), leftPipeline_retire c cls u computed loaded m⟩

/-! ## Stores (R231, R237, R238, R277) -/

/-- The core after bytes were written to its data memory. -/
def Core.stored (c : Core) (a : Nat) (bytes : List Byte) : Core :=
  { c with dmem := Memory.writeList c.cfg.dmemImage c.dmem a bytes }

theorem Core.stored_byteAt_of_lt {c : Core} {a n j : Nat} (v : Word) (lt : j < n) :
    (c.stored a (leBytes n v)).byteAt (a + j) = (v >>> (8 * j)).setWidth 8 := by
  rw [Core.byteAt_writeList c (c.stored a (leBytes n v)) a _ (leBytes n v) rfl rfl, leBytes_length,
    if_pos (by omega), Nat.add_sub_cancel_left, List.getD_eq_getElem?_getD, leBytes_getElem? _ _ _ lt, Option.getD_some]

theorem Core.stored_byteAt_of_outside {c : Core} {a n b : Nat} (v : Word) (outside : b < a ∨ a + n ≤ b) :
    (c.stored a (leBytes n v)).byteAt b = c.byteAt b := by
  rw [Core.byteAt_writeList c (c.stored a (leBytes n v)) a b (leBytes n v) rfl rfl, leBytes_length, if_neg (by omega)]

/-- A store of the n low bytes of an operand writes them at the base plus the immediate. -/
theorem StoresBytes.of_storeStage {s : State} {k : Nat} {c : Core} {i : Instr} {cls : InstrClass} {u : Uses}
    {base imm v : Word} {n : Nat} {value : Latch → Word} (accepted : Accepted s k c i)
    (meaning : meaningOf i = { decode := decodeStage cls u,
                               memory := storeStage (effectiveAddress imm) fun mr => leBytes n (value mr) })
    (dest : u.dest = destOf i) (sources : u.rs1.toList ++ u.rs2.toList = sourcesOf i)
    (addressed : (c.operands cls u).a = base) (carried : value { c.operands cls u with update := true } = v)
    (inside : (base + imm).toNat + n ≤ c.dmemSize) : StoresBytes i s k c (base + imm).toNat n v := by
  subst addressed carried
  have stores := storeStage_ok (address := effectiveAddress imm) (bytes := fun mr => leBytes n (value mr))
    (env := ⟨s.modes, k⟩) (c := (c.decoded cls u).toMemory (c.operands cls u)) (by rw [leBytes_length]; exact inside)
  obtain ⟨c', runs, left⟩ := runsThrough_of_passing accepted meaning dest sources (executePass_eq ..) stores
  obtain ⟨registers, bytes⟩ := left.same
  exact ⟨c', _, runs, left, fun j lt => (bytes _).trans (Core.stored_byteAt_of_lt _ lt),
    fun a outside => (bytes a).trans (Core.stored_byteAt_of_outside _ outside), registers⟩

/-- Settles O13: each is a store of an operand's low bytes, from the integer or the float file. -/
theorem storesWriteTheirBytes : Obligations.StoresWriteTheirBytes :=
  fun _ _ c _ _ _ =>
    ⟨fun accepted => .of_storeStage (value := Latch.b) accepted rfl rfl rfl (c.operands_a ..) rfl,
      fun accepted => .of_storeStage (value := Latch.b) accepted rfl rfl rfl (c.operands_a ..) rfl,
      fun accepted => .of_storeStage (value := Latch.fb) accepted rfl rfl rfl (c.operands_a ..) rfl⟩

/-! ## Accesses outside the memory (R84, R302) -/

/-- Settles O14: the check of the whole range comes before the access, and a faulting stage does nothing else. -/
theorem accessesOutsideMemoryTrap : Obligations.AccessesOutsideMemoryTrap := by
  intro s k c rd rs1 rs2 imm tag at_k
  have load (n : Nat) (outside : c.dmemSize < (c.mr.a + imm).toNat + n) :=
    loadInteger_error (env := ⟨s.modes, k⟩) (imm := imm) (Core.memReadWord_outOfRange outside)
  have store (n : Nat) (value : Latch → Word) (outside : c.dmemSize < (c.mr.a + imm).toNat + n) :=
    storeStage_error (env := ⟨s.modes, k⟩) (address := effectiveAddress imm) (bytes := fun mr => leBytes n (value mr))
      (c := c) (by rwa [leBytes_length])
  constructor
  · simp only [List.forall_mem_cons, List.not_mem_nil, false_implies, implies_true, and_true]
    refine ⟨fun out => ?_, fun out => ?_, fun out => ?_, fun out => ?_, fun out => ?_, fun out => ?_⟩
    · exact exec_stage_error at_k (load 1 out)
    · exact exec_stage_error at_k (load 4 out)
    · exact exec_stage_error at_k (loadFloat_error (env := ⟨s.modes, k⟩) (Core.memReadWord_outOfRange out))
    · exact exec_stage_error at_k (store 1 Latch.b out)
    · exact exec_stage_error at_k (store 4 Latch.b out)
    · exact exec_stage_error at_k (store 4 Latch.fb out)
  · simp only [List.forall_mem_cons, List.not_mem_nil, false_implies, implies_true, and_true]
    refine ⟨fun out => ?_, fun out => ?_, fun out => ?_, fun out => ?_⟩ <;>
      exact exec_stage_error at_k (copyStage_error (env := ⟨s.modes, k⟩) out)

/-! ## What a stage answers in the system (R160, R190) -/

@[simp] theorem State.endTick_false (s : State) : s.endTick false = s := by
  simp [State.endTick]

theorem State.commit_core (s : State) (k : Nat) (st : Stage) (c : Core) :
    (s.focusOn k st).commit { core := c } = (s.focusOn k st).putCore k c :=
  State.endTick_false _

theorem State.commit_sent (s : State) (k : Nat) (st : Stage) (c : Core) (port : CorePort) (ev : Event) :
    (s.focusOn k st).commit { core := c, sends := [(port, ev)] } =
      ((s.focusOn k st).putCore k c).send (.core k port) ev :=
  congrArg (State.send · _ _) (State.endTick_false _)

section
variable {s : State} {k : Nat} {st : Stage} {c : Core} (at_k : s.cores[k]? = some c) (can_run : c.canRun st = true)
include at_k can_run

theorem runStage_ok {o : StageOut}
    (answers : (formStages (c.stageForm s.modes st) (c.stageRecord st)).fn st ⟨s.modes, k⟩ c = .ok o) :
    runStage k st s = .next ((s.focusOn k st).commit o) := by
  rw [runStage_of_canRun at_k can_run, runForm_eq_runStages]
  exact runStages_ok (s := s.focusOn k st) at_k answers

theorem runStage_error {f : FaultRecord}
    (answers : (formStages (c.stageForm s.modes st) (c.stageRecord st)).fn st ⟨s.modes, k⟩ c = .error f) :
    runStage k st s = .next ((s.focusOn k st).raise f) := by
  rw [runStage_of_canRun at_k can_run, runForm_eq_runStages]
  exact runStages_error (s := s.focusOn k st) at_k answers

end

/-! ## Copies (R301 to R306) -/

/-- A copy sends the bytes at its base on its port. -/
theorem SendsBytes.of_copyStage {s : State} {k : Nat} {c : Core} {i : Instr} {rs1 n : Word} {port : CorePort}
    {event : Core → List Byte → Event} {made : List Byte → Event} (accepted : Accepted s k c i)
    (meaning : meaningOf i = { decode := decodeStage .copy { rs1 := some (.x, rs1) },
                               memory := copyStage port n event })
    (dest : none = destOf i) (sources : [(RegFile.x, rs1)] = sourcesOf i)
    (inside : (c.readReg .x rs1).toNat + n.toNat ≤ c.dmemSize)
    (makes : event ((c.decoded .copy { rs1 := some (.x, rs1) }).toMemory
      (c.operands .copy { rs1 := some (.x, rs1) })) = made) :
    SendsBytes i s k c (c.readReg .x rs1).toNat n.toNat port made := by
  subst makes
  have copies := copyStage_ok (port := port) (event := event) (env := ⟨s.modes, k⟩)
    (c := (c.decoded .copy { rs1 := some (.x, rs1) }).toMemory (c.operands .copy { rs1 := some (.x, rs1) })) inside
  obtain ⟨c', runs, left⟩ := runsThrough_of_passing accepted meaning dest sources (executePass_eq ..) copies
  exact ⟨c', _, runs, left, by simp, fun j lt => Memory.readList_getElem? _ _ _ _ _ lt, left.same⟩

/-- Settles O25: each copy is such a stage, with its port and its event. -/
theorem copiesSendTheirBytes : Obligations.CopiesSendTheirBytes :=
  fun _ _ _ _ _ _ _ inside =>
    ⟨fun accepted => .of_copyStage accepted rfl rfl rfl inside rfl,
      fun accepted => .of_copyStage accepted rfl rfl rfl inside rfl,
      fun accepted => .of_copyStage accepted rfl rfl rfl inside rfl,
      fun accepted => .of_copyStage accepted rfl rfl rfl inside rfl⟩

/-! ## Device commands (R194, R195, R308, R320 to R328) -/

/-- A device command dispatches at decode. -/
theorem exists_dispatch_of_custom {i : Instr} (custom : i.cls = .custom) :
    ∃ dev dst sub, (meaningOf i).decode = dispatchStage dev dst sub := by
  cases i
  case camPre | camSrch | mpeRst | mpeLdt | mpeLdb | mpeUpd | mpePack | mpeDec | mmrExt => exact ⟨_, _, _, rfl⟩
  all_goals cases custom

/-- A CUSTOM record that is no instruction lacks a listed sub-opcode or a listed funct3 (R117, R124). -/
theorem decodeAs_custom_error {r : Record} {u : Unlisted} (decodes : decodeAs .custom r = .error u) :
    u = .funct3 .custom ∨ ∃ dev, u = .subop dev := by
  dsimp only [decodeAs] at decodes
  split at decodes <;> cases decodes <;> simp

theorem decodeAs_custom_unlisted_subop {r : Record} {dev : Device} {n : Nat}
    (names : [Device.cam, .mpe, .mmr][n]? = some dev) (form : r.funct3.toNat = n)
    (unlisted : subopListed n r.imm.toNat = false) : decodeAs .custom r = .error (.subop dev) := by
  subst form
  obtain ⟨device, -⟩ := List.getElem?_eq_some_iff.mp names
  simp only [List.length_cons, List.length_nil] at device
  dsimp only [decodeAs]
  split <;> simp_all [subopListed]
  omega

/-- Any CUSTOM record is held while the core stores an inbound event (R195). -/
theorem custom_decode_held {r : Record} {env : StageEnv} {c : Core} (busy : c.rx.busy = true) :
    (formStages (decodeAs .custom r) r).decode env c = .ok { core := c } := by
  cases decodes : decodeAs .custom r with
  | ok i =>
    obtain ⟨dev, dst, sub, dispatches⟩ := exists_dispatch_of_custom (cls_of_decodeAs decodes)
    exact (congrFun (congrFun dispatches env) c).trans (dispatchStage_held busy)
  | error u =>
    obtain rfl | ⟨dev, rfl⟩ := decodeAs_custom_error decodes
    · exact if_pos busy
    · exact dispatchStage_held (env := env) busy

/-- Settles O26: the nine dispatch a command with their sub-opcode, an unlisted sub-opcode goes as it stands. -/
theorem deviceCommandsAreSentAtDecode : Obligations.DeviceCommandsAreSentAtDecode := by
  intro s k c rd idle
  have sent (dev : Device) (dst sub : Word) := dispatchStage_sent (dev := dev) (dst := dst) (sub := sub)
    (env := ⟨s.modes, k⟩) idle
  constructor
  · have command (i : Instr) (dev : Device) (sub : Word)
        (dispatches : (meaningOf i).decode = dispatchStage dev rd sub) (held : Held s k c i) :
        ∃ c', exec i (s.focusOn k .decode) =
            .next (((s.focusOn k .decode).putCore k c').send (.core k (requestPort dev))
              (.a c.dr.record.opcode rd sub [])) ∧
          c' = { c with dr := { c.dr with update := false }, actD := c.actD + 1 } ∧
          SameRegisters c c' ∧ SameBytes c c' := by
      refine ⟨_, ?_, rfl, fun g _ => by cases g <;> rfl, fun _ => rfl⟩
      rw [exec_stage (st := .decode) held.1 ((congrFun (congrFun dispatches _) c).trans (sent dev rd sub)),
        State.commit_sent]
    simp only [List.forall_mem_cons, List.not_mem_nil, false_implies, implies_true, and_true]
    exact ⟨command _ .cam 0 rfl, command _ .cam 1 rfl, command _ .mpe 0 rfl, command _ .mpe 1 rfl,
      command _ .mpe 2 rfl, command _ .mpe 3 rfl, command _ .mpe 4 rfl, command _ .mpe 5 rfl, command _ .mmr 0 rfl⟩
  · have unlisted (n : Nat) (dev : Device) (names : [Device.cam, .mpe, .mmr][n]? = some dev)
        (at_k : s.cores[k]? = some c) (can_run : c.canRun .decode = true)
        (custom : s.modes.classify c.dr.record.opcode = some .custom) (form : c.dr.record.funct3.toNat = n)
        (not_listed : subopListed n c.dr.record.imm.toNat = false) :
        runStage k .decode s =
          .next (((s.focusOn k .decode).putCore k
            { c with dr := { c.dr with update := false }, actD := c.actD + 1 }).send (.core k (requestPort dev))
              (.a c.dr.record.opcode c.dr.record.rd c.dr.record.imm [])) := by
      rw [← State.commit_sent]
      refine runStage_ok at_k can_run ?_
      rw [show c.stageForm s.modes .decode = .error (.subop dev) from
        (decodeRecord_of_classify custom).trans (decodeAs_custom_unlisted_subop names form not_listed)]
      exact sent dev _ _
    simp only [List.forall_mem_cons, List.not_mem_nil, false_implies, implies_true, and_true]
    exact ⟨unlisted 0 .cam rfl, unlisted 1 .mpe rfl, unlisted 2 .mmr rfl⟩

/-- Settles O27: dispatch and the fault of an unlisted funct3 both wait for the store. -/
theorem deviceCommandsAreHeldWhileBusy : Obligations.DeviceCommandsAreHeldWhileBusy := by
  intro s k c rd at_k busy
  have unchanged : (s.focusOn k .decode).commit { core := c } = s.focusOn k .decode :=
    (State.commit_core ..).trans (State.putCore_self at_k)
  constructor
  · have held (i : Instr) (custom : i.cls = .custom) : exec i (s.focusOn k .decode) = .next (s.focusOn k .decode) := by
      obtain ⟨dev, dst, sub, dispatches⟩ := exists_dispatch_of_custom custom
      rw [exec_stage (st := .decode) at_k ((congrFun (congrFun dispatches _) c).trans (dispatchStage_held busy)),
        unchanged]
    simp only [List.forall_mem_cons, List.not_mem_nil, false_implies, implies_true, and_true]
    exact ⟨held _ rfl, held _ rfl, held _ rfl, held _ rfl, held _ rfl, held _ rfl, held _ rfl, held _ rfl, held _ rfl⟩
  · intro can_run custom
    rw [runStage_ok (o := { core := c }) at_k can_run, unchanged]
    rw [show c.stageForm s.modes .decode = decodeAs .custom c.dr.record from decodeRecord_of_classify custom]
    exact custom_decode_held busy

end Sys2Proof.Machine
end

section
/-! PROOFS. Branches and return (42_integer.md R255 to R262): a branch that is not taken, the pipeline reset of one that
is (41_pipeline.md R202), and the return. -/

namespace Sys2Proof.Machine

/-! ## Execute of a branch (R256) -/

section
variable {taken : Word → Word → Bool} {imm : Word} {env : StageEnv} {c : Core}

theorem branchStage_of_not_taken (not_taken : taken c.er.a c.er.b = false) :
    branchStage taken imm env c = .ok { core := c.toMemory c.er } :=
  if_neg (ne_true_of_eq_false not_taken)

theorem branchStage_of_reset {c' : Core} (is_taken : taken c.er.a c.er.b = true)
    (resets : Core.resetPipeline env.modes (branchTarget env.modes c imm) { c with actE := c.actE + 1 } = .ok c') :
    branchStage taken imm env c = .ok { core := c', tickEnded := true } := by
  simp only [branchStage, is_taken, if_true, resets]

theorem branchStage_of_fault {f : FaultRecord} (is_taken : taken c.er.a c.er.b = true)
    (resets : Core.resetPipeline env.modes (branchTarget env.modes c imm) { c with actE := c.actE + 1 } = .error f) :
    branchStage taken imm env c = .error f := by
  simp only [branchStage, is_taken, if_true, resets]

end

/-! ## The pipeline reset (R202) -/

theorem Core.flushLoses_iff (c : Core) : c.flushLoses = true ↔ c.wr.update = true ∧ losesByFlush c.wr.cls := by
  rw [Core.flushLoses, Bool.and_eq_true, losesByFlush]
  cases c.wr.cls <;> simp [InstrClass.dest]

/-- The core a pipeline reset leaves. -/
def Core.flushed (scope : FlushScope) (target : Int) (c : Core) : Core :=
  { c with
    dr := { c.dr with update := false }
    er := { c.er with update := false }
    mr := { c.mr with update := false }
    wr := { c.wr with update := c.wr.update && decide (scope = .younger) }
    pc := target
    fetchHalted := false }

section
variable {m : Modes} {target : Int} {c : Core}

theorem Core.resetPipeline_ok
    (keeps : m.strict = true → m.flushScope = .all → c.wr.update = true → ¬ losesByFlush c.wr.cls) :
    Core.resetPipeline m target c = .ok (c.flushed m.flushScope target) := by
  have no_loss : ¬ (m.strict && decide (m.flushScope = .all) && c.flushLoses) = true := by
    simpa [Core.flushLoses_iff] using keeps
  rw [Core.resetPipeline, if_neg no_loss, Core.flushed]
  cases m.flushScope <;> simp

theorem Core.resetPipeline_error (strict : m.strict = true) (all : m.flushScope = .all)
    (update : c.wr.update = true) (loses : losesByFlush c.wr.cls) :
    Core.resetPipeline m target c = .error ⟨.hazardFlush, .ipc c.wr.ipc⟩ := by
  have loss : (m.strict && decide (m.flushScope = .all) && c.flushLoses) = true := by
    simp [strict, all, (Core.flushLoses_iff c).mpr ⟨update, loses⟩]
  rw [Core.resetPipeline, if_pos loss]

end

/-! ## Branches -/

/-- A branch that is not taken is handed on twice and retired. -/
theorem PassesThrough.of_branchStage {s : State} {k : Nat} {c : Core} {i : Instr} {rs1 rs2 imm : Word}
    {taken : Word → Word → Bool} (accepted : Accepted s k c i)
    (meaning : meaningOf i =
      { decode := decodeStage .branch { rs1 := some (.x, rs1), rs2 := some (.x, rs2) },
        execute := branchStage taken imm })
    (dest : none = destOf i) (sources : [(RegFile.x, rs1), (.x, rs2)] = sourcesOf i)
    (not_taken : taken (c.readReg .x rs1) (c.readReg .x rs2) = false) : PassesThrough i s k c := by
  obtain ⟨c', runs, left⟩ := runsThrough_of_passing (sends := []) accepted meaning dest sources
    (branchStage_of_not_taken not_taken) (memoryPass_eq ..)
  exact ⟨c', runs, left, left.same⟩

/-- Settles O21: BEQ is not taken on unequal, BNE on equal registers. -/
theorem branchNotTakenPassesThrough : Obligations.BranchNotTakenPassesThrough :=
  fun _ _ _ _ _ _ =>
    ⟨fun accepted differ => .of_branchStage accepted rfl rfl rfl (beq_eq_false_iff_ne.mpr differ),
      fun accepted same => .of_branchStage accepted rfl rfl rfl (bne_eq_false_iff_eq.mpr same)⟩

/-- Settles O23: the reset a taken branch makes faults. -/
theorem takenBranchOverPendingWriteTraps : Obligations.TakenBranchOverPendingWriteTraps := by
  intro s k c rs1 rs2 imm at_k strict all update loses
  have resets := Core.resetPipeline_error (m := s.modes) (target := branchTarget s.modes c imm)
    (c := { c with actE := c.actE + 1 }) strict all update loses
  exact ⟨fun same => exec_stage_error (st := .execute) at_k
      (branchStage_of_fault (env := ⟨s.modes, k⟩) (beq_iff_eq.mpr same) resets),
    fun differ => exec_stage_error (st := .execute) at_k
      (branchStage_of_fault (env := ⟨s.modes, k⟩) (bne_iff_ne.mpr differ) resets)⟩

/-- The offset of a branch (R121). -/
theorem branchOffset_eq (imm : Word) :
    branchOffset imm = (if imm.getLsbD 11 then -1 else 1) * (imm.setWidth 8).toNat := by
  rw [branchOffset]
  split <;> simp

theorem branchTarget_eq (m : Modes) (c : Core) (imm : Word) :
    branchTarget m c imm = (if m.branchBase = .fetchPc then c.pc else c.er.ipc) +
      (if imm.getLsbD 11 then -1 else 1) * (imm.setWidth 8).toNat := by
  rw [branchTarget, branchOffset_eq]
  cases m.branchBase <;> rfl

/-- The core a taken branch leaves once decoded and executed. -/
def Core.branched (m : Modes) (imm : Word) (c : Core) (u : Uses) : Core :=
  Core.flushed m.flushScope (branchTarget m (c.decoded .branch u) imm)
    { c.decoded .branch u with actE := c.actE + 1 }

/-- Execute of a decoded branch that is taken puts the reset core and ends the tick. -/
theorem exec_execute_of_taken {s : State} {k : Nat} {c : Core} {i : Instr} {u : Uses} {imm : Word}
    {taken : Word → Word → Bool} (at_k : s.cores[k]? = some c)
    (meaning : meaningOf i = { decode := decodeStage .branch u, execute := branchStage taken imm })
    (is_taken : taken (c.operands .branch u).a (c.operands .branch u).b = true)
    (keeps : s.modes.strict = true → s.modes.flushScope = .all → c.wr.update = true → ¬ losesByFlush c.wr.cls) :
    exec i (((s.focusOn k .decode).commit { core := c.decoded .branch u }).focusOn k .execute) =
      .next (((s.focusOn k .execute).putCore k (c.branched s.modes imm u)).endTick true) := by
  have resets := Core.resetPipeline_ok (m := s.modes) (target := branchTarget s.modes (c.decoded .branch u) imm)
    (c := { c.decoded .branch u with actE := c.actE + 1 }) keeps
  have executes := branchStage_of_reset (env := ⟨s.modes, k⟩) (c := c.decoded .branch u) is_taken resets
  rw [exec_stage (c := c.decoded .branch u) (by simp [getElem?_set_core at_k])
    (by rw [meaning]; simpa using executes)]
  simp [State.commit_eq, State.focusOn, coreSends, State.putCore, State.endTick, Core.branched]

/-- Settles O22: both instructions compare their operands in execute; the target is written out. -/
theorem takenBranchResetsPipeline : Obligations.TakenBranchResetsPipeline := by
  intro s k c rs1 rs2 imm i accepted branch keeps
  obtain ⟨taken, meaning, dest, sources, is_taken⟩ : ∃ taken : Word → Word → Bool,
      meaningOf i = { decode := decodeStage .branch { rs1 := some (.x, rs1), rs2 := some (.x, rs2) },
                      execute := branchStage taken imm } ∧
        none = destOf i ∧ [(RegFile.x, rs1), (.x, rs2)] = sourcesOf i ∧
          taken (c.readReg .x rs1) (c.readReg .x rs2) = true := by
    obtain ⟨rfl, same⟩ | ⟨rfl, differ⟩ := branch
    · exact ⟨_, rfl, rfl, rfl, beq_iff_eq.mpr same⟩
    · exact ⟨_, rfl, rfl, rfl, bne_iff_ne.mpr differ⟩
  have decodes := accepted.decodeStage_eq (u := { rs1 := some (.x, rs1), rs2 := some (.x, rs2) }) dest sources .branch
  refine ⟨_, { c.operands .branch { rs1 := some (.x, rs1), rs2 := some (.x, rs2) } with update := false }, _,
    exec_stage accepted.core_eq (by rwa [meaning]), exec_execute_of_taken accepted.core_eq meaning is_taken keeps, rfl,
    ?_, fun g _ => by cases g <;> rfl, fun _ => rfl⟩
  rw [Core.branched, branchTarget_eq]
  rfl

/-! ## Return (R262) -/

/-- Settles O24: writeback of RET sets `ended`, and nothing before it has an effect. -/
theorem returnRaisesEnded : Obligations.ReturnRaisesEnded := by
  intro s k c accepted
  have decodes := accepted.decodeStage_eq (u := {}) rfl rfl .ret
  have left := leftPipeline_retire { c with ended := true } .ret {} (c.operands .ret {}) (c.operands .ret {}) c.dmem
  exact ⟨_, runsThrough_of (sends := []) accepted.core_eq decodes (executePass_eq ⟨s.modes, k⟩ _)
    (memoryPass_eq ⟨s.modes, k⟩ _) rfl, left, left.same⟩

end Sys2Proof.Machine
end

section
/-! PROOFS. What decode checks (41_pipeline.md R211, R214, R215, 30_encoding.md R112, R119): which register fields
are in use, the fault of each check in its order, and the records whose funct3 or opcode is not listed (R115, R117).
-/

namespace Sys2Proof.Machine

/-! ## The register fields in use (R119) -/

/-- The register a field names, if the field is in use. -/
def Uses.register (u : Uses) : RegField → Option (RegFile × Word)
  | .rd => u.dest
  | .rs1 => u.rs1
  | .rs2 => u.rs2

theorem Uses.mem_badFields {u : Uses} {field : RegField} :
    field ∈ u.badFields ↔ badRegister (u.register field) = true := by
  cases field <;> simp [Uses.badFields, Uses.register]

/-- The reported field is one of the fields out of range, whichever is picked. -/
theorem Uses.badField_mem {u : Uses} {r : Record} {field : RegField} (reported : u.badField r = some field) :
    field ∈ u.badFields := by
  rw [Uses.badField] at reported
  split at reported
  case h_1 => cases reported
  case h_2 f bad => cases reported; simp [bad]
  case h_3 f fs _ bad =>
    cases reported
    rw [bad, List.getD_eq_getElem _ _ (by rw [List.length_cons]; exact Nat.mod_lt _ (Nat.succ_pos _))]
    exact List.getElem_mem _

theorem Uses.badField_eq_none_iff {u : Uses} {r : Record} : u.badField r = none ↔ u.badFields = [] := by
  rw [Uses.badField]
  split <;> simp_all

/-- The fields of u in use are the listed ones, and each names the register the record gives. -/
def Uses.Names (u : Uses) (r : Record) (fields : List RegField) : Prop :=
  ∀ field, (u.register field).map Prod.snd = if field ∈ fields then some (fieldOf r field) else none

theorem Uses.Names.mem_badFields {u : Uses} {r : Record} {fields : List RegField} (names : u.Names r fields)
    {field : RegField} : field ∈ u.badFields ↔ field ∈ fields ∧ 32 ≤ (fieldOf r field).toNat := by
  rw [Uses.mem_badFields]
  have named := names field
  split at named
  case isTrue used =>
    obtain ⟨⟨file, q⟩, at_field, rfl⟩ := Option.map_eq_some_iff.mp named
    simp [at_field, used, badRegister, isRegister]
  case isFalse unused => simp [Option.map_eq_none_iff.mp named, unused, badRegister]

theorem Uses.Names.badFields_eq_nil {u : Uses} {r : Record} {fields : List RegField} (names : u.Names r fields) :
    u.badFields = [] ↔ ∀ field ∈ fields, (fieldOf r field).toNat < 32 := by
  simp [List.eq_nil_iff_forall_not_mem, names.mem_badFields]

/-- The registers u reads, rs1 before rs2. -/
def Uses.sources (u : Uses) : List (RegFile × Word) := u.rs1.toList ++ u.rs2.toList

theorem Core.rawOn_eq_find? (c : Core) (o : Option (RegFile × Word)) :
    c.rawOn o = o.toList.find? fun e => c.pendingWrite e.1 e.2 := by
  cases o with
  | none => rfl
  | some e =>
    rw [Core.rawOn, Option.toList_some, List.find?_singleton]

/-! ## The fault of each check, in the order of R215 -/

section
variable {m : Modes} {c : Core} {u : Uses}

theorem decodeFault_of_badField {field : RegField} (bad : u.badField c.dr.record = some field) :
    decodeFault m c u = some ⟨.regIndex, .regIndex c.dr.ipc field⟩ := by
  rw [decodeFault, bad]

variable (good : u.badFields = []) (strict : m.strict = true)
include good

theorem decodeFault_of_accepted (clear : m.strict = true → u.dest ≠ some (.x, 0) ∧
    ∀ e ∈ u.sources, c.pendingWrite e.1 e.2 = false) : decodeFault m c u = none := by
  have in_range (field : RegField) : badRegister (u.register field) = false := by
    rw [← Bool.not_eq_true, ← Uses.mem_badFields, good]
    exact List.not_mem_nil
  exact decodeFault_none (in_range .rd) (in_range .rs1) (in_range .rs2) (fun strict => (clear strict).1)
    (fun strict r read => (clear strict).2 r (by simp [Uses.sources, read]))
    fun strict r read => (clear strict).2 r (by simp [Uses.sources, read])

include strict

theorem decodeFault_of_writesX0 (x0 : u.dest = some (.x, 0)) : decodeFault m c u = some ⟨.x0Write, .ipc c.dr.ipc⟩ := by
  simp [decodeFault, Uses.badField_eq_none_iff.mpr good, strict, Uses.writesX0, x0]

theorem decodeFault_of_pending (not_x0 : u.dest ≠ some (.x, 0)) {file : RegFile} {q : Word}
    (first : u.sources.find? (fun e => c.pendingWrite e.1 e.2) = some (file, q)) :
    decodeFault m c u = some ⟨.hazardRaw, .register c.dr.ipc file q⟩ := by
  have raw : ((c.rawOn u.rs1).or (c.rawOn u.rs2)) = some (file, q) := by
    rw [← first, Uses.sources, List.find?_append, Core.rawOn_eq_find?, Core.rawOn_eq_find?]
  have writes : u.writesX0 = false := decide_eq_false not_x0
  simp only [decodeFault, Uses.badField_eq_none_iff.mpr good, strict, if_true, writes]
  cases one : c.rawOn u.rs1 <;> simp_all

end

/-! ## Decode of an instruction -/

/-- The registers an instruction uses. -/
def usesOf (i : Instr) : Uses := ⟨destOf i, (sourcesOf i)[0]?, (sourcesOf i)[1]?⟩

theorem usesOf_sources (i : Instr) : (usesOf i).sources = sourcesOf i := by
  cases i <;> rfl

theorem meaningOf_decode {i : Instr} (not_custom : i.cls ≠ .custom) :
    (meaningOf i).decode = decodeStage i.cls (usesOf i) := by
  cases i
  case camPre | camSrch | mpeRst | mpeLdt | mpeLdb | mpeUpd | mpePack | mpeDec | mmrExt => exact absurd rfl not_custom
  all_goals rfl

/-- A decoded instruction uses the registers its record names in the fields of its row. -/
theorem names_of_decodeAs {cls : InstrClass} {r : Record} {i : Instr} (decodes : decodeAs cls r = .ok i) :
    (usesOf i).Names r (fieldsOf i) ∧ i.registerFields = (fieldsOf i).map (fieldOf r) := by
  cases cls
  case fload | fstore | lui | ret => cases decodes; exact ⟨fun field => by cases field <;> rfl, rfl⟩
  all_goals
    dsimp only [decodeAs] at decodes
    split at decodes <;> cases decodes <;> exact ⟨fun field => by cases field <;> rfl, rfl⟩

theorem names_of_held {s : State} {k : Nat} {c : Core} {i : Instr} (held : Held s k c i) :
    (usesOf i).Names c.dr.record (fieldsOf i) ∧ i.registerFields = (fieldsOf i).map (fieldOf c.dr.record) := by
  obtain ⟨-, decodes⟩ := held
  rw [decodeRecord] at decodes
  split at decodes
  · exact names_of_decodeAs decodes
  · cases decodes

/-- The fields an instruction uses name registers exactly when it is well formed (R112). -/
theorem badFields_eq_nil_iff_wf {s : State} {k : Nat} {c : Core} {i : Instr} (held : Held s k c i) :
    (usesOf i).badFields = [] ↔ i.wf = true := by
  obtain ⟨names, fields⟩ := names_of_held held
  simp [names.badFields_eq_nil, Instr.wf, fields, isRegister]

/-- A device command uses no register. -/
theorem not_custom_of_uses {i : Instr} (uses : i.wf = false ∨ destOf i ≠ none ∨ sourcesOf i ≠ []) :
    i.cls ≠ .custom := by
  intro custom
  cases i
  case camPre | camSrch | mpeRst | mpeLdt | mpeLdb | mpeUpd | mpePack | mpeDec | mmrExt =>
    simp [destOf, sourcesOf, Instr.wf, Instr.registerFields] at uses
  all_goals cases custom

theorem traps_of_decodeFault {s : State} {k : Nat} {c : Core} {i : Instr} {f : FaultRecord} (held : Held s k c i)
    (not_custom : i.cls ≠ .custom) (fault : decodeFault s.modes c (usesOf i) = some f) : Traps i s k .decode f :=
  exec_stage_error (st := .decode) held.1 <| by
    rw [Stages.fn_decode, meaningOf_decode not_custom]
    exact decodeStage_error fault

/-- Settles O28: the field reported is one of those in use that are out of range. -/
theorem badRegisterFieldTraps : Obligations.BadRegisterFieldTraps := by
  intro s k c i held not_wf
  obtain ⟨names, -⟩ := names_of_held held
  cases reported : (usesOf i).badField c.dr.record with
  | none =>
    rw [Uses.badField_eq_none_iff, badFields_eq_nil_iff_wf held, not_wf] at reported
    cases reported
  | some field =>
    obtain ⟨used, large⟩ := names.mem_badFields.mp (Uses.badField_mem reported)
    exact ⟨field, used, large,
      traps_of_decodeFault held (not_custom_of_uses (.inl not_wf)) (decodeFault_of_badField reported)⟩

/-- Settles O29: the second check of decode. -/
theorem writeOfX0TrapsUnderStrict : Obligations.WriteOfX0TrapsUnderStrict :=
  fun _ _ _ _ held wf strict x0 =>
    traps_of_decodeFault held (not_custom_of_uses (.inr (.inl (by simp [x0]))))
      (decodeFault_of_writesX0 ((badFields_eq_nil_iff_wf held).mpr wf) strict x0)

/-- Settles O30: the last check of decode. -/
theorem pendingSourceTrapsUnderStrict : Obligations.PendingSourceTrapsUnderStrict := by
  intro s k c i file q held wf strict not_x0 first
  have reads : sourcesOf i ≠ [] := List.ne_nil_of_mem (List.mem_of_find?_eq_some first)
  exact traps_of_decodeFault held (not_custom_of_uses (.inr (.inr reads)))
    (decodeFault_of_pending ((badFields_eq_nil_iff_wf held).mpr wf) strict not_x0 (by rwa [usesOf_sources]))

/-! ## Records whose funct3 or opcode is not listed (R115, R117) -/

/-- The registers a record of a class uses whose funct3 the class does not list. -/
def unlistedUses (cls : InstrClass) (r : Record) : Uses :=
  ⟨classDest cls r, (classSources cls r)[0]?, (classSources cls r)[1]?⟩

theorem unlistedUses_sources (cls : InstrClass) (r : Record) : (unlistedUses cls r).sources = classSources cls r := by
  cases cls <;> rfl

theorem decodeAs_of_unlisted {cls : InstrClass} {r : Record} (unlisted : funct3Listed cls r.funct3.toNat = false) :
    decodeAs cls r = .error (.funct3 cls) := by
  cases cls
  case fload | fstore | lui | ret => cases unlisted
  all_goals
    dsimp only [decodeAs]
    split <;> simp_all [funct3Listed]

section
variable {cls : InstrClass} (r : Record) (row : cls ∈ [InstrClass.copy, .load, .store, .opimm, .op, .fop, .branch])
include row

theorem unlistedUses_names : (unlistedUses cls r).Names r (classFields cls) := by
  simp only [List.mem_cons, List.not_mem_nil, or_false] at row
  rcases row with rfl | rfl | rfl | rfl | rfl | rfl | rfl <;> exact fun field => by cases field <;> rfl

theorem unmappedFunct3_decode : (unmappedFunct3 cls r).decode = decodeStage cls (unlistedUses cls r) := by
  simp only [List.mem_cons, List.not_mem_nil, or_false] at row
  rcases row with rfl | rfl | rfl | rfl | rfl | rfl | rfl <;> rfl

end

/-- The loads, stores and copies among them fault in memory. -/
theorem unmappedFunct3_of_memory {cls : InstrClass} (r : Record) (row : cls ∈ [InstrClass.load, .store, .copy]) :
    (unmappedFunct3 cls r).execute = executePass ∧
      (unmappedFunct3 cls r).memory = unmappedAt .unmappedMemory cls Core.mr := by
  simp only [List.mem_cons, List.not_mem_nil, or_false] at row
  rcases row with rfl | rfl | rfl <;> exact ⟨rfl, rfl⟩

/-- The computing classes among them fault in execute. -/
theorem unmappedFunct3_of_execute {cls : InstrClass} (r : Record)
    (row : cls ∈ [InstrClass.opimm, .op, .fop, .branch]) :
    (unmappedFunct3 cls r).execute = unmappedAt .unmappedExecute cls Core.er := by
  simp only [List.mem_cons, List.not_mem_nil, or_false] at row
  rcases row with rfl | rfl | rfl | rfl <;> rfl

theorem Core.operands_carries (c : Core) (cls : InstrClass) (u : Uses) :
    (c.operands cls u).update = true ∧ (c.operands cls u).cls = cls ∧ (c.operands cls u).record = c.dr.record ∧
      (c.operands cls u).ipc = c.dr.ipc := by
  obtain ⟨d, _ | ⟨_ | _, _⟩, _ | ⟨_ | _, _⟩⟩ := u <;> exact ⟨rfl, rfl, rfl, rfl⟩

section
variable {s : State} {k : Nat} {c : Core} (at_k : s.cores[k]? = some c)
include at_k

/-- Such a record has its class's registers checked at decode and is passed on. -/
theorem runStage_decode_unlisted {cls : InstrClass}
    (row : cls ∈ [InstrClass.copy, .load, .store, .opimm, .op, .fop, .branch]) (can_run : c.canRun .decode = true)
    (classified : s.modes.classify c.dr.record.opcode = some cls)
    (unlisted : funct3Listed cls c.dr.record.funct3.toNat = false) :
    (decodeFault s.modes c (unlistedUses cls c.dr.record) = none →
        runStage k .decode s =
          .next ((s.focusOn k .decode).putCore k (c.decoded cls (unlistedUses cls c.dr.record)))) ∧
      ∀ f, decodeFault s.modes c (unlistedUses cls c.dr.record) = some f →
        runStage k .decode s = .next ((s.focusOn k .decode).raise f) := by
  have stage : (formStages (c.stageForm s.modes .decode) (c.stageRecord .decode)).fn .decode =
      decodeStage cls (unlistedUses cls c.dr.record) := by
    rw [show c.stageForm s.modes .decode = .error (.funct3 cls) from
      (decodeRecord_of_classify classified).trans (decodeAs_of_unlisted unlisted)]
    exact unmappedFunct3_decode _ row
  refine ⟨fun no_fault => ?_, fun f fault => ?_⟩
  · rw [← State.commit_core]
    exact runStage_ok at_k can_run ((congrFun (congrFun stage _) c).trans (decodeStage_ok no_fault))
  · exact runStage_error at_k can_run ((congrFun (congrFun stage _) c).trans (decodeStage_error fault))

theorem runStage_execute_unlisted (can_run : c.canRun .execute = true)
    (unlisted : funct3Listed c.er.cls c.er.funct3.toNat = false) :
    (c.er.cls ∈ [InstrClass.load, .store, .copy] →
      runStage k .execute s = .next ((s.focusOn k .execute).putCore k
        { c with mr := c.er, er := { c.er with update := false }, actE := c.actE + 1 })) ∧
    (c.er.cls ∈ [InstrClass.opimm, .op, .fop, .branch] →
      runStage k .execute s = .next
        ((s.focusOn k .execute).raise ⟨.unmappedExecute, .form c.er.ipc c.er.cls c.er.funct3⟩)) := by
  have form : c.stageForm s.modes .execute = .error (.funct3 c.er.cls) := decodeAs_of_unlisted unlisted
  have holds : c.er.update = true := (Bool.and_eq_true_iff.mp can_run).1
  constructor
  · intro row
    have passed : c.toMemory c.er = { c with mr := c.er, er := { c.er with update := false }, actE := c.actE + 1 } := by
      rw [Core.toMemory, ← holds]
    rw [← State.commit_core, ← passed]
    refine runStage_ok at_k can_run ?_
    rw [form]
    exact congrFun (congrFun (unmappedFunct3_of_memory _ row).1 _) c
  · intro row
    refine runStage_error at_k can_run ?_
    rw [form]
    exact congrFun (congrFun (unmappedFunct3_of_execute _ row) _) c

theorem runStage_memory_unlisted (can_run : c.canRun .memory = true)
    (unlisted : funct3Listed c.mr.cls c.mr.funct3.toNat = false)
    (row : c.mr.cls ∈ [InstrClass.load, .store, .copy]) :
    runStage k .memory s =
      .next ((s.focusOn k .memory).raise ⟨.unmappedMemory, .form c.mr.ipc c.mr.cls c.mr.funct3⟩) := by
  refine runStage_error at_k can_run ?_
  rw [show c.stageForm s.modes .memory = .error (.funct3 c.mr.cls) from decodeAs_of_unlisted unlisted]
  exact congrFun (congrFun (unmappedFunct3_of_memory _ row).2 _) c

end

/-- Settles O32: the stages of a record with an unlisted funct3 are its class's up to the one that faults. -/
theorem unlistedRecordsFaultInTheirStage : Obligations.UnlistedRecordsFaultInTheirStage := by
  intro s k c at_k
  refine ⟨fun cls row can_run classified unlisted => ?_,
    fun can_run row unlisted => (runStage_execute_unlisted at_k can_run unlisted).1 row,
    fun can_run row unlisted => (runStage_execute_unlisted at_k can_run unlisted).2 row,
    fun can_run row unlisted => runStage_memory_unlisted at_k can_run unlisted row,
    fun can_run custom idle unlisted => runStage_error at_k can_run ?_,
    fun can_run unmapped => runStage_error at_k can_run ?_⟩
  case refine_1 =>
    obtain ⟨passes, faults⟩ := runStage_decode_unlisted at_k row can_run classified unlisted
    have names := unlistedUses_names c.dr.record row
    have sources := unlistedUses_sources cls c.dr.record
    refine ⟨fun fits clear => ?_, fun misfit => ?_, fun fits strict x0 => ?_, fun file q fits strict not_x0 first => ?_⟩
    · obtain ⟨update, same_cls, record, ipc⟩ := c.operands_carries cls (unlistedUses cls c.dr.record)
      exact ⟨_, update, same_cls, record, ipc, passes
        (decodeFault_of_accepted (names.badFields_eq_nil.mpr fits) (by rwa [sources]))⟩
    · cases reported : (unlistedUses cls c.dr.record).badField c.dr.record with
      | none => exact absurd (names.badFields_eq_nil.mp (Uses.badField_eq_none_iff.mp reported)) misfit
      | some field =>
        obtain ⟨used, large⟩ := names.mem_badFields.mp (Uses.badField_mem reported)
        exact ⟨field, used, large, faults _ (decodeFault_of_badField reported)⟩
    · exact faults _ (decodeFault_of_writesX0 (names.badFields_eq_nil.mpr fits) strict x0)
    · exact faults _ (decodeFault_of_pending (names.badFields_eq_nil.mpr fits) strict not_x0 (by rwa [sources]))
  case refine_2 =>
    rw [show c.stageForm s.modes .decode = .error (.funct3 .custom) from
      (decodeRecord_of_classify custom).trans (decodeAs_of_unlisted unlisted)]
    exact if_neg (ne_true_of_eq_false idle)
  case refine_3 =>
    rw [show c.stageForm s.modes .decode = .error .opcode from decodeRecord_of_no_class unmapped]
    rfl

end Sys2Proof.Machine
end

section
/-! PROOFS. What each stage may change (10_state.md R30 to R42, 41_pipeline.md R196, R202): the frame of every stage
operation, and of every instruction in every stage. -/

namespace Sys2Proof.Machine

/-! ## The frame of a stage -/

/-- The stages a tick comes to after stage st, in its order (R190): those an instruction in st has left. -/
def Stage.rest : Stage → List Stage
  | .writeback => [.memory, .execute, .decode]
  | .memory => [.execute, .decode]
  | .execute => [.decode]
  | .decode => []

/-- What stage st leaves of its core, and whether it sends: registers and `ended` belong to writeback, data memory to
memory, pc and the halt of fetch to execute, sending to decode and memory. No stage gives work to those behind it. -/
structure StageOwns (st : Stage) (c : Core) (o : StageOut) : Prop where
  registers : st ≠ .writeback → o.core.x = c.x ∧ o.core.f = c.f ∧ o.core.ended = c.ended
  memory : st ≠ .memory → o.core.dmem = c.dmem
  fetch : st ≠ .execute → o.core.pc = c.pc ∧ o.core.fetchHalted = c.fetchHalted
  sends : st ≠ .decode → st ≠ .memory → o.sends = []
  behind : ∀ st' ∈ st.rest, o.core.holds st' = true → c.holds st' = true

/-- Every result of f is one stage st may leave. -/
def StageFn.OwnedBy (f : StageFn) (st : Stage) : Prop := ∀ env c o, f env c = .ok o → StageOwns st c o

section
variable {c : Core} {o : StageOut}

theorem StageOwns.decode (registers : o.core.x = c.x ∧ o.core.f = c.f ∧ o.core.ended = c.ended)
    (memory : o.core.dmem = c.dmem) (fetch : o.core.pc = c.pc ∧ o.core.fetchHalted = c.fetchHalted) :
    StageOwns .decode c o :=
  ⟨fun _ => registers, fun _ => memory, fun _ => fetch, fun not_decode _ => absurd rfl not_decode,
    fun _ no_stage => nomatch no_stage⟩

theorem StageOwns.execute (registers : o.core.x = c.x ∧ o.core.f = c.f ∧ o.core.ended = c.ended)
    (memory : o.core.dmem = c.dmem) (sends : o.sends = []) (behind : o.core.dr.update = true → c.dr.update = true) :
    StageOwns .execute c o :=
  ⟨fun _ => registers, fun _ => memory, fun not_execute => absurd rfl not_execute, fun _ _ => sends,
    List.forall_mem_singleton.mpr behind⟩

theorem StageOwns.memoryStage (registers : o.core.x = c.x ∧ o.core.f = c.f ∧ o.core.ended = c.ended)
    (fetch : o.core.pc = c.pc ∧ o.core.fetchHalted = c.fetchHalted) (same_er : o.core.er = c.er)
    (same_dr : o.core.dr = c.dr) : StageOwns .memory c o :=
  ⟨fun _ => registers, fun not_memory => absurd rfl not_memory, fun _ => fetch,
    fun _ not_memory => absurd rfl not_memory, by simp [Stage.rest, Core.holds, same_er, same_dr]⟩

theorem StageOwns.writeback (memory : o.core.dmem = c.dmem)
    (fetch : o.core.pc = c.pc ∧ o.core.fetchHalted = c.fetchHalted) (sends : o.sends = []) (same_mr : o.core.mr = c.mr)
    (same_er : o.core.er = c.er) (same_dr : o.core.dr = c.dr) : StageOwns .writeback c o :=
  ⟨fun not_writeback => absurd rfl not_writeback, fun _ => memory, fun _ => fetch, fun _ _ => sends,
    by simp [Stage.rest, Core.holds, same_mr, same_er, same_dr]⟩

end

/-! ## The stage operations -/

theorem decodeStage_owned (cls : InstrClass) (u : Uses) : StageFn.OwnedBy (decodeStage cls u) .decode := by
  intro env c o answers
  rw [decodeStage] at answers
  split at answers <;> cases answers
  exact .decode ⟨rfl, rfl, rfl⟩ rfl ⟨rfl, rfl⟩

theorem dispatchStage_owned (dev : Device) (dst sub : Word) :
    StageFn.OwnedBy (dispatchStage dev dst sub) .decode := by
  intro env c o answers
  rw [dispatchStage] at answers
  split at answers <;> cases answers <;> exact .decode ⟨rfl, rfl, rfl⟩ rfl ⟨rfl, rfl⟩

theorem executeStage_owned (compute : StageEnv → Latch → Except FaultRecord Latch) :
    StageFn.OwnedBy (executeStage compute) .execute := by
  intro env c o answers
  rw [executeStage] at answers
  split at answers <;> cases answers
  exact .execute ⟨rfl, rfl, rfl⟩ rfl rfl id

theorem executePass_owned : StageFn.OwnedBy executePass .execute := executeStage_owned _

theorem aluStage_owned (result : StageEnv → Latch → Word) : StageFn.OwnedBy (aluStage result) .execute :=
  executeStage_owned _

theorem shiftStage_owned (amount : Latch → Word) : StageFn.OwnedBy (shiftStage amount) .execute :=
  executeStage_owned _

theorem floatStage_owned (op : Word → Word → Option Word) : StageFn.OwnedBy (floatStage op) .execute := by
  intro env c o answers
  rw [floatStage] at answers
  split at answers <;> cases answers <;> exact .execute ⟨rfl, rfl, rfl⟩ rfl rfl id

theorem branchStage_owned (taken : Word → Word → Bool) (imm : Word) :
    StageFn.OwnedBy (branchStage taken imm) .execute := by
  intro env c o answers
  rw [branchStage] at answers
  split at answers
  · rw [Core.resetPipeline] at answers
    split at answers
    · rename_i resets
      split at resets <;> cases resets
      cases answers
      exact .execute ⟨rfl, rfl, rfl⟩ rfl rfl nofun
    · cases answers
  · cases answers
    exact .execute ⟨rfl, rfl, rfl⟩ rfl rfl id

theorem loadStage_owned (compute : Core → Latch → Except FaultRecord Latch) :
    StageFn.OwnedBy (loadStage compute) .memory := by
  intro env c o answers
  rw [loadStage] at answers
  split at answers <;> cases answers
  exact .memoryStage ⟨rfl, rfl, rfl⟩ ⟨rfl, rfl⟩ rfl rfl

theorem memoryPass_owned : StageFn.OwnedBy memoryPass .memory := loadStage_owned _

theorem loadInteger_owned (imm : Word) (n : Nat) : StageFn.OwnedBy (loadInteger imm n) .memory := loadStage_owned _

theorem loadFloat_owned (imm : Word) : StageFn.OwnedBy (loadFloat imm) .memory := loadStage_owned _

theorem gatherStage_owned (imm : Word) : StageFn.OwnedBy (gatherStage imm) .memory := loadStage_owned _

theorem storeStage_owned (address : Latch → Word) (bytes : Latch → List Byte) :
    StageFn.OwnedBy (storeStage address bytes) .memory := by
  intro env c o answers
  rw [storeStage] at answers
  split at answers <;> cases answers
  exact .memoryStage ⟨rfl, rfl, rfl⟩ ⟨rfl, rfl⟩ rfl rfl

theorem copyStage_owned (port : CorePort) (n : Word) (event : Core → List Byte → Event) :
    StageFn.OwnedBy (copyStage port n event) .memory := by
  intro env c o answers
  rw [copyStage] at answers
  split at answers <;> cases answers
  exact .memoryStage ⟨rfl, rfl, rfl⟩ ⟨rfl, rfl⟩ rfl rfl

theorem writebackStage_owned {action : Core → Core} (memory : ∀ c, (action c).dmem = c.dmem)
    (fetch : ∀ c, (action c).pc = c.pc ∧ (action c).fetchHalted = c.fetchHalted)
    (latches : ∀ c, (action c).mr = c.mr ∧ (action c).er = c.er ∧ (action c).dr = c.dr) :
    StageFn.OwnedBy (writebackStage action) .writeback := by
  rintro env c o ⟨⟩
  obtain ⟨same_mr, same_er, same_dr⟩ := latches c
  exact .writeback (memory c) (fetch c) rfl same_mr same_er same_dr

theorem writebackNothing_owned : StageFn.OwnedBy writebackNothing .writeback :=
  writebackStage_owned (fun _ => rfl) (fun _ => ⟨rfl, rfl⟩) fun _ => ⟨rfl, rfl, rfl⟩

theorem writebackX_owned (rd : Word) : StageFn.OwnedBy (writebackX rd) .writeback :=
  writebackStage_owned (fun _ => rfl) (fun _ => ⟨rfl, rfl⟩) fun _ => ⟨rfl, rfl, rfl⟩

theorem writebackF_owned (rd : Word) : StageFn.OwnedBy (writebackF rd) .writeback :=
  writebackStage_owned (fun _ => rfl) (fun _ => ⟨rfl, rfl⟩) fun _ => ⟨rfl, rfl, rfl⟩

/-! ## Every instruction in every stage -/

theorem meaningOf_decode_owned (i : Instr) : (meaningOf i).decode.OwnedBy .decode := by
  by_cases custom : i.cls = .custom
  · obtain ⟨dev, dst, sub, dispatches⟩ := exists_dispatch_of_custom custom
    exact dispatches ▸ dispatchStage_owned dev dst sub
  · exact meaningOf_decode custom ▸ decodeStage_owned _ _

theorem meaningOf_execute_owned (i : Instr) : (meaningOf i).execute.OwnedBy .execute := by
  cases i
  case fadd | fsub | fmac8 => exact floatStage_owned _
  case beq | bne => exact branchStage_owned _ _
  case addi | muli | add | mul | lui =>
    dsimp only [meaningOf, stagesAddi, stagesMuli, stagesAdd, stagesMul, stagesLui]
    exact aluStage_owned _
  case slli | sll =>
    dsimp only [meaningOf, stagesSlli, stagesSll]
    exact shiftStage_owned _
  all_goals exact executePass_owned

theorem meaningOf_memory_owned (i : Instr) : (meaningOf i).memory.OwnedBy .memory := by
  cases i
  case sb | sw | fsw =>
    dsimp only [meaningOf, stagesSb, stagesSw, stagesFsw]
    exact storeStage_owned _ _
  case cpyCam | cpyMpe | cpyMmr | cpyUp => exact copyStage_owned _ _ _
  case lbu | lw => exact loadInteger_owned _ _
  case flw => exact loadFloat_owned _
  case lwg => exact gatherStage_owned _
  all_goals exact memoryPass_owned

theorem meaningOf_writeback_owned (i : Instr) : (meaningOf i).writeback.OwnedBy .writeback := by
  cases i
  case flw | fadd | fsub | fmac8 => exact writebackF_owned _
  case lbu | lw | lwg | addi | slli | muli | add | sll | mul | lui => exact writebackX_owned _
  case ret => exact writebackStage_owned (fun _ => rfl) (fun _ => ⟨rfl, rfl⟩) fun _ => ⟨rfl, rfl, rfl⟩
  all_goals exact writebackNothing_owned

theorem meaningOf_owned (i : Instr) : ∀ st, ((meaningOf i).fn st).OwnedBy st
  | .decode => meaningOf_decode_owned i
  | .execute => meaningOf_execute_owned i
  | .memory => meaningOf_memory_owned i
  | .writeback => meaningOf_writeback_owned i

/-- A next state of an instruction in a stage records a fault and nothing else, or is a result the stage may leave. -/
theorem exec_next_owned {i : Instr} {s t : State} {k : Nat} {st : Stage} {c : Core} (at_k : s.cores[k]? = some c)
    (answers : exec i (s.focusOn k st) = .next t) :
    (∃ f, t = (s.focusOn k st).raise f) ∨
      ∃ o, t = (s.focusOn k st).commit o ∧ StageOwns st c o ∧ StageKeeps c o.core := by
  rw [exec_eq] at answers
  obtain ⟨c', at_k', ⟨o, result, committed⟩ | ⟨f, -, raised⟩⟩ := runStages_next answers
  · cases at_k.symm.trans at_k'
    exact .inr ⟨o, committed, meaningOf_owned i st _ _ _ result, (meaningOf_kept i).fn st _ _ _ result⟩
  · exact .inl ⟨f, raised⟩

/-- Settles O33: a fault changes nothing; a result is put on its own core alone, and is one its stage may leave. -/
theorem stagesOwnTheirState : Obligations.StagesOwnTheirState := by
  intro i s t k st c at_k answers
  obtain ⟨f, rfl⟩ | ⟨o, rfl, owned, kept⟩ := exec_next_owned at_k answers
  · exact ⟨c, at_k, rfl, rfl, rfl, fun _ => ⟨rfl, rfl, rfl⟩, fun _ => rfl, fun _ => ⟨rfl, rfl⟩, fun _ _ => rfl,
      fun _ _ => rfl, rfl, rfl, rfl, rfl, rfl, rfl⟩
  · refine ⟨o.core, ?_, kept.cfg, kept.imem, kept.rx, owned.registers, owned.memory, owned.fetch,
      fun not_decode not_memory => ?_, fun j other => ?_, ?_⟩
    · simp [State.commit, getElem?_set_core at_k]
    · simp [State.commit, owned.sends not_decode not_memory, coreSends, State.sendAll]
    · simp [State.commit, other.symm]
    · simp [State.commit]

end Sys2Proof.Machine
end

section
/-! PROOFS. A send (40_delay_queue.md R160), the step of a system of one core with one instruction under way
(41_pipeline.md R190, R191, R204), and the teardown (45_cam.md R345, 40_delay_queue.md R170). -/

namespace Sys2Proof.Machine

/-! ## Sending (R160) -/

theorem sendOn_of_not_linked {n : Nat} {port : OutPort} {ev : Event} {ls : List Link}
    (not_linked : ∀ l ∈ ls, l.cfg.src ≠ port) : sendOn n port ev ls = ls := by
  induction ls with
  | nil => rfl
  | cons l ls ih =>
    obtain ⟨first, rest⟩ := List.forall_mem_cons.mp not_linked
    rw [sendOn, if_neg first, ih rest]

theorem sendOn_of_linked {n : Nat} {ev : Event} {before after : List Link} {l : Link}
    (first : ∀ m ∈ before, m.cfg.src ≠ l.cfg.src) :
    sendOn n l.cfg.src ev (before ++ l :: after) =
      before ++ { l with queue := l.queue ++ [(n + l.cfg.latency, ev)] } :: after := by
  induction before with
  | nil => rw [List.nil_append, sendOn, if_pos rfl, List.nil_append]
  | cons m before ih =>
    obtain ⟨other, rest⟩ := List.forall_mem_cons.mp first
    rw [List.cons_append, sendOn, if_neg other, ih rest, List.cons_append]

/-- Settles O46: the links before the first that leaves the port are passed over. -/
theorem sendReachesTheLinkedPort : Obligations.SendReachesTheLinkedPort := by
  refine fun s port ev => ⟨fun not_linked => ?_, fun before after l links first leaves => ?_⟩
  · rw [State.send, sendOn_of_not_linked not_linked]
  · subst leaves
    rw [State.send, links, sendOn_of_linked first]

/-! ## Acts of a tick that do nothing (R191) -/

/-- A tick's acts that leave the system as it is are passed over. -/
theorem inTurn_of_idle {idle acts : List (State → Host.Outcome State Fault Refusal)} {s : State}
    (no_fault : s.fault = none) (not_ended : s.focus.tickEnded = false) (unchanged : ∀ act ∈ idle, act s = .next s) :
    inTurn (idle ++ acts) s = inTurn acts s := by
  induction idle with
  | nil => rfl
  | cons act idle ih =>
    obtain ⟨first, rest⟩ := List.forall_mem_cons.mp unchanged
    rw [List.cons_append, inTurn_cons, first, continueTurn_going no_fault not_ended, ih rest]

theorem Core.canRun_of_not_holds {c : Core} {st : Stage} (empty : c.holds st = false) : c.canRun st = false := by
  cases st <;> simp_all [Core.holds, Core.canRun]

/-- The only stage with work has a free register behind it. -/
theorem Core.canRun_of_only {c : Core} {st : Stage} (only : ∀ st', c.holds st' = decide (st' = st)) :
    c.canRun st = true := by
  have d := only .decode
  have e := only .execute
  have m := only .memory
  have w := only .writeback
  cases st <;> simp_all [Core.holds, Core.canRun]

/-- The receive of a core with nothing inbound does nothing (R317). -/
theorem runReceive_of_idle {s : State} {k : Nat} {c : Core} (at_k : s.cores[k]? = some c) (idle : c.rx.busy = false)
    (empty : c.rx.inq.items = []) : runReceive k s = .next s := by
  have stepped : c.rxStep s.cycle = .ok c := by
    simp [Core.rxStep, Discipline.complete, Core.rxAccept, Discipline.accept, DelayQueue.pop, idle, empty]
  rw [runReceive, at_k]
  simp only [stepped, State.putResult, State.putCore_self at_k]

/-- The acts of a tick around stage st: those before it are the receive and other stages, those behind it the stages
left and the fetch. -/
theorem exists_coreActs_eq (k : Nat) (st : Stage) : ∃ ahead : List Stage, st ∉ ahead ∧
    coreActs k = (runReceive k :: ahead.map (runStage k)) ++
      runStage k st :: (st.rest.map (runStage k) ++ [runFetch k]) := by
  cases st
  case writeback => exact ⟨[], by simp, rfl⟩
  case memory => exact ⟨[.writeback], by simp, rfl⟩
  case execute => exact ⟨[.writeback, .memory], by simp, rfl⟩
  case decode => exact ⟨[.writeback, .memory, .execute], by simp, rfl⟩

/-- With work in one stage only and nothing inbound, a core's tick is that stage's instruction; then, with nothing for
the stages behind, the fetch. -/
theorem tickCore_of_only {s : State} {k : Nat} {c : Core} {i : Instr} {st : Stage} (at_k : s.cores[k]? = some c)
    (no_fault : s.fault = none) (at_rest : s.focus = .rest) (idle : c.rx.busy = false) (empty : c.rx.inq.items = [])
    (only : ∀ st', c.holds st' = decide (st' = st)) (form : c.stageForm s.modes st = .ok i) :
    tickCore k s = continueTurn [runFetch k] (exec i (s.focusOn k st)) := by
  obtain ⟨ahead, not_ahead, acts⟩ := exists_coreActs_eq k st
  have unfocused : s.unfocus = s := by rw [State.unfocus, ← at_rest]
  have not_ended : s.focus.tickEnded = false := by rw [at_rest]; rfl
  have skipped : ∀ act ∈ runReceive k :: ahead.map (runStage k), act s = .next s := by
    rintro act (_ | ⟨_, stage⟩)
    · exact runReceive_of_idle at_k idle empty
    · obtain ⟨st', here, rfl⟩ := List.mem_map.mp stage
      have other : st' ≠ st := fun same => not_ahead (same ▸ here)
      exact runStage_of_not_canRun at_k (Core.canRun_of_not_holds (by simp [only, other]))
  have runs : runStage k st s = exec i (s.focusOn k st) := by
    rw [runStage_of_canRun at_k (Core.canRun_of_only only), form]
    rfl
  rw [tickCore_eq_inTurn, unfocused, acts, inTurn_of_idle no_fault not_ended skipped, inTurn_cons, runs]
  obtain ⟨t, answers⟩ := exec_isNext (i := i) (s := s.focusOn k st) at_k
  rw [answers, continueTurn, continueTurn]
  by_cases going : t.fault = none ∧ t.focus.tickEnded = false
  · obtain ⟨kept, not_ended'⟩ := going
    rw [if_pos ⟨kept, not_ended'⟩, if_pos ⟨kept, not_ended'⟩]
    refine inTurn_of_idle kept not_ended' fun act stage => ?_
    obtain ⟨st', behind, rfl⟩ := List.mem_map.mp stage
    obtain ⟨f, rfl⟩ | ⟨o, rfl, owned, -⟩ := exec_next_owned at_k answers
    · cases kept
    · have at_k' : ((s.focusOn k st).commit o).cores[k]? = some o.core := by
        simp [State.commit, getElem?_set_core at_k]
      have other : st' ≠ st := by rintro rfl; cases st' <;> simp [Stage.rest] at behind
      refine runStage_of_not_canRun at_k' (Core.canRun_of_not_holds (Bool.eq_false_iff.mpr fun work => ?_))
      have before := owned.behind st' behind work
      simp [only, other] at before
  · rw [if_neg going, if_neg going]

/-- The last act of a tick is the fetch, faulting or not (R196). -/
theorem inTurn_fetch {s : State} {k : Nat} {c : Core} (at_k : s.cores[k]? = some c) :
    inTurn [runFetch k] s = .next (s.putResult k (c.fetch s.modes)).unfocus := by
  rw [inTurn_cons, runFetch, at_k]
  exact ite_self _

/-! ## A system of one core -/

/-- With no event on any link, delivery does nothing. -/
theorem State.deliver_of_empty {s : State} (empty : ∀ l ∈ s.links, l.queue = []) : s.deliver = ([], s) := by
  have none_due : ∀ l ∈ s.links, l.due s.cycle = [] := fun l here => by simp [Link.due, empty l here]
  have kept (l : Link) (here : l ∈ s.links) : l.keep s.cycle = l := by
    rw [Link.keep, List.filter_eq_self.mpr (by simp [empty l here])]
  have all_kept : s.links.map (fun l => l.keep s.cycle) = s.links := by
    rw [List.map_congr_left kept, List.map_id']
  rw [State.deliver, dueLinks_eq_nil none_due, all_kept]
  rfl

/-- The step of a system whose one component is a core and whose links are empty is its tick. -/
theorem step_of_tickCore {s t : State} (no_fault : s.fault = none) (no_problem : s.problem = none) {c : Core}
    (cores : s.cores = [c]) (cams : s.cams = []) (mpes : s.mpes = []) (mmrs : s.mmrs = []) (routers : s.routers = [])
    (empty : ∀ l ∈ s.links, l.queue = []) (ticks : tickCore 0 s = .next t) :
    (t.fault = none → step s = .next { t with cycle := s.cycle + 1 }) ∧
      ∀ f, t.fault = some f → step s = .next (s.raise f) := by
  have delivered := State.deliver_of_empty empty
  have one_tick : s.ticks = [tickCore 0] := by simp [State.ticks, cores, cams, mpes, mmrs, routers]
  constructor
  · intro kept
    refine step_of_ticks no_fault no_problem delivered ?_
    simp [one_tick, runTicks, ticks, kept]
  · intro f faulted
    refine step_of_tick_faults (fs := []) (u := s) no_fault no_problem delivered ?_
    simp [one_tick, runTicks, ticks, faulted]

/-- Settles O34: the step is the core's tick, and that is the instruction's stage and the fetch. -/
theorem stepRunsDecodedInstruction : Obligations.StepRunsDecodedInstruction := by
  intro s c i st no_fault no_problem at_rest cores cams mpes mmrs routers links idle empty only form
  have at_0 : s.cores[0]? = some c := by rw [cores]; rfl
  have tick := tickCore_of_only at_0 no_fault at_rest idle empty only form
  obtain ⟨t, answers⟩ := exec_isNext (i := i) (s := s.focusOn 0 st) at_0
  rw [answers, continueTurn] at tick
  have stepped {u : State} (ticks : tickCore 0 s = .next u) :=
    step_of_tickCore no_fault no_problem cores cams mpes mmrs routers links ticks
  refine ⟨t, answers, fun f faulted => ?_, fun kept ended => ?_, fun kept going => ?_⟩
  · rw [if_neg (by simp [faulted])] at tick
    exact (stepped tick).2 f faulted
  · rw [if_neg (by simp [ended])] at tick
    exact (stepped tick).1 kept
  · rw [if_pos ⟨kept, going⟩] at tick
    obtain ⟨f, rfl⟩ | ⟨o, rfl, -, -⟩ := exec_next_owned at_0 answers
    · cases kept
    · have cores' : ((s.focusOn 0 st).commit o).cores = [o.core] := by simp [State.commit, cores]
      have modes : ((s.focusOn 0 st).commit o).modes = s.modes := by simp [State.commit]
      rw [inTurn_fetch (by rw [cores']; rfl), modes] at tick
      refine ⟨o.core, cores', fun f fault => ?_, fun c2 fetched => ?_⟩
      · rw [fault] at tick
        exact (stepped tick).2 f rfl
      · rw [fetched] at tick
        rw [(stepped tick).1 kept]
        simp [State.putResult, State.putCore, cores, State.unfocus]

/-! ## Teardown (R170, R345) -/

theorem length_flatMap_zipIdx {α β : Type} {n : Nat} {f : α × Nat → List β} (lengths : ∀ e, (f e).length = n)
    (l : List α) : (l.zipIdx.flatMap f).length = n * l.length := by
  simp [List.length_flatMap, lengths, Nat.mul_comm]

theorem State.samples_length (s : State) : s.samples.length = 5 * s.cores.length + 7 * s.cams.length := by
  have of_cores := length_flatMap_zipIdx (f := fun e => Core.samples e.2 e.1) (n := 5) (fun _ => rfl) s.cores
  have of_cams := length_flatMap_zipIdx (f := fun e => Cam.samples e.2 e.1) (n := 7) (fun _ => rfl) s.cams
  rw [State.samples, List.length_append, of_cores, of_cams]

/-- A core's samples are its five counters. -/
theorem Core.mem_samples {k : Nat} {c : Core} {e : Sample} : e ∈ Core.samples k c ↔ e.source = .core k ∧
    (e.counter, e.value) ∈ [(Counter.actF, (c.actF : Rat)), (.actD, c.actD), (.actE, c.actE), (.actM, c.actM),
      (.actW, c.actW)] := by
  obtain ⟨source, counter, value⟩ := e
  simp only [Core.samples, List.mem_cons, List.not_mem_nil, or_false, Sample.mk.injEq, Prod.mk.injEq]
  grind

/-- A CAM's samples are its seven energies. -/
theorem Cam.mem_samples {j : Nat} {cam : Cam} {e : Sample} : e ∈ Cam.samples j cam ↔ e.source = .cam j ∧
    (e.counter, e.value) ∈ [(Counter.eLeak, cam.eLeak), (.eCd, cam.eCd), (.eSa, cam.eSa), (.ePc, cam.ePc),
      (.eCell, cam.eCell), (.eReg, cam.eReg), (.eStatic, cam.eStatic)] := by
  obtain ⟨source, counter, value⟩ := e
  simp only [Cam.samples, List.mem_cons, List.not_mem_nil, or_false, Sample.mk.injEq, Prod.mk.injEq]
  grind

/-- Settles O59: the teardown maps the CAMs, and the samples are those of every core and every CAM. -/
theorem teardownAddsStaticEnergy : Obligations.TeardownAddsStaticEnergy := by
  refine fun s => ⟨rfl, ?_, fun e => ?_⟩
  · rw [State.finish, State.samples_length, State.teardown, List.length_map]
  · rw [State.finish, Machine.mem_samples]
    simp only [Core.mem_samples, Cam.mem_samples]
    rfl

end Sys2Proof.Machine
end

section
/-! PROOFS. The upward scan of the router (48_router.md R410 to R414): the groups of a scan list, and the requests a
scan queues. -/

namespace Sys2Proof.Machine

/-! ## Requests of grouped events (R410, R413) -/

/-- An event that joins others grows their request by its payload. -/
theorem requestOf_append_singleton {events : List Event} {g : AggRequest} (request : requestOf events = [g])
    (e : Event) : requestOf (events ++ [e]) = [g.grow e] := by
  cases events with
  | nil => cases request
  | cons a events =>
    cases request
    simp [requestOf, AggRequest.grow]

theorem requestOf_tag {events : List Event} {tag : Word} (nonempty : events ≠ []) (same : ∀ e ∈ events, e.imm = tag) :
    ∃ g, requestOf events = [g] ∧ g.tag = tag := by
  cases events with
  | nil => exact absurd rfl nonempty
  | cons e events => exact ⟨_, rfl, same e (by simp)⟩

theorem requestOf_singleton (e : Event) : requestOf [e] = [groupOf e] := by
  simp [requestOf, groupOf]

/-! ## Adjacent groups (R413) -/

theorem addAdjacent_append (e : Event) (groups : List AggRequest) (g : AggRequest) :
    addAdjacent e (groups ++ [g]) = groups ++ if g.tag = e.imm then [g.grow e] else [g, groupOf e] := by
  induction groups with
  | nil => rw [List.nil_append, List.nil_append, addAdjacent]
  | cons h groups ih =>
    obtain ⟨h', groups', shape⟩ := List.exists_cons_of_ne_nil (show groups ++ [g] ≠ [] by simp)
    rw [List.cons_append, shape, addAdjacent, ← shape, ih, List.cons_append]

/-- The groups behind a run that is still open: `run` holds its events but the last, in reverse, `runs` the runs
before it. -/
theorem foldl_addAdjacent_of_open (events : List Event) (last : Event) (run : List Event) (runs : List (List Event))
    (same : ∀ x ∈ run, x.imm = last.imm) :
    events.foldl (fun groups e => addAdjacent e groups)
        (runs.reverse.flatMap requestOf ++ requestOf (last :: run).reverse) =
      (List.splitBy.loop (fun a b => a.imm == b.imm) events last run runs).flatMap requestOf := by
  induction events generalizing last run runs with
  | nil => simp [List.splitBy.loop]
  | cons e events ih =>
    obtain ⟨g, request, tag⟩ := requestOf_tag (events := (last :: run).reverse) (tag := last.imm) (by simp)
      (by simpa [or_imp, forall_and] using same)
    rw [List.foldl_cons, request, addAdjacent_append, List.splitBy.loop, tag]
    by_cases neighbours : last.imm = e.imm
    · have grown := requestOf_append_singleton request e
      rw [← List.reverse_cons] at grown
      rw [if_pos neighbours, ← grown]
      simpa [neighbours] using ih e (last :: run) runs
        (by simpa [neighbours] using fun x here => (same x here).trans neighbours)
    · have opened := ih e [] ((last :: run).reverse :: runs) (by simp)
      rw [List.reverse_cons, List.flatMap_append, List.flatMap_singleton, request, List.reverse_singleton,
        requestOf_singleton, List.append_assoc] at opened
      have apart : (last.imm == e.imm) = false := beq_eq_false_iff_ne.mpr neighbours
      simpa [neighbours, apart] using opened

theorem groupScan_adjacent (events : List Event) :
    groupScan .adjacent events = (events.splitBy fun a b => a.imm == b.imm).flatMap requestOf := by
  cases events with
  | nil => rfl
  | cons e events =>
    have opened := foldl_addAdjacent_of_open events e [] [] (by simp)
    simpa [groupScan, List.splitBy, addAdjacent, requestOf_singleton] using opened

/-! ## Groups by tag (R414) -/

/-- An event joins the group of its tag, or opens one behind the others. `before` and `after` give each tag's group
without and with the event. -/
theorem addByTag_flatMap {e : Event} {before after : Word → List AggRequest} {tags : List Word} (distinct : tags.Nodup)
    (tagged : ∀ tag ∈ tags, ∃ g, before tag = [g] ∧ g.tag = tag)
    (others : ∀ tag ∈ tags, tag ≠ e.imm → after tag = before tag)
    (grown : ∀ g, before e.imm = [g] → after e.imm = [g.grow e]) :
    addByTag e (tags.flatMap before) = tags.flatMap after ++ if e.imm ∈ tags then [] else [groupOf e] := by
  induction tags with
  | nil => rfl
  | cons tag tags ih =>
    obtain ⟨fresh, distinct'⟩ := List.nodup_cons.mp distinct
    obtain ⟨⟨g, group, rfl⟩, tagged'⟩ := List.forall_mem_cons.mp tagged
    obtain ⟨other, others'⟩ := List.forall_mem_cons.mp others
    rw [List.flatMap_cons, List.flatMap_cons, group, List.singleton_append, addByTag]
    by_cases here : g.tag = e.imm
    · have rest : tags.flatMap after = tags.flatMap before :=
        List.flatMap_congr fun tag there => others' tag there fun same => fresh (here ▸ same ▸ there)
      rw [if_pos here, rest, here, grown g (here ▸ group), if_pos (by simp), List.append_nil, List.singleton_append]
    · rw [if_neg here, ih distinct' tagged' others', other here, group]
      simp [eq_comm, here]

theorem eraseDups_append_singleton (l : List Word) (a : Word) :
    (l ++ [a]).eraseDups = l.eraseDups ++ if a ∈ l then [] else [a] := by
  rw [List.eraseDups_append]
  by_cases there : a ∈ l <;> simp [List.removeAll, there, List.eraseDups_cons]

theorem nodup_eraseDups (l : List Word) : l.eraseDups.Nodup := by
  induction l using List.reverseRecOn with
  | nil => exact List.nodup_nil
  | append_singleton l a ih =>
    rw [eraseDups_append_singleton]
    split
    · simpa using ih
    · rename_i fresh
      exact ih.append (List.nodup_singleton a) (by simpa using fresh)

theorem groupScan_byTag (events : List Event) :
    groupScan .byTag events =
      (events.map Event.imm).eraseDups.flatMap fun tag => requestOf (events.filter fun e => e.imm == tag) := by
  induction events using List.reverseRecOn with
  | nil => rfl
  | append_singleton events e ih =>
    have step : groupScan .byTag (events ++ [e]) = addByTag e (groupScan .byTag events) := by
      simp [groupScan]
    have joined : addByTag e (groupScan .byTag events) =
        ((events.map Event.imm).eraseDups.flatMap fun tag =>
            requestOf ((events ++ [e]).filter fun e => e.imm == tag)) ++
          if e.imm ∈ (events.map Event.imm).eraseDups then [] else [groupOf e] := by
      rw [ih]
      refine addByTag_flatMap (nodup_eraseDups _) (fun tag there => ?_) (fun tag _ other => ?_) fun g group => ?_
      · obtain ⟨x, here, rfl⟩ := List.mem_map.mp (List.mem_eraseDups.mp there)
        exact requestOf_tag (List.ne_nil_of_mem (List.mem_filter.mpr ⟨here, beq_self_eq_true _⟩)) (by simp)
      · simp [List.filter_append, other.symm]
      · simpa [List.filter_append] using requestOf_append_singleton group e
    rw [step, joined, List.map_append, List.map_singleton, eraseDups_append_singleton, List.flatMap_append]
    congr 1
    by_cases there : e.imm ∈ events.map Event.imm
    · simp [there]
    · have alone : events.filter (fun x => x.imm == e.imm) = [] := by
        simpa [List.filter_eq_nil_iff] using there
      simp [there, alone, requestOf_singleton]

/-! ## The scan (R412) -/

namespace Discipline
variable {α : Type}

/-- Requests queued behind others stand behind them, ready by now when the others are. -/
theorem foldl_enqueue_items (n : Nat) (reqs : List α) (d : Discipline α) :
    (reqs.foldl (fun e req => e.enqueue n req) d).busy = d.busy ∧
      (reqs.foldl (fun e req => e.enqueue n req) d).doneq = d.doneq ∧
      (reqs.foldl (fun e req => e.enqueue n req) d).inq.items.map Prod.snd = d.inq.items.map Prod.snd ++ reqs ∧
      ((∀ e ∈ d.inq.items, e.1 ≤ n) → ∀ e ∈ (reqs.foldl (fun e req => e.enqueue n req) d).inq.items, e.1 ≤ n) := by
  induction reqs generalizing d with
  | nil => simp
  | cons req reqs ih =>
    obtain ⟨busy, doneq, order, ready⟩ := ih (d.enqueue n req)
    refine ⟨busy, doneq, order.trans (by simp [DelayQueue.pushChained_items]), fun by_now => ready fun e there => ?_⟩
    rw [enqueue_inq, DelayQueue.pushChained_items, List.mem_append, List.mem_singleton] at there
    obtain there | rfl := there
    · exact by_now e there
    · cases last : d.inq.lastReady with
      | none => exact Nat.le_refl n
      | some r =>
        obtain ⟨e, last_e, rfl⟩ := Option.map_eq_some_iff.mp last
        exact by_now e (List.mem_of_getLast? last_e)

end Discipline

/-- Settles O56: the folds build the runs of neighbours and the groups by tag; the scan queues them. -/
theorem routerGroupsScanByTag : Obligations.RouterGroupsScanByTag :=
  ⟨fun events => ⟨groupScan_adjacent events, groupScan_byTag events⟩,
    fun mode r n => ⟨_, rfl, Discipline.foldl_enqueue_items n (groupScan mode r.scanList) r.up⟩⟩

end Sys2Proof.Machine
end

section
/-! PROOFS. The float instructions FADD, FSUB and FMAC8 in the pipeline (43_float.md R278 to R280): a result that is no
NaN, and some NaN pattern (R273). -/

namespace Sys2Proof.Machine

section
variable {op : Word → Word → Option Word} {env : StageEnv} {c : Core}

theorem floatStage_of_some {v : Word} (result : op c.er.fa c.er.fb = some v) :
    floatStage op env c = .ok { core := c.toMemory { c.er with fa := v } } := by
  simp only [floatStage, result]

/-- The core with one NaN pattern more drawn. -/
def Core.drawn (c : Core) : Core := { c with nanDraws := c.nanDraws + 1 }

/-- A NaN is drawn, and counted. -/
theorem floatStage_of_none (nan : op c.er.fa c.er.fb = none) :
    floatStage op env c = .ok
      { core := c.drawn.toMemory { c.er with fa := nanPattern (Config.nanDraw (.core env.index) c.nanDraws) } } := by
  simp only [floatStage, nan]
  rfl

end

/-- The registers of an instruction of class FOP (R119). -/
def fopUses (rd rs1 rs2 : Word) : Uses := { dest := some (.f, rd), rs1 := some (.f, rs1), rs2 := some (.f, rs2) }

section
variable {s : State} {k : Nat} {c : Core} {i : Instr} {rd rs1 rs2 : Word} {op : Word → Word → Option Word}
  (accepted : Accepted s k c i)
  (meaning : meaningOf i =
    { decode := decodeStage .fop (fopUses rd rs1 rs2), execute := floatStage op, writeback := writebackF rd })
  (names : destOf i = some (.f, rd)) (sources : [(RegFile.f, rs1), (.f, rs2)] = sourcesOf i)
include accepted meaning names sources

theorem WritesResult.of_floatStage {v : Word} (result : op (c.readReg .f rs1) (c.readReg .f rs2) = some v) :
    WritesResult i s k c .f rd v :=
  .of_stages accepted meaning names names.symm sources
    (floatStage_of_some (c := c.decoded .fop (fopUses rd rs1 rs2)) result) (memoryPass_eq ..) (writebackF_eq ..)

/-- An instruction whose result is a NaN writes a NaN pattern and counts the draw. -/
theorem writes_nan_of_floatStage (nan : op (c.readReg .f rs1) (c.readReg .f rs2) = none) :
    ∃ c' v, isNaN v = true ∧ RunsThrough i k s ((s.focusOn k .writeback).putCore k c') ∧
      LeftPipeline ({ c with nanDraws := c.nanDraws + 1 }.writeReg .f rd v) c' ∧ c'.readReg .f rd = v ∧
      SameOtherRegisters c c' .f rd ∧ SameBytes c c' := by
  have decodes := accepted.decodeStage_eq (u := fopUses rd rs1 rs2) names.symm sources .fop
  have executes := floatStage_of_none (env := ⟨s.modes, k⟩) (c := c.decoded .fop (fopUses rd rs1 rs2)) nan
  have left := leftPipeline_writeReg c.drawn .fop (fopUses rd rs1 rs2)
    { c.operands .fop (fopUses rd rs1 rs2) with fa := nanPattern (Config.nanDraw (.core k) c.nanDraws) }
    { c.operands .fop (fopUses rd rs1 rs2) with
      update := true, fa := nanPattern (Config.nanDraw (.core k) c.nanDraws) } .f rd
    (nanPattern (Config.nanDraw (.core k) c.nanDraws))
  have runs := runsThrough_of (sends := []) accepted.core_eq (by rwa [meaning]) (by rwa [meaning])
    (by rw [meaning]; exact memoryPass_eq ⟨s.modes, k⟩ _) (by rw [meaning]; exact writebackF_eq rd ⟨s.modes, k⟩ _)
  exact ⟨_, _, isNaN_nanPattern _, runs, left, left.written (accepted.dest_lt names)⟩

end

/-- Settles O15: each is such a stage with its operation. -/
theorem floatArithmeticWritesResult : Obligations.FloatArithmeticWritesResult :=
  fun _ _ _ _ _ _ _ =>
    ⟨fun accepted result => .of_floatStage accepted rfl rfl rfl result,
      fun accepted result => .of_floatStage accepted rfl rfl rfl result,
      fun accepted result => .of_floatStage accepted rfl rfl rfl result⟩

/-- Settles O16: the same stage, drawing the pattern. -/
theorem floatNaNResultIsSomeNaN : Obligations.FloatNaNResultIsSomeNaN := by
  rintro s k c rd rs1 rs2 i accepted (⟨rfl, nan⟩ | ⟨rfl, nan⟩)
  · exact writes_nan_of_floatStage accepted rfl rfl rfl nan
  · exact writes_nan_of_floatStage accepted rfl rfl rfl nan

end Sys2Proof.Machine
end

section
/-! PROOFS. Binary32 rounding (43_float.md R270): the fields of a packed number, the nearest integer of a quotient,
and the nearest binary32 number, subnormals and overflow included. -/

namespace Sys2Proof.Machine

/-! ## The fields of a packed number (R129) -/

section
variable {neg : Bool} {bits : Nat} (small : bits < 2 ^ 31)
include small

theorem f32Pack_toNat : (f32Pack neg bits).toNat = (if neg then 2 ^ 31 else 0) + bits := by
  rw [f32Pack, BitVec.toNat_ofNat]
  cases neg <;> simp <;> omega

theorem f32Sign_pack : f32Sign (f32Pack neg bits) = neg := by
  rw [f32Sign, BitVec.getLsbD, f32Pack_toNat small, Nat.testBit_eq_decide_div_mod_eq]
  cases neg <;> simp <;> omega

theorem f32Exp_pack : f32Exp (f32Pack neg bits) = bits / 2 ^ 23 := by
  rw [f32Exp, f32Pack_toNat small]
  cases neg <;> simp <;> omega

theorem f32Frac_pack : f32Frac (f32Pack neg bits) = bits % 2 ^ 23 := by
  rw [f32Frac, f32Pack_toNat small]
  cases neg <;> simp
  omega

theorem f32Pack_lsb : (f32Pack neg bits).getLsbD 0 = decide (bits % 2 = 1) := by
  rw [BitVec.getLsbD, f32Pack_toNat small, Nat.testBit_zero]
  cases neg <;> simp
  omega

end

theorem f32Frac_lt (w : Word) : f32Frac w < 2 ^ 23 := Nat.mod_lt _ (Nat.two_pow_pos 23)

theorem natAbs_f32Value (w : Word) : (f32Value w).natAbs = f32Mag w := by
  rw [f32Value]
  split <;> simp

/-- A magnitude of q units of 2^e, with 24 significant bits or e = 0. -/
theorem f32Mag_pack {neg : Bool} {q e : Nat} (small : q + e * 2 ^ 23 < 2 ^ 31) (full : e ≠ 0 → 2 ^ 23 ≤ q)
    (bound : q ≤ 2 ^ 24) : f32Mag (f32Pack neg (q + e * 2 ^ 23)) = q * 2 ^ e := by
  rw [f32Mag, f32Exp_pack small, f32Frac_pack small, Nat.add_mul_mod_self_right, Nat.add_mul_div_right _ _ (by decide)]
  obtain low | mid | rfl : q < 2 ^ 23 ∨ (2 ^ 23 ≤ q ∧ q < 2 ^ 24) ∨ q = 2 ^ 24 := by omega
  · have zero : e = 0 := by by_contra ne; exact absurd (full ne) (by omega)
    subst zero
    rw [Nat.div_eq_of_lt low, Nat.mod_eq_of_lt low]
    simp
  · have one : q / 2 ^ 23 = 1 := by omega
    have rest : q % 2 ^ 23 = q - 2 ^ 23 := by omega
    rw [one, rest, if_neg (by omega), Nat.add_sub_cancel' mid.1, Nat.add_sub_cancel_left]
  · rw [if_neg (by omega), show 2 ^ 24 / 2 ^ 23 + e - 1 = e + 1 by omega, Nat.pow_succ]
    omega

/-- Magnitudes from 2^(23 + e) on are multiples of 2^e. -/
theorem two_pow_dvd_f32Mag {w : Word} {e : Nat} (large : 2 ^ 23 * 2 ^ e ≤ f32Mag w) : 2 ^ e ∣ f32Mag w := by
  have frac := f32Frac_lt w
  rw [f32Mag] at large ⊢
  split at large
  case isTrue zero =>
    have := Nat.one_le_two_pow (n := e)
    omega
  case isFalse ne =>
    rw [if_neg ne]
    refine Dvd.dvd.mul_left (Nat.pow_dvd_pow 2 ?_) _
    by_contra above
    have grows : 2 ^ (f32Exp w - 1 + 1) ≤ 2 ^ e := Nat.pow_le_pow_right (by decide) (by omega)
    have small := Nat.mul_lt_mul_of_pos_right (show 2 ^ 23 + f32Frac w < 2 ^ 24 by omega)
      (Nat.two_pow_pos (f32Exp w - 1))
    rw [Nat.pow_succ] at grows
    omega

/-! ## The nearest integer of a quotient (R270) -/

/-- The rounded quotient is within a half of the quotient, and even where it is a half away. -/
theorem roundShift_spec (m k : Nat) :
    2 * (roundShift m k * 2 ^ k) ≤ 2 * m + 2 ^ k ∧ 2 * m ≤ 2 * (roundShift m k * 2 ^ k) + 2 ^ k ∧
      (2 * (roundShift m k * 2 ^ k) = 2 * m + 2 ^ k ∨ 2 * m = 2 * (roundShift m k * 2 ^ k) + 2 ^ k →
        roundShift m k % 2 = 0) := by
  have divided : m / 2 ^ k * 2 ^ k + m % 2 ^ k = m := Nat.div_add_mod' m (2 ^ k)
  have below := Nat.mod_lt m (Nat.two_pow_pos k)
  have up : (m / 2 ^ k + 1) * 2 ^ k = m / 2 ^ k * 2 ^ k + 2 ^ k := Nat.succ_mul ..
  simp only [roundShift]
  split
  case isTrue low => omega
  case isFalse not_low =>
    split
    case isTrue high => rw [up]; omega
    case isFalse not_high =>
      have not_zero : k ≠ 0 := by rintro rfl; simp at not_low not_high; omega
      rw [if_neg not_zero]
      obtain even | odd := Nat.mod_two_eq_zero_or_one (m / 2 ^ k)
      · rw [even, Nat.add_zero]; omega
      · rw [odd, up]; omega

section
variable {m k b : Nat}

theorem le_roundShift (le : b * 2 ^ k ≤ m) : b ≤ roundShift m k := by
  obtain ⟨-, below, -⟩ := roundShift_spec m k
  by_contra above
  have step := Nat.mul_le_mul_right (2 ^ k) (show roundShift m k + 1 ≤ b by omega)
  have positive := Nat.two_pow_pos k
  rw [Nat.succ_mul] at step
  omega

theorem roundShift_le_of_lt (lt : 2 * m < (2 * b + 1) * 2 ^ k) : roundShift m k ≤ b := by
  obtain ⟨above, -, -⟩ := roundShift_spec m k
  by_contra larger
  have step := Nat.mul_le_mul_right (2 ^ k) (show b + 1 ≤ roundShift m k by omega)
  rw [Nat.succ_mul] at step
  rw [Nat.succ_mul (2 * b), Nat.mul_assoc] at lt
  omega

theorem roundShift_le (le : m ≤ b * 2 ^ k) : roundShift m k ≤ b := by
  refine roundShift_le_of_lt ?_
  have positive := Nat.two_pow_pos k
  rw [Nat.succ_mul (2 * b), Nat.mul_assoc]
  omega

/-- Half a unit above an odd number rounds up. -/
theorem lt_roundShift (odd : b % 2 = 1) (le : (2 * b + 1) * 2 ^ k ≤ 2 * m) : b < roundShift m k := by
  obtain ⟨-, below, tie⟩ := roundShift_spec m k
  by_contra above
  have step := Nat.mul_le_mul_right (2 ^ k) (show roundShift m k ≤ b by omega)
  rw [Nat.succ_mul (2 * b), Nat.mul_assoc] at le
  have same : roundShift m k * 2 ^ k = b * 2 ^ k := by omega
  have even := tie (.inr (by omega))
  rw [Nat.eq_of_mul_eq_mul_right (Nat.two_pow_pos k) same] at even
  omega

theorem roundShift_of_dvd (dvd : 2 ^ k ∣ m) : roundShift m k * 2 ^ k = m := by
  obtain ⟨c, rfl⟩ := dvd
  rw [Nat.mul_comm (2 ^ k)]
  exact congrArg (· * 2 ^ k) (Nat.le_antisymm (roundShift_le (Nat.le_refl _)) (le_roundShift (Nat.le_refl _)))

/-- No integer is nearer to m / 2^k, and one as near leaves the rounded one even. -/
theorem roundShift_nearest (m k : Nat) (j : Int) :
    ((roundShift m k : Int) * 2 ^ k - m).natAbs ≤ (j * 2 ^ k - m).natAbs ∧
      (j ≠ roundShift m k → (j * 2 ^ k - m).natAbs = ((roundShift m k : Int) * 2 ^ k - m).natAbs →
        roundShift m k % 2 = 0) := by
  obtain ⟨above, below, tie⟩ := roundShift_spec m k
  have positive := Nat.two_pow_pos k
  generalize roundShift m k = q at *
  have unit : ((2 ^ k : Nat) : Int) = 2 ^ k := by push_cast; rfl
  have product : ((q * 2 ^ k : Nat) : Int) = q * 2 ^ k := by push_cast; rfl
  rw [← unit] at product ⊢
  generalize 2 ^ k = g at *
  obtain less | rfl | more := Int.lt_trichotomy j q
  · have step := mul_le_mul_of_nonneg_right (show j + 1 ≤ q by omega) (show (0 : Int) ≤ g by omega)
    rw [add_mul, one_mul] at step
    omega
  · exact ⟨Nat.le_refl _, fun other => absurd rfl other⟩
  · have step := mul_le_mul_of_nonneg_right (show (q : Int) + 1 ≤ j by omega) (show (0 : Int) ≤ g by omega)
    rw [add_mul, one_mul] at step
    omega

end

/-! ## The nearest magnitude (R270) -/

/-- The bits below the 24 significant ones of m / 2^s. -/
def roundExp (m s : Nat) : Nat := (m / 2 ^ s).log2 - 23

/-- The significant bits of m / 2^s, rounded. -/
def roundSig (m s : Nat) : Nat := roundShift m (s + roundExp m s)

theorem roundMag_eq (m s : Nat) : roundMag m s =
    if roundSig m s + roundExp m s * 2 ^ 23 < infBits then roundSig m s + roundExp m s * 2 ^ 23 else infBits := rfl

theorem two_pow_le_of_roundExp {m s : Nat} (ne : roundExp m s ≠ 0) :
    2 ^ 23 * 2 ^ (s + roundExp m s) ≤ m := by
  rw [roundExp] at ne ⊢
  have log : 23 + ((m / 2 ^ s).log2 - 23) ≤ (m / 2 ^ s).log2 := by omega
  have quotient_ne : m / 2 ^ s ≠ 0 := by rintro zero; simp [zero] at ne
  have le := (Nat.le_log2 quotient_ne).mp log
  rw [Nat.le_div_iff_mul_le (Nat.two_pow_pos s), Nat.pow_add] at le
  rwa [Nat.pow_add, Nat.mul_comm (2 ^ s), ← Nat.mul_assoc]

theorem lt_two_pow_roundExp (m s : Nat) : m < 2 ^ 24 * 2 ^ (s + roundExp m s) := by
  rw [roundExp]
  have lt : m / 2 ^ s < 2 ^ (24 + ((m / 2 ^ s).log2 - 23)) :=
    Nat.lt_of_lt_of_le Nat.lt_log2_self (Nat.pow_le_pow_right (by decide) (by omega))
  rw [Nat.div_lt_iff_lt_mul (Nat.two_pow_pos s), Nat.pow_add] at lt
  rwa [Nat.pow_add, Nat.mul_comm (2 ^ s), ← Nat.mul_assoc]

theorem roundSig_le (m s : Nat) : roundSig m s ≤ 2 ^ 24 := roundShift_le (lt_two_pow_roundExp m s).le

theorem le_roundSig {m s : Nat} (ne : roundExp m s ≠ 0) : 2 ^ 23 ≤ roundSig m s :=
  le_roundShift (two_pow_le_of_roundExp ne)

/-- Below half a unit above the largest finite magnitude the rounded bits are finite. -/
theorem round_in_range {m s : Nat} (small : m < (2 ^ 25 - 1) * 2 ^ 252 * 2 ^ s) :
    roundSig m s + roundExp m s * 2 ^ 23 < infBits := by
  have sig := roundSig_le m s
  obtain low | last | high : roundExp m s ≤ 252 ∨ roundExp m s = 253 ∨ 254 ≤ roundExp m s := by omega
  · rw [infBits]; omega
  · have sig_last : roundSig m s ≤ 2 ^ 24 - 1 := by
      refine roundShift_le_of_lt ?_
      rw [last, Nat.pow_add]
      omega
    rw [infBits]; omega
  · have le := two_pow_le_of_roundExp (m := m) (s := s) (by omega)
    have grows : 2 ^ (s + 254) ≤ 2 ^ (s + roundExp m s) := Nat.pow_le_pow_right (by decide) (by omega)
    rw [Nat.pow_add] at grows
    omega

theorem round_overflow {m s : Nat} (large : (2 ^ 25 - 1) * 2 ^ 252 * 2 ^ s ≤ m) :
    infBits ≤ roundSig m s + roundExp m s * 2 ^ 23 := by
  obtain low | last | high : roundExp m s ≤ 252 ∨ roundExp m s = 253 ∨ 254 ≤ roundExp m s := by omega
  · have lt := lt_two_pow_roundExp m s
    have grows : 2 ^ (s + roundExp m s) ≤ 2 ^ (s + 252) := Nat.pow_le_pow_right (by decide) (by omega)
    rw [Nat.pow_add 2 s 252] at grows
    omega
  · have sig_last : 2 ^ 24 - 1 < roundSig m s := by
      refine lt_roundShift (by decide) ?_
      rw [last, Nat.pow_add]
      omega
    rw [infBits]; omega
  · have sig := le_roundSig (m := m) (s := s) (by omega)
    rw [infBits]; omega

section
variable {m s : Nat} (small : m < (2 ^ 25 - 1) * 2 ^ 252 * 2 ^ s) {neg : Bool}
include small

theorem roundMag_of_small : roundMag m s = roundSig m s + roundExp m s * 2 ^ 23 := by
  rw [roundMag_eq, if_pos (round_in_range small)]

theorem roundMag_lt : roundMag m s < infBits := by
  rw [roundMag_of_small small]
  exact round_in_range small

theorem isFinite_roundMag : IsFinite (f32Pack neg (roundMag m s)) := by
  have lt : roundMag m s < 0x7F800000 := roundMag_lt small
  rw [IsFinite, f32Exp_pack (by omega)]
  omega

theorem f32Mag_roundMag : f32Mag (f32Pack neg (roundMag m s)) = roundSig m s * 2 ^ roundExp m s := by
  have lt : roundSig m s + roundExp m s * 2 ^ 23 < 0x7F800000 := round_in_range small
  rw [roundMag_of_small small, f32Mag_pack (by omega) le_roundSig (roundSig_le m s)]

theorem roundMag_lsb : (f32Pack neg (roundMag m s)).getLsbD 0 = decide (roundSig m s % 2 = 1) := by
  have lt : roundSig m s + roundExp m s * 2 ^ 23 < 0x7F800000 := round_in_range small
  rw [roundMag_of_small small, f32Pack_lsb (by omega)]
  congr 1
  simp
  omega

end

theorem roundMag_of_large {m s : Nat} (large : (2 ^ 25 - 1) * 2 ^ 252 * 2 ^ s ≤ m) : roundMag m s = infBits := by
  rw [roundMag_eq, if_neg (Nat.not_lt_of_le (round_overflow large))]

/-- No value of a binary32 number is nearer to m / 2^s than the rounded one, and one as near leaves that even. A value
is a multiple of the rounded one's unit, or below the binade m / 2^s is in. -/
theorem roundSig_nearest (m s : Nat) {z : Int} {w : Word} (value : z.natAbs = f32Mag w) :
    ((roundSig m s : Int) * 2 ^ roundExp m s * 2 ^ s - m).natAbs ≤ (z * 2 ^ s - m).natAbs ∧
      (z ≠ roundSig m s * 2 ^ roundExp m s →
        (z * 2 ^ s - m).natAbs = ((roundSig m s : Int) * 2 ^ roundExp m s * 2 ^ s - m).natAbs →
          roundSig m s % 2 = 0) := by
  have nearest := roundShift_nearest m (s + roundExp m s)
  have unit (j : Int) : j * 2 ^ roundExp m s * 2 ^ s = j * 2 ^ (s + roundExp m s) := by
    rw [mul_assoc, ← pow_add, Nat.add_comm]
  by_cases multiple : (2 : Int) ^ roundExp m s ∣ z
  · obtain ⟨j, rfl⟩ := multiple
    obtain ⟨le, tie⟩ := nearest j
    rw [mul_comm (2 ^ roundExp m s) j, unit, unit]
    exact ⟨le, fun other => tie fun same => other (by rw [same]; rfl)⟩
  · have ne : roundExp m s ≠ 0 := by rintro zero; simp [zero] at multiple
    have below : z < 2 ^ 23 * 2 ^ roundExp m s := by
      by_contra above
      have cast : ((2 ^ 23 * 2 ^ roundExp m s : Nat) : Int) = 2 ^ 23 * 2 ^ roundExp m s := by push_cast; rfl
      have dvd := two_pow_dvd_f32Mag (w := w) (e := roundExp m s) (by omega)
      rw [← value] at dvd
      exact multiple (by exact_mod_cast Int.natCast_dvd.mpr dvd)
    have le : (2 ^ 23 * 2 ^ (s + roundExp m s) : Int) ≤ m := by exact_mod_cast two_pow_le_of_roundExp ne
    have least := (nearest (2 ^ 23)).1
    have further : z * 2 ^ s < 2 ^ 23 * 2 ^ (s + roundExp m s) := by
      rw [← unit]
      exact mul_lt_mul_of_pos_right below (by positivity)
    rw [unit]
    rw [← roundSig] at least
    omega

/-! ## The nearest number (R270) -/

/-- A number is its magnitude under its sign; 0 has either sign. -/
theorem eq_signed_natAbs {n : Int} {neg : Bool} (sign : n ≠ 0 → neg = decide (n < 0)) :
    n = if neg then -(n.natAbs : Int) else n.natAbs := by
  by_cases zero : n = 0
  · simp [zero]
  · simp only [sign zero, decide_eq_true_eq]
    split <;> omega

/-- A number with the sign of n and the rounded magnitude of n is nearest to n. -/
theorem isNearest_roundMag {n : Int} {s : Nat} {neg : Bool} (sign : n ≠ 0 → neg = decide (n < 0)) :
    IsNearest (f32Pack neg (roundMag n.natAbs s)) n s := by
  by_cases small : n.natAbs < (2 ^ 25 - 1) * 2 ^ 252 * 2 ^ s
  · have bits : roundMag n.natAbs s < 0x7F800000 := roundMag_lt small
    refine ⟨fun ne => (f32Sign_pack (by omega)).trans (sign ne), ?_⟩
    rw [if_pos small]
    refine ⟨isFinite_roundMag small, fun w _ => ?_⟩
    rw [roundMag_lsb small, f32Value, f32Sign_pack (by omega), f32Mag_roundMag small]
    push_cast
    cases neg with
    | false =>
      have magnitude : (n.natAbs : Int) = n := (eq_signed_natAbs sign).symm
      have nearest := roundSig_nearest n.natAbs s (natAbs_f32Value w)
      rw [magnitude] at nearest
      simpa using nearest
    | true =>
      have magnitude : (n.natAbs : Int) = -n := (neg_eq_iff_eq_neg.mpr (eq_signed_natAbs sign)).symm
      have nearest := roundSig_nearest n.natAbs s (z := -f32Value w) (by rw [Int.natAbs_neg, natAbs_f32Value])
      have mirrored (x : Int) : (x * 2 ^ s - -n).natAbs = (-x * 2 ^ s - n).natAbs := by
        rw [← Int.natAbs_neg]
        congr 1
        ring
      rw [magnitude, mirrored, mirrored, neg_neg] at nearest
      simpa [neg_eq_iff_eq_neg] using nearest
  · have bits := roundMag_of_large (Nat.le_of_not_lt small)
    refine ⟨fun ne => ?_, ?_⟩
    · rw [bits, f32Sign_pack (by decide), sign ne]
    · rw [if_neg small, bits, isInf, f32Exp_pack (by decide), f32Frac_pack (by decide)]
      rfl

end Sys2Proof.Machine
end

section
/-! PROOFS. Binary32 addition, subtraction and multiplication (43_float.md R270 to R273): finite operands,
infinities and NaNs; and the FP8 multiply-accumulate (30_encoding.md R130 to R132, 43_float.md R280). -/

namespace Sys2Proof.Machine

/-! ## Finite, infinite, NaN (R273) -/

theorem isNaN_eq_false_of_finite {w : Word} (finite : IsFinite w) : isNaN w = false := by
  rw [isNaN, beq_false_of_ne finite, Bool.false_and]

theorem isInf_eq_false_of_finite {w : Word} (finite : IsFinite w) : isInf w = false := by
  rw [isInf, beq_false_of_ne finite, Bool.false_and]

theorem f32Mag_eq_zero_iff (w : Word) : f32Mag w = 0 ↔ f32Value w = 0 := by
  rw [← natAbs_f32Value, Int.natAbs_eq_zero]

/-! ## The negated number -/

theorem f32Sign_neg (w : Word) : f32Sign (f32Neg w) = !f32Sign w := by
  simp [f32Sign, f32Neg]

/-- Flipping bits outside a mask does not show under it. -/
theorem xor_and_of_disjoint {flip mask : Word} (disjoint : flip &&& mask = 0) (w : Word) :
    (w ^^^ flip) &&& mask = w &&& mask := by
  ext i lt
  have bit : (flip &&& mask)[i] = (0 : Word)[i] := by rw [disjoint]
  simp only [BitVec.getElem_and, BitVec.getElem_xor] at bit ⊢
  cases masked : mask[i] <;> simp_all

theorem f32Exp_neg (w : Word) : f32Exp (f32Neg w) = f32Exp w := by
  rw [f32Exp_eq_toNat_and, f32Exp_eq_toNat_and, f32Neg, BitVec.ushiftRight_xor_distrib,
    xor_and_of_disjoint (by decide)]

theorem f32Frac_neg (w : Word) : f32Frac (f32Neg w) = f32Frac w := by
  rw [f32Frac_eq_toNat_and, f32Frac_eq_toNat_and, f32Neg, xor_and_of_disjoint (by decide)]

theorem isNaN_neg (w : Word) : isNaN (f32Neg w) = isNaN w := by
  rw [isNaN, isNaN, f32Exp_neg, f32Frac_neg]

theorem isInf_neg (w : Word) : isInf (f32Neg w) = isInf w := by
  rw [isInf, isInf, f32Exp_neg, f32Frac_neg]

theorem f32Value_neg (w : Word) : f32Value (f32Neg w) = -f32Value w := by
  simp only [f32Value, f32Mag, f32Sign_neg, f32Exp_neg, f32Frac_neg]
  cases f32Sign w <;> simp

theorem isFinite_neg {w : Word} (finite : IsFinite w) : IsFinite (f32Neg w) := by
  rwa [IsFinite, f32Exp_neg]

/-! ## Finite operands (R270 to R272) -/

theorem f32Add_of_finite {a b : Word} (finite_a : IsFinite a) (finite_b : IsFinite b) : f32Add a b = some (f32Pack
    (if f32Value a + f32Value b = 0 then f32Sign a && f32Sign b else decide (f32Value a + f32Value b < 0))
    (roundMag (f32Value a + f32Value b).natAbs 0)) := by
  simp [f32Add, isNaN_eq_false_of_finite, isInf_eq_false_of_finite, finite_a, finite_b]

theorem f32Add_rounds {a b : Word} (finite_a : IsFinite a) (finite_b : IsFinite b) :
    ∃ v, f32Add a b = some v ∧ IsNearest v (f32Value a + f32Value b) 0 ∧
      (f32Value a + f32Value b = 0 → v = if f32Sign a && f32Sign b then 0x80000000 else 0) := by
  refine ⟨_, f32Add_of_finite finite_a finite_b, isNearest_roundMag fun ne => if_neg ne, fun zero => ?_⟩
  rw [if_pos zero, zero]
  cases f32Sign a && f32Sign b <;> rfl

/-- A difference is a sum, of NaNs too. -/
theorem f32Sub_eq_add (a b : Word) : f32Sub a b = f32Add a (f32Neg b) := by
  rw [f32Sub]
  split
  case isTrue nan => simp [f32Add, isNaN_neg, nan]
  case isFalse => rfl

/-- Settles O17: the sum is packed from its sign and its rounded magnitude; a difference is a sum. -/
theorem floatAdditionRoundsToNearest : Obligations.FloatAdditionRoundsToNearest := by
  intro a b finite_a finite_b
  refine ⟨f32Add_rounds finite_a finite_b, ?_⟩
  rw [f32Sub_eq_add, sub_eq_add_neg, ← f32Value_neg, ← f32Sign_neg]
  exact f32Add_rounds finite_a (isFinite_neg finite_b)

theorem f32Mul_of_finite {a b : Word} (finite_a : IsFinite a) (finite_b : IsFinite b) : f32Mul a b =
    some (f32Pack (f32Sign a != f32Sign b) (roundMag (f32Value a * f32Value b).natAbs 149)) := by
  simp [f32Mul, isNaN_eq_false_of_finite, isInf_eq_false_of_finite, finite_a, finite_b, Int.natAbs_mul,
    natAbs_f32Value]

/-- The product has the product of the signs. -/
theorem sign_mul_of_ne_zero {a b : Word} (ne : f32Value a * f32Value b ≠ 0) :
    (f32Sign a != f32Sign b) = decide (f32Value a * f32Value b < 0) := by
  obtain ⟨ne_a, ne_b⟩ := mul_ne_zero_iff.mp ne
  have sign {w : Word} (ne : f32Value w ≠ 0) : f32Sign w = decide (f32Value w < 0) := by
    rw [f32Value] at ne ⊢
    cases f32Sign w <;> simp at ne ⊢
    omega
  rw [sign ne_a, sign ne_b, Bool.eq_iff_iff]
  simp only [bne_iff_ne, decide_eq_true_eq, mul_neg_iff, ne_eq, decide_eq_decide]
  omega

theorem roundMag_lt_two_pow (m s : Nat) : roundMag m s < 2 ^ 31 := by
  rw [roundMag_eq]
  split
  case isTrue small => exact small.trans (by decide)
  case isFalse => decide

/-- Settles O18: the product is packed from its sign and its rounded magnitude. -/
theorem floatMultiplicationRoundsToNearest : Obligations.FloatMultiplicationRoundsToNearest :=
  fun _ _ finite_a finite_b =>
    ⟨_, f32Mul_of_finite finite_a finite_b, isNearest_roundMag sign_mul_of_ne_zero,
      f32Sign_pack (roundMag_lt_two_pow _ _)⟩

/-! ## Infinities and NaNs (R273) -/

section
variable {a b v : Word}

theorem f32Add_eq_none_iff : f32Add a b = none ↔
    isNaN a = true ∨ isNaN b = true ∨ isInf a = true ∧ isInf b = true ∧ f32Sign a ≠ f32Sign b := by
  rw [f32Add]
  split_ifs <;> simp_all
  rename_i nan
  exact nan.imp_right .inl

theorem f32Add_of_isInf (sum : f32Add a b = some v) (inf : isInf a = true ∨ isInf b = true) :
    v = if isInf a then a else b := by
  rw [f32Add] at sum
  split_ifs at sum <;> simp_all

/-- An infinity counts a magnitude that is not zero. -/
theorem f32Value_ne_zero_of_isInf {w : Word} (inf : isInf w = true) : f32Value w ≠ 0 := by
  rw [ne_eq, ← f32Mag_eq_zero_iff, f32Mag]
  simp only [isInf, Bool.and_eq_true, beq_iff_eq] at inf
  simp [inf.1]

theorem f32Mul_eq_none_iff : f32Mul a b = none ↔
    isNaN a = true ∨ isNaN b = true ∨ isInf a = true ∧ f32Value b = 0 ∧ isInf b = false ∨
      isInf b = true ∧ f32Value a = 0 ∧ isInf a = false := by
  have not_zero (w : Word) : f32Value w = 0 → isInf w = false := fun zero =>
    Bool.eq_false_iff.mpr fun inf => f32Value_ne_zero_of_isInf inf zero
  rw [f32Mul]
  split_ifs <;> simp_all [f32Mag_eq_zero_iff]
  · rename_i nan
    exact nan.imp_right .inl
  · rename_i zero
    exact zero.imp (fun ⟨inf, zero⟩ => ⟨inf, zero, not_zero b zero⟩) fun ⟨inf, zero⟩ => ⟨inf, zero, not_zero a zero⟩

theorem f32Mul_of_isInf (product : f32Mul a b = some v) (inf : isInf a = true ∨ isInf b = true) :
    v = if f32Sign a != f32Sign b then 0xFF800000 else 0x7F800000 := by
  have packed : f32Mul a b = none ∨ f32Mul a b = some (f32Pack (f32Sign a != f32Sign b) infBits) := by
    rw [f32Mul]
    split_ifs <;> simp_all
  obtain nan | packed := packed
  · rw [nan] at product; cases product
  · rw [packed] at product
    cases product
    cases f32Sign a != f32Sign b <;> rfl

end

/-- Settles O19: the branches of the three operations before the rounding. -/
theorem infinitiesAndNaNsFollowIeee : Obligations.InfinitiesAndNaNsFollowIeee := by
  intro a b
  refine ⟨f32Add_eq_none_iff, ?_, f32Mul_eq_none_iff, fun _ => f32Add_of_isInf, ?_, fun _ => f32Mul_of_isInf⟩
  · rw [f32Sub_eq_add, f32Add_eq_none_iff, isNaN_neg, isInf_neg, f32Sign_neg]
    simp
  · rw [f32Sub_eq_add, ← isInf_neg b]
    exact fun _ => f32Add_of_isInf

end Sys2Proof.Machine
end

section
/-! PROOFS. The FP8 micro-format (30_encoding.md R130 to R132) and the multiply-accumulate (43_float.md R280, R281):
exact conversions and products, and sums that stay finite. -/

namespace Sys2Proof.Machine

/-! ## Magnitudes that need no rounding (R270) -/

section
variable {n : Int} {s c t : Nat} {neg : Bool} (few_bits : c < 2 ^ 24) (exact : n.natAbs = c * 2 ^ t * 2 ^ s)
include few_bits exact

theorem roundExp_le : roundExp n.natAbs s ≤ t := by
  rw [exact, roundExp, Nat.mul_div_cancel _ (Nat.two_pow_pos s)]
  by_cases zero : c * 2 ^ t = 0
  · simp [zero]
  · have lt : c * 2 ^ t < 2 ^ (24 + t) := by
      rw [Nat.pow_add]
      exact Nat.mul_lt_mul_of_pos_right few_bits (Nat.two_pow_pos t)
    have log := (Nat.log2_lt zero).mpr lt
    omega

/-- A number of 24 significant bits that is not too large is its own rounding. -/
theorem f32Value_roundMag_exact (small : n.natAbs < (2 ^ 25 - 1) * 2 ^ 252 * 2 ^ s)
    (sign : n ≠ 0 → neg = decide (n < 0)) : f32Value (f32Pack neg (roundMag n.natAbs s)) * 2 ^ s = n := by
  have dvd : 2 ^ (s + roundExp n.natAbs s) ∣ n.natAbs := by
    have divides : 2 ^ (s + roundExp n.natAbs s) ∣ 2 ^ (t + s) :=
      Nat.pow_dvd_pow 2 (by have := roundExp_le few_bits exact; omega)
    rw [Nat.mul_assoc, ← Nat.pow_add] at exact
    exact exact ▸ divides.mul_left c
  have magnitude : roundSig n.natAbs s * 2 ^ roundExp n.natAbs s * 2 ^ s = n.natAbs := by
    rw [Nat.mul_assoc, ← Nat.pow_add, Nat.add_comm]
    exact roundShift_of_dvd dvd
  have signed := eq_signed_natAbs sign
  rw [← magnitude] at signed
  rw [f32Value, f32Sign_pack (roundMag_lt_two_pow _ _), f32Mag_roundMag small]
  conv => rhs; rw [signed]
  split <;> push_cast <;> ring

end

/-! ## FP8 (R130 to R132) -/

/-- An FP8 magnitude is four significant bits and a shift. -/
theorem fp8Mag_form (v : Byte) : ∃ c t, c < 16 ∧ t ≤ 14 ∧ fp8Mag v = c * 2 ^ t := by
  rw [fp8Mag]
  split
  · exact ⟨v.toNat % 8, 0, by omega, by omega, by simp⟩
  · exact ⟨8 + v.toNat % 8, v.toNat / 8 % 16 - 1, by omega, by omega, rfl⟩

/-- An FP8 number in units of 2^-149. -/
def fp8Value (v : Byte) : Int := (if v.getLsbD 7 then -1 else 1) * (fp8Mag v * 2 ^ 140 : Nat)

theorem natAbs_fp8Value (v : Byte) : (fp8Value v).natAbs = fp8Mag v * 2 ^ 140 := by
  rw [fp8Value, Int.natAbs_mul, Int.natAbs_natCast]
  split <;> simp

theorem fp8ToF32_eq (v : Byte) : fp8ToF32 v = f32Pack (v.getLsbD 7) (roundMag (fp8Value v).natAbs 0) := by
  rw [natAbs_fp8Value]
  rfl

theorem fp8Mag_lt (v : Byte) : fp8Mag v < 2 ^ 18 := by
  obtain ⟨c, t, sig, shift, form⟩ := fp8Mag_form v
  have grows : 2 ^ t ≤ 2 ^ 14 := Nat.pow_le_pow_right (by decide) shift
  calc fp8Mag v = c * 2 ^ t := form
    _ ≤ c * 2 ^ 14 := Nat.mul_le_mul_left c grows
    _ < 2 ^ 18 := by omega

/-- The sign of an FP8 number is its own, but for 0. -/
theorem fp8_sign {v : Byte} (ne : fp8Value v ≠ 0) : v.getLsbD 7 = decide (fp8Value v < 0) := by
  rw [fp8Value] at ne ⊢
  generalize fp8Mag v * 2 ^ 140 = mag at *
  cases v.getLsbD 7 <;> simp at ne ⊢
  omega

theorem fp8_small (v : Byte) : (fp8Value v).natAbs < (2 ^ 25 - 1) * 2 ^ 252 * 2 ^ 0 := by
  rw [natAbs_fp8Value]
  have lt := fp8Mag_lt v
  omega

/-- The conversion is exact (R132). -/
theorem f32Value_fp8ToF32 (v : Byte) : f32Value (fp8ToF32 v) = fp8Value v := by
  obtain ⟨c, t, sig, -, form⟩ := fp8Mag_form v
  have exact : (fp8Value v).natAbs = c * 2 ^ (t + 140) * 2 ^ 0 := by
    rw [natAbs_fp8Value, form, Nat.pow_add]
    ring
  have value := f32Value_roundMag_exact (by omega) exact (fp8_small v) fp8_sign
  rwa [← fp8ToF32_eq, pow_zero, mul_one] at value

theorem isFinite_fp8ToF32 (v : Byte) : IsFinite (fp8ToF32 v) := by
  rw [fp8ToF32_eq]
  exact isFinite_roundMag (fp8_small v)

/-- The product of two FP8 numbers is exact and small. -/
theorem f32Mul_fp8 (x y : Byte) : ∃ p, f32Mul (fp8ToF32 x) (fp8ToF32 y) = some p ∧
    f32Value p * 2 ^ 149 = f32Value (fp8ToF32 x) * f32Value (fp8ToF32 y) ∧ IsFinite p ∧
    (f32Value p).natAbs < 2 ^ 167 := by
  obtain ⟨c, t, sig, shift, form⟩ := fp8Mag_form x
  obtain ⟨c', t', sig', shift', form'⟩ := fp8Mag_form y
  have product : (f32Value (fp8ToF32 x) * f32Value (fp8ToF32 y)).natAbs = fp8Mag x * fp8Mag y * 2 ^ 131 * 2 ^ 149 := by
    rw [f32Value_fp8ToF32, f32Value_fp8ToF32, Int.natAbs_mul, natAbs_fp8Value, natAbs_fp8Value]
    ring
  have bound : fp8Mag x * fp8Mag y < 2 ^ 18 * 2 ^ 18 := Nat.mul_lt_mul'' (fp8Mag_lt x) (fp8Mag_lt y)
  have exact : (f32Value (fp8ToF32 x) * f32Value (fp8ToF32 y)).natAbs = c * c' * 2 ^ (t + t' + 131) * 2 ^ 149 := by
    rw [product, form, form', Nat.pow_add, Nat.pow_add]
    ring
  have small : (f32Value (fp8ToF32 x) * f32Value (fp8ToF32 y)).natAbs < (2 ^ 25 - 1) * 2 ^ 252 * 2 ^ 149 := by
    rw [product]
    omega
  have few_bits : c * c' < 2 ^ 24 := (Nat.mul_lt_mul'' sig sig').trans (by decide)
  have value := f32Value_roundMag_exact few_bits exact small sign_mul_of_ne_zero
  refine ⟨_, f32Mul_of_finite (isFinite_fp8ToF32 x) (isFinite_fp8ToF32 y), value, isFinite_roundMag small, ?_⟩
  have magnitude := (congrArg Int.natAbs value).trans product
  rw [Int.natAbs_mul, show ((2 : Int) ^ 149).natAbs = 2 ^ 149 from rfl] at magnitude
  rw [Nat.eq_of_mul_eq_mul_right (Nat.two_pow_pos 149) magnitude]
  omega

/-! ## Sums that stay finite (R280) -/

theorem IsNearest.bounded {v : Word} {n : Int} (nearest : IsNearest v n 0) (small : n.natAbs < 2 ^ 200) :
    IsFinite v ∧ (f32Value v).natAbs ≤ 2 * n.natAbs := by
  obtain ⟨-, rounded⟩ := nearest
  rw [if_pos (by omega)] at rounded
  obtain ⟨finite, least⟩ := rounded
  have zero := (least 0 (show f32Exp 0 ≠ 255 by decide)).1
  rw [show f32Value 0 = 0 by decide] at zero
  exact ⟨finite, by omega⟩

theorem f32Add_bounded {a b : Word} (finite_a : IsFinite a) (finite_b : IsFinite b)
    (small : (f32Value a).natAbs + (f32Value b).natAbs < 2 ^ 200) :
    ∃ v, f32Add a b = some v ∧ IsFinite v ∧ (f32Value v).natAbs ≤ 2 * ((f32Value a).natAbs + (f32Value b).natAbs) := by
  obtain ⟨v, sum, nearest, -⟩ := f32Add_rounds finite_a finite_b
  have triangle := Int.natAbs_add_le (f32Value a) (f32Value b)
  obtain ⟨finite, bound⟩ := nearest.bounded (by omega)
  exact ⟨v, sum, finite, by omega⟩

theorem fp8Lane_eq (w : Word) (i : Nat) : fp8Lane w i = w.extractLsb' (8 * i) 8 :=
  BitVec.setWidth_ushiftRight_eq_extractLsb

/-- An FP8 number by its fields (R132). -/
theorem fp8Value_eq (v : Byte) : fp8Value v = (if v.getLsbD 7 then -1 else 1) *
    (if (v.extractLsb' 3 4).toNat = 0 then ((v.extractLsb' 0 3).toNat : Int) * 2 ^ 140
      else (8 + (v.extractLsb' 0 3).toNat : Int) * 2 ^ (139 + (v.extractLsb' 3 4).toNat)) := by
  have exponent : (v.extractLsb' 3 4).toNat = v.toNat / 8 % 16 := by
    rw [BitVec.extractLsb'_toNat, Nat.shiftRight_eq_div_pow]
  have mantissa : (v.extractLsb' 0 3).toNat = v.toNat % 8 := by
    rw [BitVec.extractLsb'_toNat, Nat.shiftRight_zero]
  rw [fp8Value, fp8Mag, exponent, mantissa]
  congr 1
  split
  · push_cast; rfl
  · rename_i ne
    obtain ⟨e, succ⟩ := Nat.exists_eq_add_one_of_ne_zero ne
    rw [succ]
    push_cast
    ring

/-- Settles O20: conversions and products need no rounding, and four products are far from overflow. -/
theorem fp8MultiplyAccumulateIsFinite : Obligations.Fp8MultiplyAccumulateIsFinite := by
  refine ⟨fun v => ⟨(f32Value_fp8ToF32 v).trans (fp8Value_eq v), f32Sign_pack (roundMag_lt_two_pow _ _)⟩,
    fun x y => ?_, fun a b => ?_⟩
  · obtain ⟨p, product, value, -⟩ := f32Mul_fp8 x y
    exact ⟨p, product, value⟩
  · obtain ⟨p0, product0, -, finite0, small0⟩ := f32Mul_fp8 (a.extractLsb' 0 8) (b.extractLsb' 0 8)
    obtain ⟨p1, product1, -, finite1, small1⟩ := f32Mul_fp8 (a.extractLsb' 8 8) (b.extractLsb' 8 8)
    obtain ⟨p2, product2, -, finite2, small2⟩ := f32Mul_fp8 (a.extractLsb' 16 8) (b.extractLsb' 16 8)
    obtain ⟨p3, product3, -, finite3, small3⟩ := f32Mul_fp8 (a.extractLsb' 24 8) (b.extractLsb' 24 8)
    obtain ⟨s1, sum1, finite_s1, small_s1⟩ := f32Add_bounded finite0 finite1 (by omega)
    obtain ⟨s2, sum2, finite_s2, small_s2⟩ := f32Add_bounded finite_s1 finite2 (by omega)
    obtain ⟨v, sum3, finite, -⟩ := f32Add_bounded finite_s2 finite3 (by omega)
    refine ⟨p0, p1, p2, p3, s1, s2, v, product0, product1, product2, product3, sum1, sum2, sum3, ?_, finite⟩
    simp only [fmac8, fp8Product, fp8Lane_eq, Nat.mul_zero, Nat.mul_one, Nat.reduceMul, product0, product1, product2,
      product3, sum1, sum2, sum3]

end Sys2Proof.Machine
end
